-- ==== Sys2Proof/Word.lean ====
section
/-! DEFINITION. The word types of the flash device controller: bytes, page numbers, operation codes and
the fixed-size byte buffers of 10_state.md rule R23 and 30_encoding.md rule R90. Every value is unsigned
(00_scope.md rule R15). -/

namespace Sys2Proof

/-- One byte (rule R15); every transfer on the bus is one byte (rule R62). -/
abbrev Byte := BitVec 8

/-- A page number as the command port and the `page` latch carry it: 16 bits, unsigned (rule R22). -/
abbrev PageNo := BitVec 16

/-- A host operation code: 4 bits (rule R21, rule R92). -/
abbrev OpCode := BitVec 4

/-- The 20-bit host command word, `op` in bits 19:16 and `page` in bits 15:0 (rule R90). -/
abbrev CommandWord := BitVec 20

/-- A 512-byte buffer, indexed 0 to 511 (rule R23): a list of bytes with its length. -/
structure Payload where
  bytes : List Byte
  size  : bytes.length = 512
  deriving DecidableEq, Repr

/-- The buffer that holds one byte 512 times. -/
def Payload.replicate (b : Byte) : Payload := ⟨List.replicate 512 b, List.length_replicate⟩

/-- A list of exactly 512 bytes, as a buffer. -/
def Payload.ofList (l : List Byte) : Option Payload :=
  if h : l.length = 512 then some ⟨l, h⟩ else none

end Sys2Proof
end

