-- ==== Sys2Proof/Config.lean ====
section
/-! DEFINITION. The configuration `cfg` of 00_scope.md rule R10 to rule R13: what an integrator fixes and
no operation writes (rule R44). The machine carries its `Cfg` as a constant of its state, so every claim
about every state is a claim for every configuration. The free value is here too. -/

namespace Sys2Proof

/-- `N_PAGES = 8192` (rule R10). -/
def nPages : Nat := 8192
/-- `PAGE_BYTES = 512` (rule R10). -/
def pageBytes : Nat := 512
/-- `STATUS_BYTES = 2` (rule R10). -/
def statusBytes : Nat := 2
/-- `ID_BYTES = 5` (rule R10). -/
def idBytes : Nat := 5
/-- `FILLER = 0xFF` (rule R10, rule R95). -/
def filler : Byte := 0xFF

/-- A four-byte magic sequence, bytes in index order (rule R12; `MAGIC_BYTES = 4`, rule R10). -/
structure Magic where
  b0 : Byte
  b1 : Byte
  b2 : Byte
  b3 : Byte
  deriving DecidableEq, Repr

/-- The bytes of a magic sequence in the order they are sent (rule R62). -/
def Magic.bytes (m : Magic) : List Byte := [m.b0, m.b1, m.b2, m.b3]

/-- The configuration record of rules R11, R12 and R13. -/
structure Cfg where
  /-- `T_RST_NS`: the reset line is held asserted at INIT at least this long (rule R11). -/
  tRstNs : Nat
  /-- `T_REC_NS`: settle after the reset line is released (rule R11). -/
  tRecNs : Nat
  /-- `T_RDPD_NS`: recovery after the resume-from-deep-power-down frame (rule R11). -/
  tRdpdNs : Nat
  /-- `T_CSLU_NS`: chip-select low time of the ultra-deep wake pulse (rule R11). -/
  tCsluNs : Nat
  /-- `T_XUDPD_NS`: recovery after the wake pulse (rule R11). -/
  tXudpdNs : Nat
  /-- `T_CLK_NS`: the clock period (rule R13); OPEN in the spec. -/
  tClkNs : Nat
  /-- `OPC_STATUS` (rule R12). -/
  opcStatus : Byte
  /-- `OPC_ID` (rule R12). -/
  opcId : Byte
  /-- `OPC_READ_LF` (rule R12). -/
  opcReadLf : Byte
  /-- `OPC_PROG` (rule R12). -/
  opcProg : Byte
  /-- `OPC_DPD` (rule R12). -/
  opcDpd : Byte
  /-- `OPC_RESUME_DPD` (rule R12). -/
  opcResumeDpd : Byte
  /-- `OPC_UDPD` (rule R12). -/
  opcUdpd : Byte
  /-- `SEQ_CHIP_ERASE` (rule R12). -/
  seqChipErase : Magic
  /-- `SEQ_PAGESIZE_512` (rule R12). -/
  seqPagesize512 : Magic
  /-- `SEQ_PAGESIZE_528` (rule R12). -/
  seqPagesize528 : Magic
  /-- `POLL_LIMIT`: most status polls in one wait, 0 = unbounded (rule R13). -/
  pollLimit : Nat
  /-- `BUS_TIMEOUT_TICKS`: most ticks waited for one transfer, 0 = unbounded (rule R13). -/
  busTimeoutTicks : Nat
  /-- `RANGE_CHECK`: reject a page number of 8192 or more (rule R13). -/
  rangeCheck : Bool
  /-- `PAGESIZE_BIT_512`: the value of status byte 0 bit 0 that means 512-byte pages (rule R13). -/
  pagesizeBit512 : Bool
  deriving DecidableEq, Repr

/-- The default configuration: the defaults of rules R11 to R13, and for `T_CLK_NS`, which has none, the
100 ns of the spec's examples. DESIGN CHOICE (log 2) for the clock period; PRESUMED (log 3) for the
opcodes and `PAGESIZE_BIT_512`, which the spec itself marks as general knowledge. -/
def Cfg.default : Cfg where
  tRstNs := 10000
  tRecNs := 35000
  tRdpdNs := 35000
  tCsluNs := 20
  tXudpdNs := 180000
  tClkNs := 100
  opcStatus := 0xD7
  opcId := 0x9F
  opcReadLf := 0x03
  opcProg := 0x82
  opcDpd := 0xB9
  opcResumeDpd := 0xAB
  opcUdpd := 0x79
  seqChipErase := ⟨0xC7, 0x94, 0x80, 0x9A⟩
  seqPagesize512 := ⟨0x3D, 0x2A, 0x80, 0xA6⟩
  seqPagesize528 := ⟨0x3D, 0x2A, 0x80, 0xA7⟩
  pollLimit := 0
  busTimeoutTicks := 0
  rangeCheck := true
  pagesizeBit512 := true

/-- The catalog tells its frames apart: the seven opcodes differ pairwise, and so do the three magic
sequences. Only then can a device read a frame back (log 9). -/
abbrev Cfg.CatalogDistinct (c : Cfg) : Prop :=
  [c.opcStatus, c.opcId, c.opcReadLf, c.opcProg, c.opcDpd, c.opcResumeDpd, c.opcUdpd].Nodup ∧
  [c.seqChipErase, c.seqPagesize512, c.seqPagesize528].Nodup

/-- FREE VALUE (log 4): the byte the reference device answers where the spec says `any value`
(20_memory.md rules R76 to R79, 93_implementation_defined.md U4, U15, U16). The machine applies it to the
counter `State.freeUsed`; nothing can be proved of what it is. -/
opaque Config.freeByte : Nat → Byte

end Sys2Proof
end

