-- ==== Sys2Proof/Syntax.lean ====
section
/-! DEFINITION. The instructions: one constructor per row of spec/opcode_table.json. The fourteen host
operations and the two reserved codes are commands of the controller (30_encoding.md rule R92, rule R93);
the seven frame formats are what the controller puts on the serial bus and the flash device receives
(rule R94). -/

namespace Sys2Proof

/-- The catalog opcodes that form a whole frame `B0` by themselves (rule R94, rule R96). -/
inductive SleepOpcode
  | dpd
  | resumeDpd
  | udpd
  deriving DecidableEq, Repr

/-- The three magic sequences of a frame `B1` (rule R94, rule R96). -/
inductive MagicName
  | chipErase
  | pagesize512
  | pagesize528
  deriving DecidableEq, Repr

/-- The two uses of a frame `B2`: identification (`m = 5`) and the single status read (`m = 2`)
(rule R94). -/
inductive ResponseOpcode
  | id
  | status
  deriving DecidableEq, Repr

/-- The instructions. A host command carries its 16-bit page field `n` whether or not the operation uses it
(rule R91); the 512-byte buffer of WRITE_PAGE is no part of the command word (rule R90) and stays on the
command port. A frame carries the fields of its row of the table. -/
inductive Instr
  /-- INIT (rule R150). -/
  | init (n : PageNo)
  /-- WAIT_READY (rule R170). -/
  | waitReady (n : PageNo)
  /-- GET_STATUS (rule R173). -/
  | getStatus (n : PageNo)
  /-- GET_ID (rule R204). -/
  | getId (n : PageNo)
  /-- SET_PAGESIZE_512 (rule R207). -/
  | setPagesize512 (n : PageNo)
  /-- SET_PAGESIZE_528 (rule R208). -/
  | setPagesize528 (n : PageNo)
  /-- READ_PAGE (rule R185). -/
  | readPage (n : PageNo)
  /-- WRITE_PAGE (rule R190). -/
  | writePage (n : PageNo)
  /-- ERASE_CHIP (rule R200). -/
  | eraseChip (n : PageNo)
  /-- ENTER_DPD (rule R153). -/
  | enterDpd (n : PageNo)
  /-- RESUME_DPD (rule R155). -/
  | resumeDpd (n : PageNo)
  /-- ENTER_UDPD (rule R158). -/
  | enterUdpd (n : PageNo)
  /-- RESUME_UDPD (rule R160). -/
  | resumeUdpd (n : PageNo)
  /-- GET_PAGESIZE (rule R176). -/
  | getPagesize (n : PageNo)
  /-- The reserved code 14 (rule R93). -/
  | reserved14 (n : PageNo)
  /-- The reserved code 15 (rule R93). -/
  | reserved15 (n : PageNo)
  /-- Frame `B0`, one catalog opcode (rule R94). -/
  | frameB0 (k : SleepOpcode)
  /-- Frame `B1`, one magic sequence (rule R94). -/
  | frameB1 (q : MagicName)
  /-- Frame `B2`, an opcode and its `m` fillers (rule R94). -/
  | frameB2 (r : ResponseOpcode)
  /-- Frame `B3`, `OPC_STATUS` and `q` pairs of fillers (rule R94, rule R128). -/
  | frameB3 (q : Nat)
  /-- Frame `B4`, the addressed read: `a` is `n[12:0]`, `b` is `n[7:0]` (rule R94, rule R101). -/
  | frameB4 (a : BitVec 13) (b : Byte)
  /-- Frame `B5`, the addressed write with its 512 bytes (rule R94, rule R101). -/
  | frameB5 (a : BitVec 13) (b : Byte) (data : Payload)
  /-- Frame `B6`, the chip-select pulse with no byte (rule R94, rule R160). -/
  | frameB6
  deriving DecidableEq, Repr

end Sys2Proof
end

