-- ==== Sys2Proof/WellFormed.lean ====
section
/-! DEFINITION. Which instructions have an encoding of their own in the spec, and how the rules sort them. -/

namespace Sys2Proof

/-- The check: a status poll has at least one pair (rule R94, `q ≥ 1`), and both address fields of an
addressed frame come from one page number, `b` its low byte (rule R100, rule R101). Every other
instruction passes at every value of its fields (rule R91). -/
def Instr.wellFormed : Instr → Bool
  | .frameB3 q => decide (1 ≤ q)
  | .frameB4 a b => b == a.setWidth 8
  | .frameB5 a b _ => b == a.setWidth 8
  | .init _ | .waitReady _ | .getStatus _ | .getId _ | .setPagesize512 _ | .setPagesize528 _
  | .readPage _ | .writePage _ | .eraseChip _ | .enterDpd _ | .resumeDpd _ | .enterUdpd _
  | .resumeUdpd _ | .getPagesize _ | .reserved14 _ | .reserved15 _
  | .frameB0 _ | .frameB1 _ | .frameB2 _ | .frameB6 => true

/-- `wellFormed` as a proposition. -/
abbrev Instr.WellFormed (i : Instr) : Prop := i.wellFormed = true

/-- The operation takes a page number (rule R91). -/
def Instr.paged : Instr → Bool
  | .readPage _ | .writePage _ => true
  | .init _ | .waitReady _ | .getStatus _ | .getId _ | .setPagesize512 _ | .setPagesize528 _
  | .eraseChip _ | .enterDpd _ | .resumeDpd _ | .enterUdpd _ | .resumeUdpd _ | .getPagesize _
  | .reserved14 _ | .reserved15 _ | .frameB0 _ | .frameB1 _ | .frameB2 _ | .frameB3 _
  | .frameB4 _ _ | .frameB5 _ _ _ | .frameB6 => false

/-- The instruction is a bus frame, an instruction of the flash device (rule R94). -/
def Instr.isFrame : Instr → Bool
  | .frameB0 _ | .frameB1 _ | .frameB2 _ | .frameB3 _ | .frameB4 _ _ | .frameB5 _ _ _ | .frameB6 => true
  | .init _ | .waitReady _ | .getStatus _ | .getId _ | .setPagesize512 _ | .setPagesize528 _
  | .readPage _ | .writePage _ | .eraseChip _ | .enterDpd _ | .resumeDpd _ | .enterUdpd _
  | .resumeUdpd _ | .getPagesize _ | .reserved14 _ | .reserved15 _ => false

/-- A status poll of one pair and the single status read are the same bytes on the wire (rule R94: `B2` is
used as "the degenerate one-poll case of `B3`"); both are read back as the single status read. -/
def Instr.canonical (i : Instr) : Instr :=
  if i = .frameB3 1 then .frameB2 .status else i

end Sys2Proof
end

