-- ==== Sys2Proof/Decode.lean ====
section
/-! DEFINITION. The two decoders of 30_encoding.md, and after them the encoder. A host command is one
20-bit word (rule R90); a bus frame is the list of bytes sent between a `CS↓` and the next `CS↑`
(rule R94). Both decoders are total and refuse by name. -/

namespace Sys2Proof

/-- What reaches a decoder: a host command word, or the bytes of a bus frame. -/
inductive Code
  | command (w : CommandWord)
  | frame (bytes : List Byte)
  deriving DecidableEq, Repr

/-- Why bytes are no instruction. -/
inductive DecodeError
  /-- A command word wider than 20 bits (rule R90: all commands have one length). -/
  | commandTooWide
  /-- A one-byte frame whose byte is none of the three opcodes of `B0`. -/
  | notASleepOpcode
  /-- A four-byte frame that is none of the three magic sequences. -/
  | notAMagicSequence
  /-- A frame whose opcode, fillers and length fit none of the formats `B2` to `B5`. -/
  | notACatalogFrame
  /-- An addressed frame with a 1 in bit 23, 22 or 8 of its address word (rule R101). -/
  | fixedAddressBitSet
  /-- A program frame whose data are not 512 bytes (rule R94). -/
  | payloadLength
  /-- A row width that no row of the opcode table has. -/
  | noSuchWidth
  deriving DecidableEq, Repr

/-! ### Host commands -/

/-- The command word with operation code `o` and page field `n` (rule R90). -/
def commandWord (o : OpCode) (n : PageNo) : CommandWord := o ++ n

/-- The operation table of rule R92 with the reserved codes of rule R93. -/
def commandOf (o : OpCode) (n : PageNo) : Instr :=
  match o.toNat with
  | 0 => .init n
  | 1 => .waitReady n
  | 2 => .getStatus n
  | 3 => .getId n
  | 4 => .setPagesize512 n
  | 5 => .setPagesize528 n
  | 6 => .readPage n
  | 7 => .writePage n
  | 8 => .eraseChip n
  | 9 => .enterDpd n
  | 10 => .resumeDpd n
  | 11 => .enterUdpd n
  | 12 => .resumeUdpd n
  | 13 => .getPagesize n
  | 14 => .reserved14 n
  | _ => .reserved15 n

/-- `op = word[19:16]`, `n = word[15:0]`; the decoder is total (rule R91). -/
def decodeCommand (w : CommandWord) : Instr :=
  commandOf (w.extractLsb' 16 4) (w.extractLsb' 0 16)

/-! ### Bus frames -/

/-- `m` filler bytes (rule R95). -/
def fillers (m : Nat) : List Byte := List.replicate m filler

/-- A one-byte frame (rule R96, rows ENTER_DPD, RESUME_DPD, ENTER_UDPD). -/
def decodeSleep (c : Cfg) (o : Byte) : Except DecodeError Instr :=
  if o = c.opcDpd then .ok (.frameB0 .dpd)
  else if o = c.opcResumeDpd then .ok (.frameB0 .resumeDpd)
  else if o = c.opcUdpd then .ok (.frameB0 .udpd)
  else .error .notASleepOpcode

/-- A four-byte frame (rule R96, rows ERASE_CHIP and SET_PAGESIZE). -/
def decodeMagic (c : Cfg) (m : Magic) : Except DecodeError Instr :=
  if m = c.seqChipErase then .ok (.frameB1 .chipErase)
  else if m = c.seqPagesize512 then .ok (.frameB1 .pagesize512)
  else if m = c.seqPagesize528 then .ok (.frameB1 .pagesize528)
  else .error .notAMagicSequence

/-- The page-number bits of address bytes 0 and 1: `a0[5:0] ++ a1[7:1]` (rule R101). -/
def pageBits (a0 a1 : Byte) : BitVec 13 := a0.extractLsb' 0 6 ++ a1.extractLsb' 1 7

/-- The fixed zero bits of the packed address, `a0[7:6]` and `a1[0]` (rule R101). -/
def addressBitsClear (a0 a1 : Byte) : Bool :=
  a0.extractLsb' 6 2 == 0 && a1.extractLsb' 0 1 == 0

/-- An addressed frame: opcode `o`, address bytes `a0`, `a1`, `a2`, then `tail` (rule R94, `B4`, `B5`). -/
def decodeAddressed (c : Cfg) (o a0 a1 a2 : Byte) (tail : List Byte) : Except DecodeError Instr :=
  if !addressBitsClear a0 a1 then .error .fixedAddressBitSet
  else if o = c.opcReadLf ∧ tail = fillers pageBytes then .ok (.frameB4 (pageBits a0 a1) a2)
  else if o = c.opcProg then
    match Payload.ofList tail with
    | some p => .ok (.frameB5 (pageBits a0 a1) a2 p)
    | none => .error .payloadLength
  else .error .notACatalogFrame

/-- The frame of `k` status pairs, in its canonical form (rule R94: one pair is the degenerate case). -/
def pollFrame (k : Nat) : Instr := if k = 1 then .frameB2 .status else .frameB3 k

/-- The frames longer than one byte whose first byte is `o`. -/
def decodeLong (c : Cfg) (o : Byte) (rest : List Byte) : Except DecodeError Instr :=
  if o = c.opcStatus ∧ rest = fillers rest.length ∧ rest.length % 2 = 0 ∧ rest ≠ [] then
    .ok (pollFrame (rest.length / 2))
  else if o = c.opcId ∧ rest = fillers idBytes then .ok (.frameB2 .id)
  else match rest with
    | a0 :: a1 :: a2 :: tail => decodeAddressed c o a0 a1 a2 tail
    | _ => .error .notACatalogFrame

/-- The decoder of bus frames: the bytes between a `CS↓` and the next `CS↑` (rule R94). -/
def decodeFrame (c : Cfg) : List Byte → Except DecodeError Instr
  | [] => .ok .frameB6
  | [o] => decodeSleep c o
  | [b0, b1, b2, b3] => decodeMagic c ⟨b0, b1, b2, b3⟩
  | o :: rest => decodeLong c o rest

/-- The bytes of an addressed frame as the reference device takes them: of the first two address bytes only
the page number counts (20_memory.md rule R79: `((a0 & 0x3F) << 7) | (a1 >> 1)`). -/
def clearFixedBits (c : Cfg) : List Byte → List Byte
  | o :: a0 :: a1 :: a2 :: x :: rest =>
    if o = c.opcReadLf ∨ o = c.opcProg then o :: (a0 &&& 0x3F) :: (a1 &&& 0xFE) :: a2 :: x :: rest
    else o :: a0 :: a1 :: a2 :: x :: rest
  | bytes => bytes

/-- The frame that the device hears: the frame of rule R94 that the bytes are, else the one that they are
with the fixed address bits taken as 0. -/
def heardFrame (c : Cfg) (bytes : List Byte) : Except DecodeError Instr :=
  match decodeFrame c bytes with
  | .ok i => .ok i
  | .error _ => decodeFrame c (clearFixedBits c bytes)

/-- The decoder over both encodings. -/
def decode (c : Cfg) : Code → Except DecodeError Instr
  | .command w => .ok (decodeCommand w)
  | .frame bytes => decodeFrame c bytes

/-! ### The words of the opcode table -/

/-- The bytes that follow a frame's table bits, given the first byte of the frame: the row's tail, fillers
for the reading formats (rule R94), and for a program frame a payload of zeros. -/
def tableTail (c : Cfg) (nbits : Nat) (o : Byte) : List Byte :=
  if nbits = 32 then
    if o = c.opcReadLf then fillers pageBytes
    else if o = c.opcProg then List.replicate pageBytes 0
    else []
  else
    if o = c.opcId then fillers idBytes
    else if o = c.opcStatus then fillers statusBytes
    else []

/-- The frame bytes of a table word of `nbits` bits: the word's most significant byte is sent first, as the
row's bit pattern is written, and the row's tail follows. -/
def tableFrame (c : Cfg) (nbits w : Nat) : List Byte :=
  let b (k : Nat) : Byte := BitVec.ofNat 8 (w >>> (8 * k))
  if nbits = 0 then []
  else if nbits = 8 then b 0 :: tableTail c 8 (b 0)
  else [b 3, b 2, b 1, b 0] ++ tableTail c 32 (b 3)

/-- What stands behind a table word: a host command for the 20-bit rows (given as 24 bits, in whole bytes),
a bus frame for the rows of 0, 8 and 32 bits. -/
def tableCode (c : Cfg) (nbits w : Nat) : Except DecodeError Code :=
  if nbits = 20 ∨ nbits = 24 then
    if w < 2 ^ 20 then .ok (.command (BitVec.ofNat 20 w)) else .error .commandTooWide
  else if nbits = 0 ∨ nbits = 8 ∨ nbits = 32 then .ok (.frame (tableFrame c nbits w))
  else .error .noSuchWidth

/-- The instruction the decoder reads from a word of the opcode table, with the default catalog. -/
def decodeTableWord (nbits w : Nat) : Option Instr :=
  match tableCode Cfg.default nbits w with
  | .ok code => (decode Cfg.default code).toOption
  | .error _ => none

/-! ### The encoder -/

/-- The byte of a `B0` opcode (rule R12). -/
def SleepOpcode.byte (c : Cfg) : SleepOpcode → Byte
  | .dpd => c.opcDpd
  | .resumeDpd => c.opcResumeDpd
  | .udpd => c.opcUdpd

/-- The sequence of a magic name (rule R12). -/
def MagicName.sequence (c : Cfg) : MagicName → Magic
  | .chipErase => c.seqChipErase
  | .pagesize512 => c.seqPagesize512
  | .pagesize528 => c.seqPagesize528

/-- The header word of an addressed frame, `oooooooo00aaaaaaaaaaaaa0bbbbbbbb` (rule R101). -/
def headerWord (o : Byte) (a : BitVec 13) (b : Byte) : BitVec 32 :=
  o ++ (0#2 ++ (a ++ (0#1 ++ b)))

/-- The four bytes of a header word, bits 31:24 first (rule R62). -/
def headerBytes (w : BitVec 32) : List Byte :=
  [w.extractLsb' 24 8, w.extractLsb' 16 8, w.extractLsb' 8 8, w.extractLsb' 0 8]

/-- The encoder: the command word of rule R92, or the bytes of the frame format of rule R94. -/
def encode (c : Cfg) : Instr → Code
  | .init n => .command (commandWord 0 n)
  | .waitReady n => .command (commandWord 1 n)
  | .getStatus n => .command (commandWord 2 n)
  | .getId n => .command (commandWord 3 n)
  | .setPagesize512 n => .command (commandWord 4 n)
  | .setPagesize528 n => .command (commandWord 5 n)
  | .readPage n => .command (commandWord 6 n)
  | .writePage n => .command (commandWord 7 n)
  | .eraseChip n => .command (commandWord 8 n)
  | .enterDpd n => .command (commandWord 9 n)
  | .resumeDpd n => .command (commandWord 10 n)
  | .enterUdpd n => .command (commandWord 11 n)
  | .resumeUdpd n => .command (commandWord 12 n)
  | .getPagesize n => .command (commandWord 13 n)
  | .reserved14 n => .command (commandWord 14 n)
  | .reserved15 n => .command (commandWord 15 n)
  | .frameB0 k => .frame [k.byte c]
  | .frameB1 q => .frame (q.sequence c).bytes
  | .frameB2 .id => .frame (c.opcId :: fillers idBytes)
  | .frameB2 .status => .frame (c.opcStatus :: fillers statusBytes)
  | .frameB3 q => .frame (c.opcStatus :: fillers (2 * q))
  | .frameB4 a b => .frame (headerBytes (headerWord c.opcReadLf a b) ++ fillers pageBytes)
  | .frameB5 a b data => .frame (headerBytes (headerWord c.opcProg a b) ++ data.bytes)
  | .frameB6 => .frame []

end Sys2Proof
end

