-- ==== Sys2Proof/Machine/State.lean ====
section
/-! DEFINITION. The state of the machine. Its agents are those of 00_scope.md rule R4: the controller
(`Block`, the record `S` of 10_state.md), the host with its command port, the bus transport, and the flash
device (`RefDev`, the reference device of 20_memory.md rule R75). All of it is plain data. -/

namespace Sys2Proof.Machine

/-! ### The controller: the record `S` (10_state.md rule R20 to rule R38) -/

/-- The power-state register (rule R24). -/
inductive PState
  /-- Reset and not yet initialised. -/
  | uninit
  | active
  /-- Deep power-down. -/
  | dpd
  /-- Ultra-deep power-down. -/
  | udpd
  deriving DecidableEq, Repr

/-- The result codes (60_exceptions.md rule R220). -/
inductive Err
  | ok
  | busTimeout
  | deviceNotReady
  | wrongPowerState
  | addressOutOfRange
  | illegalCommand
  deriving DecidableEq, Repr

/-- The sub-phase of a transfer or a dwell (rule R29). -/
inductive Sub
  | start
  | wait
  deriving DecidableEq, Repr

/-- The registers of the controller. A line is `true` when it is at level 1, that is deasserted: the three
lines are active low (rules R25 to R27). -/
structure Block where
  /-- `op`: the operation code of the command in progress (rule R21). -/
  op : OpCode
  /-- `page`: its page number (rule R22). -/
  page : PageNo
  /-- `payload`: the caller's write buffer (rule R23). -/
  payload : Payload
  /-- `pstate`: the power state (rule R24). -/
  pstate : PState
  /-- `cs_n`: the chip-select line (rule R25). -/
  csN : Bool
  /-- `wp_n`: the write-protect line (rule R26). -/
  wpN : Bool
  /-- `rst_n`: the device's reset line (rule R27). -/
  rstN : Bool
  /-- `pos`: the index of the current primitive, a natural number (rule R28). -/
  pos : Nat
  /-- `sub`: the sub-phase (rule R29). -/
  sub : Sub
  /-- `idx`: the byte index inside a loop, 10 bits (rule R30). -/
  idx : BitVec 10
  /-- `timer`: ticks left in the current dwell, a natural number (rule R31). -/
  timer : Nat
  /-- `bus_cnt`: `WAIT` ticks of the current transfer without `tx_done` (rule R32). -/
  busCnt : Nat
  /-- `poll_cnt`: busy polls of the current operation (rule R32). -/
  pollCnt : Nat
  /-- `st0`: byte 0 of the status word most recently read (rule R33). -/
  st0 : Byte
  /-- `st1`: byte 1 of it (rule R33). -/
  st1 : Byte
  /-- `done`: the completion pulse (rule R34). -/
  done : Bool
  /-- `tx_start`: the pulse that starts a transfer (rule R34). -/
  txStart : Bool
  /-- `rd_valid`: the pulse of the capture stream (rule R34). -/
  rdValid : Bool
  /-- `err`: the result of the last finished or rejected command (rule R35). -/
  err : Err
  /-- `busy`: an operation is in progress (rule R36). -/
  busy : Bool
  /-- `tx_data`: the byte offered to the transport (rule R37). -/
  txData : Byte
  /-- `rd_idx`: the index of the captured byte, 9 bits (rule R38). -/
  rdIdx : BitVec 9
  /-- `rd_data`: the captured byte (rule R38). -/
  rdData : Byte
  deriving DecidableEq, Repr

/-- The reset state of the controller (rule R43). `payload` is unspecified there: DESIGN CHOICE zeros
(log 1). -/
def Block.reset : Block where
  op := 0
  page := 0
  payload := Payload.replicate 0
  pstate := .uninit
  csN := true
  wpN := false
  rstN := true
  pos := 0
  sub := .start
  idx := 0
  timer := 0
  busCnt := 0
  pollCnt := 0
  st0 := 0
  st1 := 0
  done := false
  txStart := false
  rdValid := false
  err := .ok
  busy := false
  txData := 0
  rdIdx := 0
  rdData := 0

/-! ### The input ports and the host (10_state.md rule R40, rule R42) -/

/-- The record `I`: the levels at the input ports that the next tick samples (rule R40). -/
structure Inputs where
  reset      : Bool
  cmdValid   : Bool
  cmdOp      : OpCode
  cmdPage    : PageNo
  cmdPayload : Payload
  txDone     : Bool
  rxData     : Byte
  deriving DecidableEq, Repr

/-- Ports at which nothing is presented. -/
def Inputs.quiet : Inputs where
  reset := false
  cmdValid := false
  cmdOp := 0
  cmdPage := 0
  cmdPayload := Payload.replicate 0
  txDone := false
  rxData := 0

/-- What the host does next at its command port (rule R4(b), rule R42). The `reset` input is not part of a
move: its levels are `State.resets`. -/
inductive HostMove
  /-- Present a command and hold it until a tick looks at it (log 11). -/
  | command (o : OpCode) (n : PageNo) (data : Payload)
  /-- Present a command for one tick, whether that tick looks at it or not. -/
  | offer (o : OpCode) (n : PageNo) (data : Payload)
  /-- Present nothing for one tick. -/
  | quiet
  deriving DecidableEq, Repr

/-! ### The bus transport (10_state.md rule R41) -/

/-- What stands behind the transport port. -/
inductive Link
  /-- An unconstrained oracle: `tx_done` and `rx_data` of every tick come from `State.wire` (rule R41(d),
  20_memory.md section 6). -/
  | unconstrained
  /-- The reference device behind a transport that keeps rule R41. -/
  | refDev
  deriving DecidableEq, Repr

/-- A transfer in flight inside the transport (20_memory.md rule R66(e)). -/
structure Flight where
  /-- The byte being sent. -/
  byte : Byte
  /-- How many further ticks will see no `tx_done`. -/
  waits : Nat
  deriving DecidableEq, Repr

/-! ### The flash device: `RefDev` (20_memory.md rule R75) -/

/-- The device's own power state `dps` (rule R75). -/
inductive DevPower
  | active
  | dpd
  | udpd
  deriving DecidableEq, Repr

/-- The erase, program or configuration cycle the device has begun (rule R75). -/
inductive Pending
  | prog (p : BitVec 13) (data : Payload)
  | eraseAll
  | setPs (b : Bool)
  /-- A cycle whose wait the caller has abandoned, under the second reading of log 27: it still ends, and
  what it was to write stays any value. -/
  | abandoned
  deriving DecidableEq, Repr

/-- A set of pages that is finite or lacks finitely many: `pages`, ascending, lists its members, or when
`inverted` its non-members. -/
structure PageSet where
  inverted : Bool
  pages    : List Nat
  deriving DecidableEq, Repr

/-- The identification record (rule R75, rule R78). -/
structure IdRecord where
  b0 : Byte
  b1 : Byte
  b2 : Byte
  b3 : Byte
  b4 : Byte
  deriving DecidableEq, Repr

/-- The reference device (rule R75). -/
structure RefDev where
  /-- `mem`: the page array; byte `i` of page `p` has the address `512 * p + i`. -/
  mem : List Host.Cell
  /-- `indet`: the pages whose content is indeterminate. -/
  indet : PageSet
  /-- `dps`: the device's power state. -/
  dps : DevPower
  /-- `deaf_until`: before this time, in nanoseconds, the device does not respond. -/
  deafUntil : Nat
  /-- `busy_left`: how many more reads of status byte 0 report busy. -/
  busyLeft : Nat
  /-- `pending`: the cycle that the last of those reads commits. -/
  pending : Option Pending
  /-- `psz`: the page-size configuration bit. -/
  psz : Bool
  /-- Whether `psz` is known; a page-size change that was abandoned leaves it any value, under the second
  reading of log 27. -/
  pszKnown : Bool
  /-- `idrec`: the identification record. -/
  idrec : IdRecord
  /-- `frame`: the bytes received since the last `CS↓`, first byte first. -/
  frame : List Byte
  /-- `t_cs_low`: the time of the last `CS↓`, in nanoseconds. -/
  tCsLow : Nat
  /-- The internal buffer, filled by a program frame and lost in ultra-deep power-down (rule R61(d),
  rule R73); `none` when it holds nothing the model knows. -/
  buffer : Option Payload
  /-- `B`: the busy lengths of the coming destructive frames, a test input. -/
  busyPlan : List Nat
  /-- A test input, for the two readings of log 27: whether a cycle that ends after its wait was abandoned
  commits, as rule R82 and test program D have it; else what it writes is any value
  (93_implementation_defined.md U4). -/
  lateCommit : Bool
  /-- `ERASED_BYTE`, a test input: what an erased cell reads as. -/
  erasedByte : Byte
  /-- The filler bits `u0` of status byte 0, a test input (rule R77). -/
  u0 : Byte
  /-- The filler `u1`, status byte 1, a test input (rule R77). -/
  u1 : Byte
  /-- `now`: the time in nanoseconds (rule R83). -/
  now : Nat
  /-- The time of the last `RST↓`, in nanoseconds (rule R83: the pulse is "held `T_RST_NS`"). -/
  tRstLow : Nat
  /-- A `CS↑` has ended the frame, and its effect is still to come (rule R76). -/
  atEnd : Bool
  /-- Something happened that no rule describes: from then on every answer is any value (log 7). -/
  lost : Bool
  deriving DecidableEq, Repr

/-- The start state of the device (rule R75). What rule R75 leaves to the test is chosen: an array that
reads `ERASED_BYTE` everywhere (log 5), the 512-byte configuration and the identification record of the
spec's example (log 6). -/
def RefDev.start : RefDev where
  mem := []
  indet := ⟨false, []⟩
  dps := .active
  deafUntil := 0
  busyLeft := 0
  pending := none
  psz := true
  pszKnown := true
  idrec := ⟨0x1F, 0x27, 0x01, 0x01, 0x00⟩
  frame := []
  tCsLow := 0
  buffer := none
  busyPlan := []
  lateCommit := true
  erasedByte := 0xFF
  u0 := 0
  u1 := 0
  now := 0
  tRstLow := 0
  atEnd := false
  lost := false

/-! ### The machine -/

/-- The machine: the controller, its ports, and the agents around it. -/
structure State where
  /-- The configuration, which nothing writes (rule R44). -/
  cfg : Cfg
  /-- The controller. -/
  blk : Block
  /-- The input ports as the next tick samples them. -/
  port : Inputs
  /-- What the host will do at its command port, in order. -/
  host : List HostMove
  /-- The host holds the command at the port until a tick has looked at it (log 11). -/
  holds : Bool
  /-- The levels of `reset` at the ticks after the next one; 0 when none is left. No move of the host at its
  command port delays them: the two are independent inputs (rule R40). -/
  resets : List Bool
  /-- The capture stream as the host has collected it, oldest first (rule R38). -/
  captured : List (BitVec 9 × Byte)
  /-- What stands behind the transport port. -/
  link : Link
  /-- Under `Link.unconstrained`: `tx_done` and `rx_data` of the coming ticks. -/
  wire : List (Bool × Byte)
  /-- Under `Link.refDev`: the transfers in flight, oldest first. -/
  inFlight : List Flight
  /-- Under `Link.refDev`: for each coming transfer, its `WAIT` ticks without `tx_done` (rule R124:
  `w - 1`). -/
  latency : List Nat
  /-- The flash device. -/
  dev : RefDev
  /-- The model's own counter of free values already given out (log 4). -/
  freeUsed : Nat
  deriving DecidableEq, Repr

/-- Why the machine stops. -/
inductive Fault
  /-- Raised by `operationTick` when the position `pos` names no primitive of the running operation's
  sequence, or a reserved code is running. Safe: rule R28 says `pos` never passes the last index, and the
  invariant `Block.Inv` says no such state is reached. -/
  | noPrimitive
  deriving DecidableEq, Repr

/-- Why the model has no meaning for an instruction. -/
inductive Refusal
  /-- An instruction whose meaning is not written; raised by `exec`'s arms only. Safe: the machine stops
  where the hardware goes on. -/
  | notModelled (mnemonic : String)
  deriving DecidableEq, Repr

/-- What an instruction or a step answers. -/
abbrev Outcome := Host.Outcome State Fault Refusal

/-- The machine right after reset (rule R43), nothing presented at its ports, no host move waiting, and the
reference device in its start state behind a transport that answers at the first `WAIT` tick (log 8). -/
def State.reset : State where
  cfg := Cfg.default
  blk := Block.reset
  port := Inputs.quiet
  host := []
  holds := false
  resets := []
  captured := []
  link := .refDev
  wire := []
  inFlight := []
  latency := []
  dev := RefDev.start
  freeUsed := 0

end Sys2Proof.Machine
end

