-- ==== Sys2Proof/Machine/Flags.lean ====
section
/-! DEFINITION. The flag-like bits (10_state.md rule R33, rule R39) and the comparisons that decide a
branch: the controller has no condition codes. -/

namespace Sys2Proof.Machine

/-- READY: bit 7 of status byte 0, 1 = ready (rule R33). -/
def readyBit (st0 : Byte) : Bool := st0.getLsbD 7

/-- PAGESIZE: bit 0 of status byte 0 (rule R33). -/
def pagesizeBit (st0 : Byte) : Bool := st0.getLsbD 0

/-- The host's reading of GET_PAGESIZE: 512-byte pages iff `st0[0] = PAGESIZE_BIT_512` (rule R176). -/
def pagesIs512 (c : Cfg) (st0 : Byte) : Bool := pagesizeBit st0 == c.pagesizeBit512

/-- Status byte 0 as the reference device answers it, `(ready << 7) | (u0 & 0x7E) | psz` (rule R77). -/
def statusByte0 (ready : Bool) (u0 : Byte) (psz : Bool) : Byte :=
  (BitVec.ofBool ready).setWidth 8 <<< 7 ||| (u0 &&& 0x7E) ||| (BitVec.ofBool psz).setWidth 8

/-- The wait for `tx_done` is used up: `BUS_TIMEOUT_TICKS ≠ 0` and `bus_cnt + 1 ≥ BUS_TIMEOUT_TICKS`
(rule R124). -/
def busLimitReached (c : Cfg) (busCnt : Nat) : Bool :=
  c.busTimeoutTicks != 0 && decide (busCnt + 1 ≥ c.busTimeoutTicks)

/-- The polls are used up: `POLL_LIMIT ≠ 0` and `poll_cnt + 1 ≥ POLL_LIMIT` (rule R128). -/
def pollLimitReached (c : Cfg) (pollCnt : Nat) : Bool :=
  c.pollLimit != 0 && decide (pollCnt + 1 ≥ c.pollLimit)

/-- The range check of the page number, on the full 16-bit value (rule R120, rule R224). -/
def pageOutOfRange (c : Cfg) (n : PageNo) : Bool :=
  c.rangeCheck && decide (n.toNat ≥ nPages)

end Sys2Proof.Machine
end

