-- ==== Sys2Proof/Machine/Operands.lean ====
section
/-! DEFINITION. The operands of the controller: the packed page address, the payload byte, the dwell times
and the codes that the host reads. -/

namespace Sys2Proof.Machine

/-! ### The page-address packer (30_encoding.md rule R100) -/

/-- `a0 = (n >> 7) & 0x3F`. -/
def address0 (n : PageNo) : Byte := BitVec.ofNat 8 ((n.toNat >>> 7) &&& 0x3F)

/-- `a1 = (n << 1) & 0xFE`. -/
def address1 (n : PageNo) : Byte := BitVec.ofNat 8 ((n.toNat <<< 1) &&& 0xFE)

/-- `a2 = n & 0xFF`. -/
def address2 (n : PageNo) : Byte := BitVec.ofNat 8 (n.toNat &&& 0xFF)

/-- The address bytes by number, 0, 1 and 2 in the order they are sent (rule R100). -/
inductive AddressByte
  | a0
  | a1
  | a2
  deriving DecidableEq, Repr

/-- `PackAddr(n)[k]` (rule R100). -/
def packAddr (n : PageNo) : AddressByte → Byte
  | .a0 => address0 n
  | .a1 => address1 n
  | .a2 => address2 n

/-- The page a device decodes, `((a0 & 0x3F) << 7) | (a1 >> 1)` (rule R79, rule R102). -/
def unpackAddr (a0 a1 : Byte) : Nat := ((a0.toNat &&& 0x3F) <<< 7) ||| (a1.toNat >>> 1)

/-! ### The payload (10_state.md rule R23) -/

/-- `payload[i]`. An index past 511 is not reached (log 10). -/
def payloadByte (p : Payload) (i : BitVec 10) : Byte := p.bytes.getD i.toNat 0

/-! ### Dwell times (00_scope.md rule R11, rule R14) -/

/-- The five minimum times. -/
inductive Dwell
  /-- `T_RST_NS`. -/
  | rst
  /-- `T_REC_NS`. -/
  | settle
  /-- `T_RDPD_NS`. -/
  | rdpd
  /-- `T_CSLU_NS`. -/
  | cslu
  /-- `T_XUDPD_NS`. -/
  | xudpd
  deriving DecidableEq, Repr

/-- The time of a dwell, in nanoseconds (rule R11). -/
def Dwell.time (c : Cfg) : Dwell → Nat
  | .rst => c.tRstNs
  | .settle => c.tRecNs
  | .rdpd => c.tRdpdNs
  | .cslu => c.tCsluNs
  | .xudpd => c.tXudpdNs

/-- `N(T) = max(1, (T + T_CLK_NS - 1) div T_CLK_NS)` (rule R14). -/
def ticksFor (c : Cfg) (t : Nat) : Nat := max 1 ((t + c.tClkNs - 1) / c.tClkNs)

/-- `N` of a dwell (rule R14). -/
def Dwell.ticks (c : Cfg) (t : Dwell) : Nat := ticksFor c (t.time c)

/-! ### The codes the host reads -/

/-- The 2-bit code of `pstate` (rule R24). -/
def PState.code : PState → BitVec 2
  | .uninit => 0
  | .active => 1
  | .dpd => 2
  | .udpd => 3

/-- The 3-bit code of `err` (rule R220). -/
def Err.code : Err → BitVec 3
  | .ok => 0
  | .busTimeout => 1
  | .deviceNotReady => 2
  | .wrongPowerState => 3
  | .addressOutOfRange => 4
  | .illegalCommand => 5

end Sys2Proof.Machine
end

