-- ==== Sys2Proof/Machine/Ops.lean ====
section
/-! DEFINITION. The shared operations on the controller's registers: the fall of the pulses, command
acceptance, the two ways an error ends (the controller has no trap: 60_exceptions.md), the normal end and
the transfer engine. -/

namespace Sys2Proof.Machine

/-- Every tick begins by clearing the three pulses (rule R34, rule R121). -/
def Block.pulsesFall (b : Block) : Block :=
  { b with done := false, txStart := false, rdValid := false }

/-! ### Exceptions (60_exceptions.md rules R231 to R233)

The exceptions of this hardware are error results. `reject` is taken at acceptance and `abort` while an
operation runs. Nothing is saved and nothing returns: after either the controller is idle (rule R233). -/

/-- `reject(e)`: `err <- e; done <- 1` and nothing else (rule R231). -/
def Block.reject (e : Err) (b : Block) : Block :=
  { b with err := e, done := true }

/-- `abort(e)`: the lines go idle, the operation ends with `e`, and `pstate`, `st0`, `st1`, the counters and
the operand latches keep their values (rule R232). -/
def Block.abort (e : Err) (b : Block) : Block :=
  { b with
    csN := true, wpN := false, rstN := true, txStart := false
    err := e, done := true, busy := false
    pos := 0, sub := .start, idx := 0 }

/-! ### Acceptance and the end of an operation -/

/-- The registers an accepted command writes (rule R120, last branch). -/
def Block.accept (o : OpCode) (n : PageNo) (data : Payload) (b : Block) : Block :=
  { b with
    busy := true, op := o, page := n, payload := data
    pos := 0, sub := .start, idx := 0, pollCnt := 0, busCnt := 0 }

/-- Command acceptance of a legal code `o` whose required state is `need`; `paged` says that the operation
takes a page number. The tests are made in the order of rule R120 and rule R226(b). -/
def Block.present (c : Cfg) (o : OpCode) (need : PState) (paged : Bool) (n : PageNo) (data : Payload)
    (b : Block) : Block :=
  if b.pstate ≠ need then b.reject .wrongPowerState
  else if paged && pageOutOfRange c n then b.reject .addressOutOfRange
  else b.accept o n data

/-- `FINISH` and `FINISH(s)` (rule R129). It writes `err <- 0` for the five power operations too, as rules R35
and R129 and the operations' own rules have it; 41_power.md rule R165 says that a power operation does not
clear `err`, and no entry of 90_conflicts.md names the point (DEDUCED, log 28). -/
def Block.finish (p : Option PState) (b : Block) : Block :=
  { b with pstate := p.getD b.pstate, err := .ok, done := true, busy := false, pos := 0 }

/-- `pos <- S.pos + 1` (rule R28). -/
def Block.advance (b : Block) : Block := { b with pos := b.pos + 1 }

/-! ### The transfer engine (40_framing_and_transport.md rule R124) -/

/-- The `START` tick of a transfer of the byte `x`. -/
def Block.startTransfer (x : Byte) (b : Block) : Block :=
  { b with txStart := true, txData := x, busCnt := 0, sub := .wait }

/-- A `WAIT` tick without `tx_done`: the timeout, or one more waiting tick counted. -/
def Block.waitTransfer (c : Cfg) (b : Block) : Block :=
  if busLimitReached c b.busCnt then b.abort .busTimeout
  else { b with busCnt := b.busCnt + 1 }

/-- `xfer(x, K)`: one tick of the engine; `k` is `K`, what the primitive does with the received byte. A
`tx_done` at the `START` tick is ignored, and at a `WAIT` tick it is tested before the timeout. -/
def Block.xfer (c : Cfg) (inp : Inputs) (x : Byte) (k : Byte → Block → Block) (b : Block) : Block :=
  match b.sub with
  | .start => b.startTransfer x
  | .wait => if inp.txDone then k inp.rxData { b with sub := .start } else b.waitTransfer c

end Sys2Proof.Machine
end

