-- ==== Sys2Proof/Machine/Primitives.lean ====
section
/-! DEFINITION. The sequencer primitives (40_framing_and_transport.md rule R122 to rule R129), one
definition each, and the tick of an operation. Each is written over the registers after the fall of the
pulses, as rule R121 says; no primitive reads a pulse. -/

namespace Sys2Proof.Machine

/-- One element of an operation's sequence (rule R122 to rule R129). -/
inductive Prim
  | csAssert
  | csRelease
  | wpRelease
  | wpAssert
  | rstAssert
  | rstRelease
  | dwell (t : Dwell)
  | xferConst (x : Byte)
  | xferAddr (k : AddressByte)
  | xferPayload
  | xferCapture (m : Nat)
  | xferStatus
  | poll
  | finish (p : Option PState)
  deriving DecidableEq, Repr

/-! ### The line primitives (rule R122) -/

/-- `CS_ASSERT`: `cs_n <- 0`. -/
def Block.csAssert (b : Block) : Block := { b with csN := false, pos := b.pos + 1 }
/-- `CS_RELEASE`: `cs_n <- 1`. -/
def Block.csRelease (b : Block) : Block := { b with csN := true, pos := b.pos + 1 }
/-- `WP_RELEASE`: `wp_n <- 1`. -/
def Block.wpRelease (b : Block) : Block := { b with wpN := true, pos := b.pos + 1 }
/-- `WP_ASSERT`: `wp_n <- 0`. -/
def Block.wpAssert (b : Block) : Block := { b with wpN := false, pos := b.pos + 1 }
/-- `RST_ASSERT`: `rst_n <- 0`. -/
def Block.rstAssert (b : Block) : Block := { b with rstN := false, pos := b.pos + 1 }
/-- `RST_RELEASE`: `rst_n <- 1`. -/
def Block.rstRelease (b : Block) : Block := { b with rstN := true, pos := b.pos + 1 }

/-! ### The dwell (rule R123) -/

/-- The ticks left in the dwell, this one included. -/
def Block.dwellLeft (c : Cfg) (t : Dwell) (b : Block) : Nat :=
  match b.sub with
  | .start => t.ticks c
  | .wait => b.timer

/-- `DWELL(T)`. -/
def Block.dwell (c : Cfg) (t : Dwell) (b : Block) : Block :=
  if b.dwellLeft c t = 1 then { b with timer := 0, sub := .start, pos := b.pos + 1 }
  else { b with timer := b.dwellLeft c t - 1, sub := .wait }

/-! ### What the transfer primitives do with the received byte (rule R125 to rule R128) -/

/-- `K(r)` of `XFER_CONST` and `XFER_ADDR`: the byte is discarded (rule R125). -/
def Block.afterDiscard (_ : Byte) (b : Block) : Block := b.advance

/-- `K(r)` of `XFER_PAYLOAD` (rule R126). -/
def Block.afterPayload (_ : Byte) (b : Block) : Block :=
  if b.idx = 511 then { b with idx := 0, pos := b.pos + 1 }
  else { b with idx := b.idx + 1 }

/-- `K(r)` of `XFER_CAPTURE(m)` (rule R126). -/
def Block.afterCapture (m : Nat) (r : Byte) (b : Block) : Block :=
  let b' := { b with rdValid := true, rdIdx := b.idx.setWidth 9, rdData := r }
  if b.idx.toNat + 1 = m then { b' with idx := 0, pos := b.pos + 1 }
  else { b' with idx := b.idx + 1 }

/-- `K(r)` of `XFER_STATUS` (rule R127). -/
def Block.afterStatus (r : Byte) (b : Block) : Block :=
  if b.idx = 0 then { b with st0 := r, idx := 1 }
  else { b with st1 := r, idx := 0, pos := b.pos + 1 }

/-- `K(r)` of `POLL` (rule R128). The READY bit tested is that of the first byte of the same pair. -/
def Block.afterPoll (c : Cfg) (r : Byte) (b : Block) : Block :=
  if b.idx = 0 then { b with st0 := r, idx := 1 }
  else
    let b' := { b with st1 := r, idx := 0 }
    if readyBit b.st0 then { b' with pos := b.pos + 1 }
    else if pollLimitReached c b.pollCnt then b'.abort .deviceNotReady
    else { b' with pollCnt := b.pollCnt + 1 }

/-! ### One tick of a primitive -/

/-- What the primitive `p` does at a tick. -/
def Block.run (c : Cfg) (inp : Inputs) (p : Prim) (b : Block) : Block :=
  match p with
  | .csAssert => b.csAssert
  | .csRelease => b.csRelease
  | .wpRelease => b.wpRelease
  | .wpAssert => b.wpAssert
  | .rstAssert => b.rstAssert
  | .rstRelease => b.rstRelease
  | .dwell t => b.dwell c t
  | .xferConst x => b.xfer c inp x Block.afterDiscard
  | .xferAddr k => b.xfer c inp (packAddr b.page k) Block.afterDiscard
  | .xferPayload => b.xfer c inp (payloadByte b.payload b.idx) Block.afterPayload
  | .xferCapture m => b.xfer c inp filler (Block.afterCapture m)
  | .xferStatus => b.xfer c inp filler Block.afterStatus
  | .poll => b.xfer c inp filler (Block.afterPoll c)
  | .finish q => b.finish q

/-- The state with the controller's registers replaced. -/
def State.setBlk (s : State) (b : Block) : State := { s with blk := b }

/-- One tick of an operation (rule R121). While the controller is idle, the tick that presents the command
`(o, n)` with the payload that stands at the port; while it is busy, the tick of the primitive at `pos` of
the operation's sequence. -/
def operationTick (o : OpCode) (need : PState) (paged : Bool) (seq : List Prim) (n : PageNo)
    (s : State) : Outcome :=
  if s.blk.busy then
    match seq[s.blk.pos]? with
    | some p => .next (s.setBlk (s.blk.pulsesFall.run s.cfg s.port p))
    | none => .fault .noPrimitive
  else .next (s.setBlk (s.blk.pulsesFall.present s.cfg o need paged n s.port.cmdPayload))

/-- The tick that presents a reserved code: `reject(IllegalCommand)` in any power state (rule R93,
rule R222). No operation has such a code, so none can be running. -/
def reservedTick (s : State) : Outcome :=
  if s.blk.busy then .fault .noPrimitive
  else .next (s.setBlk (s.blk.pulsesFall.reject .illegalCommand))

end Sys2Proof.Machine
end

