-- ==== Sys2Proof/Machine/Sequences.lean ====
section
/-! DEFINITION. `Seq(op)`: every operation as a list of primitives (40_framing_and_transport.md rule R130),
and the guard table `Required(op)` (60_exceptions.md rule R223), one definition per operation. -/

namespace Sys2Proof.Machine

/-- `addr` of rule R130. -/
def addressTransfers : List Prim := [.xferAddr .a0, .xferAddr .a1, .xferAddr .a2]

/-- `magic(q)` of rule R130: the four bytes in index order. -/
def magicTransfers (q : Magic) : List Prim :=
  [.xferConst q.b0, .xferConst q.b1, .xferConst q.b2, .xferConst q.b3]

/-- `wr` of rule R130: the wait-ready. -/
def waitReadyFrame (c : Cfg) : List Prim := [.csAssert, .xferConst c.opcStatus, .poll, .csRelease]

/-- `Seq(INIT)`. -/
def seqInit : List Prim :=
  [.rstAssert, .dwell .rst, .rstRelease, .dwell .settle, .finish (some .active)]

/-- `Seq(WAIT_READY)`. -/
def seqWaitReady (c : Cfg) : List Prim := waitReadyFrame c ++ [.finish none]

/-- `Seq(GET_STATUS)`. -/
def seqGetStatus (c : Cfg) : List Prim :=
  [.csAssert, .xferConst c.opcStatus, .xferStatus, .csRelease, .finish none]

/-- `Seq(GET_PAGESIZE)`: the same primitives as GET_STATUS. -/
def seqGetPagesize (c : Cfg) : List Prim :=
  [.csAssert, .xferConst c.opcStatus, .xferStatus, .csRelease, .finish none]

/-- `Seq(GET_ID)`. -/
def seqGetId (c : Cfg) : List Prim :=
  [.csAssert, .xferConst c.opcId, .xferCapture idBytes, .csRelease, .finish none]

/-- `Seq(SET_PAGESIZE_512)`. -/
def seqSetPagesize512 (c : Cfg) : List Prim :=
  [.csAssert] ++ magicTransfers c.seqPagesize512 ++ [.csRelease] ++ waitReadyFrame c ++ [.finish none]

/-- `Seq(SET_PAGESIZE_528)`. -/
def seqSetPagesize528 (c : Cfg) : List Prim :=
  [.csAssert] ++ magicTransfers c.seqPagesize528 ++ [.csRelease] ++ waitReadyFrame c ++ [.finish none]

/-- `Seq(READ_PAGE)`. -/
def seqReadPage (c : Cfg) : List Prim :=
  [.csAssert, .xferConst c.opcReadLf] ++ addressTransfers ++
    [.xferCapture pageBytes, .csRelease, .finish none]

/-- `Seq(WRITE_PAGE)`. -/
def seqWritePage (c : Cfg) : List Prim :=
  [.wpRelease, .csAssert, .xferConst c.opcProg] ++ addressTransfers ++ [.xferPayload, .csRelease] ++
    waitReadyFrame c ++ [.wpAssert, .finish none]

/-- `Seq(ERASE_CHIP)`. -/
def seqEraseChip (c : Cfg) : List Prim :=
  [.wpRelease, .csAssert] ++ magicTransfers c.seqChipErase ++ [.csRelease] ++
    waitReadyFrame c ++ [.wpAssert, .finish none]

/-- `Seq(ENTER_DPD)`. -/
def seqEnterDpd (c : Cfg) : List Prim :=
  [.csAssert, .xferConst c.opcDpd, .csRelease, .finish (some .dpd)]

/-- `Seq(RESUME_DPD)`. -/
def seqResumeDpd (c : Cfg) : List Prim :=
  [.csAssert, .xferConst c.opcResumeDpd, .csRelease, .dwell .rdpd, .finish (some .active)]

/-- `Seq(ENTER_UDPD)`. -/
def seqEnterUdpd (c : Cfg) : List Prim :=
  [.csAssert, .xferConst c.opcUdpd, .csRelease, .finish (some .udpd)]

/-- `Seq(RESUME_UDPD)`. -/
def seqResumeUdpd : List Prim :=
  [.csAssert, .dwell .cslu, .csRelease, .dwell .xudpd, .finish (some .active)]

/-- The sequence of a command; a reserved code and a bus frame have none. -/
def sequenceOf (c : Cfg) : Instr → List Prim
  | .init _ => seqInit
  | .waitReady _ => seqWaitReady c
  | .getStatus _ => seqGetStatus c
  | .getId _ => seqGetId c
  | .setPagesize512 _ => seqSetPagesize512 c
  | .setPagesize528 _ => seqSetPagesize528 c
  | .readPage _ => seqReadPage c
  | .writePage _ => seqWritePage c
  | .eraseChip _ => seqEraseChip c
  | .enterDpd _ => seqEnterDpd c
  | .resumeDpd _ => seqResumeDpd c
  | .enterUdpd _ => seqEnterUdpd c
  | .resumeUdpd _ => seqResumeUdpd
  | .getPagesize _ => seqGetPagesize c
  | .reserved14 _ => []
  | .reserved15 _ => []
  | .frameB0 _ => []
  | .frameB1 _ => []
  | .frameB2 _ => []
  | .frameB3 _ => []
  | .frameB4 _ _ => []
  | .frameB5 _ _ _ => []
  | .frameB6 => []

/-- `Required(op)` (rule R223): the one power state in which the command is accepted; none for a reserved
code, and none for a frame, which is no command. -/
def requiredState : Instr → Option PState
  | .init _ => some .uninit
  | .waitReady _ => some .active
  | .getStatus _ => some .active
  | .getId _ => some .active
  | .setPagesize512 _ => some .active
  | .setPagesize528 _ => some .active
  | .readPage _ => some .active
  | .writePage _ => some .active
  | .eraseChip _ => some .active
  | .enterDpd _ => some .active
  | .resumeDpd _ => some .dpd
  | .enterUdpd _ => some .active
  | .resumeUdpd _ => some .udpd
  | .getPagesize _ => some .active
  | .reserved14 _ => none
  | .reserved15 _ => none
  | .frameB0 _ => none
  | .frameB1 _ => none
  | .frameB2 _ => none
  | .frameB3 _ => none
  | .frameB4 _ _ => none
  | .frameB5 _ _ _ => none
  | .frameB6 => none

end Sys2Proof.Machine
end

