-- ==== Sys2Proof/Machine/Bulk.lean ====
section
/-! DEFINITION. Bulk erase, identification and page-size configuration (44_bulk_id_config.md): ERASE_CHIP,
GET_ID, SET_PAGESIZE_512, SET_PAGESIZE_528; and the two reserved codes (30_encoding.md rule R93). -/

namespace Sys2Proof.Machine

/-- GET_ID (rule R204): presents 5 bytes on the capture stream. -/
def execGetId (n : PageNo) (s : State) : Outcome :=
  operationTick 3 .active false (seqGetId s.cfg) n s

/-- SET_PAGESIZE_512 (rule R207). -/
def execSetPagesize512 (n : PageNo) (s : State) : Outcome :=
  operationTick 4 .active false (seqSetPagesize512 s.cfg) n s

/-- SET_PAGESIZE_528 (rule R208). -/
def execSetPagesize528 (n : PageNo) (s : State) : Outcome :=
  operationTick 5 .active false (seqSetPagesize528 s.cfg) n s

/-- ERASE_CHIP (rule R200). -/
def execEraseChip (n : PageNo) (s : State) : Outcome :=
  operationTick 8 .active false (seqEraseChip s.cfg) n s

/-- Operation code 14 (rule R93, rule R222): rejected with `IllegalCommand`, whatever the page field. -/
def execReserved14 (_ : PageNo) (s : State) : Outcome := reservedTick s

/-- Operation code 15 (rule R93, rule R222): rejected with `IllegalCommand`, whatever the page field. -/
def execReserved15 (_ : PageNo) (s : State) : Outcome := reservedTick s

end Sys2Proof.Machine
end

