-- ==== Sys2Proof/Machine/Memory.lean ====
section
/-! DEFINITION. The flash page array (20_memory.md rule R60): 8192 pages of 512 bytes, held as a list of
cells in one canonical form. Byte `i` of page `p` has the address `512 * p + i`. -/

namespace Sys2Proof.Machine

/-- The number of bytes of the array, 4 MiB (rule R60). -/
def arrayBytes : Nat := nPages * pageBytes

/-- The address of byte `i` of page `p` (rule R60). -/
def cellAddress (p : BitVec 13) (i : Nat) : Nat := pageBytes * p.toNat + i

namespace Memory

/-- One byte of the array. An address that is not listed reads as `d`, the value of an erased cell
(rule R75; log 5). -/
def get (d : Byte) : List Host.Cell → Nat → Byte
  | [], _ => d
  | (a', b') :: m, a => if a = a' then b' else get d m a

/-- Put one byte, keeping the canonical form: the byte `d` is not listed. -/
def put (d : Byte) (a : Nat) (b : Byte) : List Host.Cell → List Host.Cell
  | [] => if b = d then [] else [(a, b)]
  | (a', b') :: m =>
    if a < a' then (if b = d then (a', b') :: m else (a, b) :: (a', b') :: m)
    else if a = a' then (if b = d then m else (a, b) :: m)
    else (a', b') :: put d a b m

/-- Put the bytes of a list at consecutive addresses from `a` on. -/
def putList (d : Byte) (a : Nat) : List Byte → List Host.Cell → List Host.Cell
  | [], m => m
  | b :: bs, m => putList d (a + 1) bs (put d a b m)

/-- `MemWrite(p, 512, v)`: replaces the whole page (rule R60). -/
def writePage (d : Byte) (p : BitVec 13) (v : Payload) (m : List Host.Cell) : List Host.Cell :=
  putList d (cellAddress p 0) v.bytes m

/-- `MemRead(p, 512)`: the bytes of the page in order 0 to 511 (rule R60). -/
def readPage (d : Byte) (p : BitVec 13) (m : List Host.Cell) : List Byte :=
  (List.range pageBytes).map fun i => get d m (cellAddress p i)

/-- Every address is at least `lo`, and the addresses rise strictly. -/
def rising (lo : Nat) : List Host.Cell → Bool
  | [] => true
  | (a, _) :: m => decide (lo ≤ a) && rising (a + 1) m

/-- The canonical form: strictly rising addresses inside the array, no cell listed that holds `d`. -/
def wf (d : Byte) (m : List Host.Cell) : Bool :=
  rising 0 m && m.all fun cell => decide (cell.1 < arrayBytes) && cell.2 != d

end Memory

/-! ### Sets of pages (rule R75, `indet`) -/

namespace PageSet

/-- No page. -/
def none : PageSet := ⟨false, []⟩

/-- All pages. -/
def all : PageSet := ⟨true, []⟩

/-- Put a page number into an ascending list. -/
def listed (p : Nat) : List Nat → List Nat
  | [] => [p]
  | q :: l => if p < q then p :: q :: l else if p = q then q :: l else q :: listed p l

/-- Take a page number out of a list. -/
def unlisted (p : Nat) (l : List Nat) : List Nat := l.filter (· != p)

/-- Whether page `p` is in the set. -/
def mem (u : PageSet) (p : BitVec 13) : Bool := u.pages.contains p.toNat != u.inverted

/-- `u ∪ {p}`. -/
def insert (u : PageSet) (p : BitVec 13) : PageSet :=
  ⟨u.inverted, if u.inverted then unlisted p.toNat u.pages else listed p.toNat u.pages⟩

/-- `u \ {p}`. -/
def remove (u : PageSet) (p : BitVec 13) : PageSet :=
  ⟨u.inverted, if u.inverted then listed p.toNat u.pages else unlisted p.toNat u.pages⟩

end PageSet

end Sys2Proof.Machine
end

