-- ==== Sys2Proof/Machine/Device.lean ====
section
/-! DEFINITION. The operations of the reference device `RefDev` (20_memory.md rule R75 to rule R83): what
it answers to a transfer, what it begins and commits, how it falls asleep and wakes. The effect of a whole
frame is the meaning of the frame's instruction, in Machine/Frames.lean. -/

namespace Sys2Proof.Machine

/-- The cycle is none that changes the page size. -/
def Pending.keepsPageSize : Pending → Bool
  | .setPs _ => false
  | .prog _ _ | .eraseAll | .abandoned => true

namespace RefDev

/-- The device has been driven outside what its rules describe: nothing is known of it any more
(93_implementation_defined.md U13, U16; log 7). -/
def lose (d : RefDev) : RefDev := { d with lost := true }

/-- The device responds: it is active and its recovery time has passed (rule R76). -/
def awake (d : RefDev) : Bool := d.dps == .active && decide (d.deafUntil ≤ d.now)

/-- No erase, program or configuration cycle is under way (rule R80). -/
def ready (d : RefDev) : Bool := d.busyLeft == 0 && d.pending == none

/-! ### Commits (rule R82) -/

/-- Commit `Prog(p, data)`. In the 528-byte configuration the page stays indeterminate (rule R81), and so it
does while the configuration is not known. -/
def commitProg (c : Cfg) (p : BitVec 13) (data : Payload) (d : RefDev) : RefDev :=
  { d with
    mem := Memory.writePage d.erasedByte p data d.mem
    indet := if d.pszKnown && d.psz == c.pagesizeBit512 then d.indet.remove p else d.indet
    pending := none }

/-- Commit `EraseAll`: every cell reads `ERASED_BYTE`. -/
def commitErase (d : RefDev) : RefDev := { d with mem := [], indet := PageSet.none, pending := none }

/-- Commit `SetPs(b)`. -/
def commitSetPs (b : Bool) (d : RefDev) : RefDev := { d with psz := b, pszKnown := true, pending := none }

/-- Commit whatever is pending. An abandoned cycle only ends: the pages it was to write stay indeterminate,
the page size it was to set stays unknown (93_implementation_defined.md U4, U10; log 27). -/
def commit (c : Cfg) (d : RefDev) : RefDev :=
  match d.pending with
  | none => d
  | some (.prog p data) => d.commitProg c p data
  | some .eraseAll => d.commitErase
  | some (.setPs b) => d.commitSetPs b
  | some .abandoned => { d with pending := none }

/-- A status read or poll has ended with a cycle still under way: the wait is abandoned. Under the first
reading of log 27 (`lateCommit`) the cycle runs on and commits as rule R82 says. -/
def abandon (d : RefDev) : RefDev :=
  if d.lateCommit then d
  else match d.pending with
    | none => d
    | some q => { d with pending := some .abandoned, pszKnown := d.pszKnown && q.keepsPageSize }

/-- Begin a cycle (rule R80, rule R81): the next busy length of `B` is taken, and a length of 0 commits at
once (rule R82). An exhausted `B` gives 0 (log 8). -/
def begin (c : Cfg) (q : Pending) (d : RefDev) : RefDev :=
  let d' := { d with pending := some q, busyLeft := d.busyPlan.headD 0, busyPlan := d.busyPlan.tail }
  if d'.busyLeft = 0 then d'.commit c else d'

/-! ### Answers to a transfer (rule R77 to rule R79) -/

/-- The page-size bit as status byte 0 shows it: `psz`, or any value while it is not known
(93_implementation_defined.md U4, log 27). -/
def pszBit (free : Byte) (d : RefDev) : Bool := if d.pszKnown then d.psz else free.getLsbD 0

/-- Status byte 0 (rule R77): busy is counted down one poll at a time, and the poll that finds 0 commits. While
a page-size change is pending whose wait was abandoned, bit 0 is the old `psz` under the first reading of
log 27 and any value under the second (DESIGN CHOICE). -/
def answerStatus0 (c : Cfg) (free : Byte) (d : RefDev) : Byte × RefDev :=
  if d.busyLeft > 0 then
    (statusByte0 false d.u0 (d.pszBit free), { d with busyLeft := d.busyLeft - 1 })
  else
    let d' := d.commit c
    (statusByte0 true d'.u0 (d'.pszBit free), d')

/-- Byte `k` of the identification record (rule R78). -/
def idByte (r : IdRecord) (k : Nat) : Byte := [r.b0, r.b1, r.b2, r.b3, r.b4].getD k 0

/-- Whether a read of page `p` is answered from the array (rule R79, rule R81). -/
def readable (c : Cfg) (p : BitVec 13) (d : RefDev) : Bool :=
  !d.indet.mem p && d.ready && d.pszKnown && d.psz == c.pagesizeBit512

/-- The answer to a filler of a read frame, `k` bytes after `CS↓` (rule R79). -/
def answerRead (c : Cfg) (k : Nat) (free : Byte) (d : RefDev) : Byte :=
  let p := BitVec.ofNat 13 (unpackAddr (d.frame.getD 1 0) (d.frame.getD 2 0))
  if 4 ≤ k ∧ k < 4 + pageBytes ∧ d.readable c p then
    Memory.get d.erasedByte d.mem (cellAddress p (k - 4))
  else free

/-- The answer of a device that responds, to the transfer that follows the `k` bytes received so far;
`free` is any value. An identification read is answered from the record whether or not the device is busy
(rule R78). -/
def answerAwake (c : Cfg) (free : Byte) (d : RefDev) : Byte × RefDev :=
  match d.frame with
  | [] => (free, d)
  | c0 :: _ =>
    let k := d.frame.length
    if c0 = c.opcStatus then
      if k % 2 = 1 then d.answerStatus0 c free else (d.u1, d)
    else if c0 = c.opcId then
      (if k ≤ idBytes then idByte d.idrec (k - 1) else free, d)
    else if c0 = c.opcReadLf then (d.answerRead c k free, d)
    else (free, d)

/-- One transfer: the device answers, then appends the byte to its frame (rule R76). A transfer with
chip-select high is ignored, and a device that does not respond answers any value. -/
def exchange (c : Cfg) (csN : Bool) (x free : Byte) (d : RefDev) : Byte × RefDev :=
  if csN then (free, d)
  else
    let (r, d') := if d.lost || !d.awake then (free, d) else d.answerAwake c free
    (r, { d' with frame := d'.frame ++ [x] })

/-! ### The end of a frame (rule R76, rule R83) -/

/-- Awake after a recovery time of `t` nanoseconds (rule R83). -/
def wake (t : Nat) (d : RefDev) : RefDev := { d with dps := .active, deafUntil := d.now + t }

/-- The ultra-deep wake-up pulse: chip-select was low since `t_cs_low`; a pulse shorter than `T_CSLU_NS`
is not specified (rule R83). -/
def wakePulse (c : Cfg) (d : RefDev) : RefDev :=
  if d.tCsLow + c.tCsluNs ≤ d.now then d.wake c.tXudpdNs else d.lose

/-- The end of a frame. `resume` says that the frame is the resume frame, `effect` is what the frame does
to a device that responds. A sleeping device is moved by its wake-up frame alone, in ultra-deep power-down
by any frame at all; a device that does not respond yet ignores the frame. -/
def endFrame (c : Cfg) (resume : Bool) (effect : RefDev → RefDev) (d : RefDev) : RefDev :=
  let d' := { d with atEnd := false }
  if d'.lost then d'
  else match d'.dps with
    | .udpd => d'.wakePulse c
    | .dpd => if resume then d'.wake c.tRdpdNs else d'
    | .active => if d'.deafUntil ≤ d'.now then effect d' else d'

/-- The effect of a frame other than a status read on a device that responds: while a cycle is under way no
rule gives it one (70_reset_and_hazards.md rule R285, 93_implementation_defined.md U16). -/
def unlessBusy (effect : RefDev → RefDev) (d : RefDev) : RefDev := if d.ready then effect d else d.lose

/-- The effect of a destructive or configuring frame on a device that responds; `gated` frames have no effect
while write-protect is asserted. `wpN` is the level after the tick that ended the frame: where a block reset
ends it and drops the line at one tick, the line counts as asserted (DESIGN CHOICE, log 26). -/
def beginUnless (c : Cfg) (gated wpN : Bool) (q : Pending) (mark : RefDev → RefDev) : RefDev → RefDev :=
  unlessBusy fun d => if gated && !wpN then d else (mark d).begin c q

/-! ### The lines (rule R76, rule R83) -/

/-- `CS↓`: the frame is empty, the time is noted (rule R76). -/
def csFall (d : RefDev) : RefDev := { d with frame := [], tCsLow := d.now }

/-- `CS↑`: the frame has ended. A transfer still in flight may or may not have reached the device
(rule R232), so nothing is known afterwards. -/
def csRise (inFlight : Bool) (d : RefDev) : RefDev :=
  { d with atEnd := true, lost := d.lost || inFlight }

/-- `RST↓`: the time is noted. -/
def rstFall (d : RefDev) : RefDev := { d with tRstLow := d.now }

/-- The reset pulse that now ends, begun at `t_rst_low`, met a device that was active and ready and did not
still recover, and lasted `T_RST_NS`. -/
def resetDescribed (c : Cfg) (d : RefDev) : Bool :=
  d.dps == .active && d.ready && decide (d.deafUntil ≤ d.tRstLow) && decide (d.tRstLow + c.tRstNs ≤ d.now)

/-- `RST↑`: such a pulse leaves the device active and deaf for `T_REC_NS` (rule R83). What it does to a busy
or sleeping device, or to one whose recovery a block reset cut short, is not described, and the device must
not be taken to be awake (70_reset_and_hazards.md rule R262); nor is a shorter pulse. -/
def rstRise (c : Cfg) (d : RefDev) : RefDev :=
  if d.lost then d else if d.resetDescribed c then d.wake c.tRecNs else d.lose

end RefDev

/-- The state with the device replaced. -/
def State.setDev (s : State) (d : RefDev) : State := { s with dev := d }

/-- It is the device's move: a frame has ended at the device and waits for its effect (rule R4(d),
rule R76). -/
def State.deviceTurn (s : State) : Bool := s.link == .refDev && s.dev.atEnd

end Sys2Proof.Machine
end

