-- ==== Sys2Proof/Machine/Frames.lean ====
section
/-! DEFINITION. The bus frames as instructions of the flash device (30_encoding.md rule R94; 20_memory.md
rule R76 to rule R83): each meaning is the device's move at the `CS↑` that ends the frame. What the device
answers while a frame is being sent is `RefDev.answerAwake`. A frame never touches the controller. -/

namespace Sys2Proof.Machine

/-- The device's move at the end of a frame (rule R76). -/
def State.endFrame (resume : Bool) (effect : RefDev → RefDev) (s : State) : State :=
  s.setDev (s.dev.endFrame s.cfg resume effect)

/-- `B0` (rule R83): the two opcodes that put an active device to sleep, ultra-deep power-down losing the
internal buffer, and the resume opcode, which wakes a device in deep power-down. A resume frame to a device
that is awake is not described (93_implementation_defined.md U13), nor a sleep frame to a busy one (U16). -/
def sleepEffect : SleepOpcode → RefDev → RefDev
  | .dpd => RefDev.unlessBusy fun d => { d with dps := .dpd }
  | .udpd => RefDev.unlessBusy fun d => { d with dps := .udpd, buffer := none }
  | .resumeDpd => RefDev.lose

/-- Frame `B0`. -/
def execFrameB0 (k : SleepOpcode) (s : State) : Outcome :=
  .next (s.endFrame (k == .resumeDpd) (sleepEffect k))

/-- `B1` (rule R81): chip erase is gated by write-protect, the page-size sequences are not. -/
def magicEffect (c : Cfg) (wpN : Bool) (q : MagicName) (d : RefDev) : RefDev :=
  match q with
  | .chipErase => d.beginUnless c true wpN .eraseAll fun d => { d with indet := PageSet.all }
  | .pagesize512 => d.beginUnless c false wpN (.setPs c.pagesizeBit512) id
  | .pagesize528 => d.beginUnless c false wpN (.setPs (!c.pagesizeBit512)) id

/-- Frame `B1`. -/
def execFrameB1 (q : MagicName) (s : State) : Outcome :=
  .next (s.endFrame false (magicEffect s.cfg s.blk.wpN q))

/-- The end of a read on a device that responds: it changes nothing (rule R67(a), (b), (e)), but a status
read that leaves a cycle under way abandons the wait for it, and any other read belongs at a ready device
(70_reset_and_hazards.md rule R285). -/
def readEffect : ResponseOpcode → RefDev → RefDev
  | .status => RefDev.abandon
  | .id => RefDev.unlessBusy id

/-- Frame `B2`. -/
def execFrameB2 (r : ResponseOpcode) (s : State) : Outcome :=
  .next (s.endFrame false (readEffect r))

/-- Frame `B3`: the status poll. -/
def execFrameB3 (_ : Nat) (s : State) : Outcome :=
  .next (s.endFrame false RefDev.abandon)

/-- Frame `B4`: the page read. -/
def execFrameB4 (_ : BitVec 13) (_ : Byte) (s : State) : Outcome :=
  .next (s.endFrame false (RefDev.unlessBusy id))

/-- `B5` (rule R80): the page becomes indeterminate, the internal buffer is filled, and the program cycle
of page `a` begins. Address byte 2 is ignored (rule R79). -/
def programEffect (c : Cfg) (wpN : Bool) (a : BitVec 13) (data : Payload) (d : RefDev) : RefDev :=
  d.beginUnless c true wpN (.prog a data) fun d =>
    { d with indet := d.indet.insert a, buffer := some data }

/-- Frame `B5`. The line `wp_n` is the one after the tick that ended the frame (log 26). -/
def execFrameB5 (a : BitVec 13) (_ : Byte) (data : Payload) (s : State) : Outcome :=
  .next (s.endFrame false (programEffect s.cfg s.blk.wpN a data))

/-- Frame `B6`: a chip-select pulse with no byte wakes a device in ultra-deep power-down (rule R83); what
it does to one that is awake is not described (93_implementation_defined.md U13). -/
def execFrameB6 (s : State) : Outcome :=
  .next (s.endFrame false RefDev.lose)

/-- The end of bytes that are no frame of rule R94, such as a frame cut short by an abort or a block reset
(93_implementation_defined.md U16): nothing is known of a device that responded. -/
def State.endForeignFrame (s : State) : State := s.endFrame false RefDev.lose

end Sys2Proof.Machine
end

