-- ==== Sys2Proof/Machine/PageAccess.lean ====
section
/-! DEFINITION. Addressed page access (43_page_access.md): READ_PAGE, WRITE_PAGE. -/

namespace Sys2Proof.Machine

/-- READ_PAGE (rule R185): presents 512 bytes on the capture stream. -/
def execReadPage (n : PageNo) (s : State) : Outcome :=
  operationTick 6 .active true (seqReadPage s.cfg) n s

/-- WRITE_PAGE (rule R190): sends the payload latched at acceptance, then waits for READY. -/
def execWritePage (n : PageNo) (s : State) : Outcome :=
  operationTick 7 .active true (seqWritePage s.cfg) n s

end Sys2Proof.Machine
end

