-- ==== Sys2Proof/Machine/Power.lean ====
section
/-! DEFINITION. The power-state machine (41_power.md): INIT, ENTER_DPD, RESUME_DPD, ENTER_UDPD,
RESUME_UDPD. Each meaning is one tick: the acceptance of the command while the controller is idle, the
current primitive of its sequence while it is busy. -/

namespace Sys2Proof.Machine

/-- INIT (rule R150): `UNINIT` to `ACTIVE`, through a pulse on the device's reset line. -/
def execInit (n : PageNo) (s : State) : Outcome :=
  operationTick 0 .uninit false seqInit n s

/-- ENTER_DPD (rule R153): `ACTIVE` to `DPD`, frame `[OPC_DPD]`, no dwell. -/
def execEnterDpd (n : PageNo) (s : State) : Outcome :=
  operationTick 9 .active false (seqEnterDpd s.cfg) n s

/-- RESUME_DPD (rule R155): `DPD` to `ACTIVE`, frame `[OPC_RESUME_DPD]`, then `T_RDPD_NS`. -/
def execResumeDpd (n : PageNo) (s : State) : Outcome :=
  operationTick 10 .dpd false (seqResumeDpd s.cfg) n s

/-- ENTER_UDPD (rule R158): `ACTIVE` to `UDPD`, frame `[OPC_UDPD]`, no dwell. -/
def execEnterUdpd (n : PageNo) (s : State) : Outcome :=
  operationTick 11 .active false (seqEnterUdpd s.cfg) n s

/-- RESUME_UDPD (rule R160): `UDPD` to `ACTIVE`, a chip-select pulse with no byte, then `T_XUDPD_NS`. -/
def execResumeUdpd (n : PageNo) (s : State) : Outcome :=
  operationTick 12 .udpd false seqResumeUdpd n s

end Sys2Proof.Machine
end

