-- ==== Sys2Proof/Machine/Status.lean ====
section
/-! DEFINITION. The status poller (42_status.md): WAIT_READY, GET_STATUS, GET_PAGESIZE. -/

namespace Sys2Proof.Machine

/-- WAIT_READY (rule R170): reads status pairs until READY. -/
def execWaitReady (n : PageNo) (s : State) : Outcome :=
  operationTick 1 .active false (seqWaitReady s.cfg) n s

/-- GET_STATUS (rule R173): reads the status word once. -/
def execGetStatus (n : PageNo) (s : State) : Outcome :=
  operationTick 2 .active false (seqGetStatus s.cfg) n s

/-- GET_PAGESIZE (rule R176): reads the status word once; the answer is `st0[0]`. -/
def execGetPagesize (n : PageNo) (s : State) : Outcome :=
  operationTick 13 .active false (seqGetPagesize s.cfg) n s

end Sys2Proof.Machine
end

