-- ==== Sys2Proof/Machine/Dispatch.lean ====
section
/-! DEFINITION. Every instruction's meaning, one arm per constructor of `Instr`. -/

namespace Sys2Proof.Machine

def exec (i : Instr) (s : State) : Host.Outcome State Fault Refusal :=
  match i with
  | .init n => Sys2Proof.Machine.execInit n s
  | .waitReady n => Sys2Proof.Machine.execWaitReady n s
  | .getStatus n => Sys2Proof.Machine.execGetStatus n s
  | .getId n => Sys2Proof.Machine.execGetId n s
  | .setPagesize512 n => Sys2Proof.Machine.execSetPagesize512 n s
  | .setPagesize528 n => Sys2Proof.Machine.execSetPagesize528 n s
  | .readPage n => Sys2Proof.Machine.execReadPage n s
  | .writePage n => Sys2Proof.Machine.execWritePage n s
  | .eraseChip n => Sys2Proof.Machine.execEraseChip n s
  | .enterDpd n => Sys2Proof.Machine.execEnterDpd n s
  | .resumeDpd n => Sys2Proof.Machine.execResumeDpd n s
  | .enterUdpd n => Sys2Proof.Machine.execEnterUdpd n s
  | .resumeUdpd n => Sys2Proof.Machine.execResumeUdpd n s
  | .getPagesize n => Sys2Proof.Machine.execGetPagesize n s
  | .reserved14 n => Sys2Proof.Machine.execReserved14 n s
  | .reserved15 n => Sys2Proof.Machine.execReserved15 n s
  | .frameB0 k => Sys2Proof.Machine.execFrameB0 k s
  | .frameB1 q => Sys2Proof.Machine.execFrameB1 q s
  | .frameB2 r => Sys2Proof.Machine.execFrameB2 r s
  | .frameB3 q => Sys2Proof.Machine.execFrameB3 q s
  | .frameB4 a b => Sys2Proof.Machine.execFrameB4 a b s
  | .frameB5 a b data => Sys2Proof.Machine.execFrameB5 a b data s
  | .frameB6 => Sys2Proof.Machine.execFrameB6 s

end Sys2Proof.Machine
end

