-- ==== Sys2Proof/Machine/Agents.lean ====
section
/-! DEFINITION. The agents around the controller (00_scope.md rule R4): what the device sees of a tick, what
the transport presents next, what the host presents next. All of them move after the controller's tick, so
that the input ports hold what the next tick samples (10_state.md rule R40). -/

namespace Sys2Proof.Machine

/-! ### The device sees the lines move (20_memory.md rule R76, rule R83) -/

/-- `CS↓` and `CS↑`, `old` and `new` being the levels of `cs_n` before and after the tick. -/
def RefDev.seeCs (old new inFlight : Bool) (d : RefDev) : RefDev :=
  if old && !new then d.csFall else if !old && new then d.csRise inFlight else d

/-- `RST↓` and `RST↑`. -/
def RefDev.seeRst (c : Cfg) (old new : Bool) (d : RefDev) : RefDev :=
  if old && !new then d.rstFall else if !old && new then d.rstRise c else d

/-- The device after the tick that took the controller from `b` to `b'`: one clock period has passed, and
the lines have moved. -/
def RefDev.seeTick (c : Cfg) (b b' : Block) (inFlight : Bool) (d : RefDev) : RefDev :=
  let d' := { d with now := d.now + c.tClkNs }
  (d'.seeCs b.csN b'.csN inFlight).seeRst c b.rstN b'.rstN

/-! ### The transport (rule R41) -/

/-- A tick that leaves `tx_start = 1` puts its byte in flight; the next `latency` entry says how long it
takes, one `WAIT` tick when there is none (log 8). -/
def State.launch (s : State) : State :=
  if s.blk.txStart then
    { s with
      inFlight := s.inFlight ++ [⟨s.blk.txData, s.latency.headD 0⟩]
      latency := s.latency.tail }
  else s

/-- The transport port at the next tick: `tx_done` at level `x`, with the received byte `r`. -/
def State.presentTx (x : Bool) (r : Byte) (s : State) : State :=
  { s with port := { s.port with txDone := x, rxData := r } }

/-- The oldest transfer in flight completes or waits; transfers complete in the order they were started. -/
def State.deliver (s : State) : State :=
  match s.inFlight with
  | [] => s.presentTx false s.port.rxData
  | f :: rest =>
    match f.waits with
    | 0 =>
      let (r, d) := s.dev.exchange s.cfg s.blk.csN f.byte (Config.freeByte s.freeUsed)
      State.presentTx true r { s with inFlight := rest, dev := d, freeUsed := s.freeUsed + 1 }
    | w + 1 => State.presentTx false s.port.rxData { s with inFlight := ⟨f.byte, w⟩ :: rest }

/-- Under the unconstrained link: the next entry of the wire; a wire that has ended is silent. -/
def State.hearWire (s : State) : State :=
  match s.wire with
  | [] => s.presentTx false s.port.rxData
  | (x, r) :: rest => State.presentTx x r { s with wire := rest }

/-- The transport and the device after the tick that took the controller from `b` to the present state. -/
def State.busMoves (b : Block) (s : State) : State :=
  match s.link with
  | .unconstrained => s.hearWire
  | .refDev =>
    (s.setDev (s.dev.seeTick s.cfg b s.blk (!s.inFlight.isEmpty))).launch.deliver

/-! ### The host (rule R4(b), rule R40, rule R42) -/

/-- The host's next move at its command port. -/
def State.nextMove (s : State) : State :=
  match s.host with
  | [] => { s with port := { s.port with cmdValid := false }, holds := false }
  | .quiet :: rest =>
    { s with port := { s.port with cmdValid := false }, holds := false, host := rest }
  | .command o n data :: rest =>
    { s with
      port := { s.port with cmdValid := true, cmdOp := o, cmdPage := n, cmdPayload := data }
      holds := true
      host := rest }
  | .offer o n data :: rest =>
    { s with
      port := { s.port with cmdValid := true, cmdOp := o, cmdPage := n, cmdPayload := data }
      holds := false
      host := rest }

/-- The level of `reset` at the next tick, whatever stands at the command port. -/
def State.nextReset (s : State) : State :=
  { s with port := { s.port with reset := s.resets.headD false }, resets := s.resets.tail }

/-- The tick did not look at the command that stood at the port, the controller being busy or in reset, and
the host keeps presenting it (rule R42). -/
def State.heldCommand (b : Block) (s : State) : Bool :=
  s.holds && s.port.cmdValid && (b.busy || s.port.reset)

/-- The host collects a byte of the capture stream (rule R38). -/
def State.collect (s : State) : State :=
  if s.blk.rdValid then { s with captured := s.captured ++ [(s.blk.rdIdx, s.blk.rdData)] } else s

/-- The host after the tick that took the controller from `b` to the present state. -/
def State.hostMoves (b : Block) (s : State) : State :=
  (if s.heldCommand b then s.collect else s.collect.nextMove).nextReset

/-- Everything around the controller moves, after the tick that took it from `b` to the present state. -/
def State.settle (b : Block) (s : State) : State := (s.busMoves b).hostMoves b

/-! ### Ticks without an instruction -/

/-- The tick with `reset = 1` (rule R43, rule R260): the operation in progress is abandoned where it stands. -/
def State.resetTick (s : State) : State := (s.setBlk Block.reset).settle s.blk

/-- The tick of an idle controller at which nothing is presented: the pulses fall (rule R121). -/
def State.idleTick (s : State) : State := (s.setBlk s.blk.pulsesFall).settle s.blk

end Sys2Proof.Machine
end

