-- ==== Sys2Proof/Machine/Fetch.lean ====
section
/-! DEFINITION. Which instruction the next step runs. The controller fetches nothing from a memory
(20_memory.md rule R72): its instruction is the command it is running, or the one that stands at its port;
the device's is the frame that has just ended. -/

namespace Sys2Proof.Machine

/-- The command in progress, by the latches `op` and `page`. -/
def Block.running (b : Block) : Instr := decodeCommand (commandWord b.op b.page)

/-- The command at the port (rule R90, rule R91). -/
def Inputs.presented (p : Inputs) : Instr := decodeCommand (commandWord p.cmdOp p.cmdPage)

/-- The instruction of the next step: at the device's turn the frame it has received; else none while
`reset = 1` (rule R226(a)); else the operation in progress, a command presented meanwhile not being looked
at (rule R42); else the command presented. -/
def State.fetch (s : State) : Option Instr :=
  if s.deviceTurn then (heardFrame s.cfg s.dev.frame).toOption
  else if s.port.reset then none
  else if s.blk.busy then some s.blk.running
  else if s.port.cmdValid then some s.port.presented
  else none

/-- The step that runs no instruction. -/
def State.withoutInstr (s : State) : State :=
  if s.deviceTurn then s.endForeignFrame
  else if s.port.reset then s.resetTick
  else s.idleTick

/-- What a step adds around an instruction's meaning: after a tick of the controller the agents around it
move; the device's own move takes no clock tick. -/
def State.around (s t : State) : State := if s.deviceTurn then t else t.settle s.blk

/-! ### Placing an instruction -/

/-- A command placed at the port of an idle controller, `reset = 0`, the device having no frame to end. -/
def State.placeCommand (s : State) (w : CommandWord) : State :=
  { s with
    blk := { s.blk with busy := false }
    port := { s.port with
      reset := false, cmdValid := true, cmdOp := w.extractLsb' 16 4, cmdPage := w.extractLsb' 0 16 }
    dev := { s.dev with atEnd := false } }

/-- A frame placed at the reference device, just ended by `CS↑`. -/
def State.placeFrame (s : State) (bytes : List Byte) : State :=
  { s with link := .refDev, dev := { s.dev with frame := bytes, atEnd := true } }

/-- What stands behind a word of the opcode table, placed where the next step finds it. -/
def State.place (s : State) : Except DecodeError Code → State
  | .ok (.command w) => s.placeCommand w
  | .ok (.frame bytes) => s.placeFrame bytes
  | .error _ => s

end Sys2Proof.Machine
end

