-- ==== Sys2Proof/Machine/Step.lean ====
section
/-! DEFINITION. One step: one clock tick of the controller (40_framing_and_transport.md rule R121) with the
agents around it, or one move of the flash device. -/

namespace Sys2Proof.Machine

/-- One step. -/
def step (s : State) : Host.Outcome State Fault Refusal :=
  match s.fetch with
  | none => .next s.withoutInstr
  | some i =>
    match exec i s with
    | .next t => .next (s.around t)
    | .fault f => .fault f
    | .refused r => .refused r

/-- The word of an opcode-table row placed where the next step finds its instruction. -/
def State.withFetchWord (s : State) (nbits w : Nat) : State := s.place (tableCode s.cfg nbits w)

end Sys2Proof.Machine
end

