-- ==== Sys2Proof/Machine/Events.lean ====
section
/-! DEFINITION. Pin events (00_scope.md rule R17): what the flash device's side sees of a step and of a run.
They are read off two successive states and are no state of their own. -/

namespace Sys2Proof.Machine

/-- The pin events of rule R17. -/
inductive PinEvent
  | csFall
  | csRise
  /-- Write-protect deasserted. -/
  | wpRise
  /-- Write-protect asserted. -/
  | wpFall
  | rstFall
  | rstRise
  /-- `X(b→r)`: one transfer that sends `b` and receives `r`. -/
  | xfer (b r : Byte)
  deriving DecidableEq, Repr

/-- The primitive is one of the transfer primitives (rule R124). -/
def Prim.isTransfer : Prim → Bool
  | .xferConst _ | .xferAddr _ | .xferPayload | .xferCapture _ | .xferStatus | .poll => true
  | .csAssert | .csRelease | .wpRelease | .wpAssert | .rstAssert | .rstRelease
  | .dwell _ | .finish _ => false

/-- The byte a transfer primitive sends next (rule R125 to rule R128); a primitive that transfers nothing
sends none. -/
def Block.byteToSend (b : Block) : Prim → Option Byte
  | .xferConst x => some x
  | .xferAddr k => some (packAddr b.page k)
  | .xferPayload => some (payloadByte b.payload b.idx)
  | .xferCapture _ | .xferStatus | .poll => some filler
  | .csAssert | .csRelease | .wpRelease | .wpAssert | .rstAssert | .rstRelease
  | .dwell _ | .finish _ => none

/-- The primitive that acts at the next tick of a running operation (rule R28). -/
def State.currentPrim (s : State) : Option Prim :=
  if s.blk.busy then (sequenceOf s.cfg s.blk.running)[s.blk.pos]? else none

/-- A transfer completes at the next tick: a transfer primitive in its `WAIT` sub-phase sees `tx_done`
(rule R124). -/
def State.completesTransfer (s : State) : Bool :=
  !s.deviceTurn && !s.port.reset && s.port.txDone && s.blk.sub == .wait &&
    (s.currentPrim.map Prim.isTransfer).getD false

/-- The event of a line that moves from `old` to `new`. -/
def lineEvent (old new : Bool) (fall rise : PinEvent) : List PinEvent :=
  if old && !new then [fall] else if !old && new then [rise] else []

/-- The pin events of the step from `s` to `t`: the transfer that completes, then the lines that move. -/
def pinEvents (s t : State) : List PinEvent :=
  (if s.completesTransfer then [PinEvent.xfer s.blk.txData s.port.rxData] else []) ++
    lineEvent s.blk.csN t.blk.csN .csFall .csRise ++
    lineEvent s.blk.wpN t.blk.wpN .wpFall .wpRise ++
    lineEvent s.blk.rstN t.blk.rstN .rstFall .rstRise

/-- The pin events of `k` steps, up to the first fault or refusal. -/
def trace : Nat → State → List PinEvent
  | 0, _ => []
  | k + 1, s =>
    match step s with
    | .next t => pinEvents s t ++ trace k t
    | .fault _ => []
    | .refused _ => []

/-! ### What a sequence puts on the bus (30_encoding.md rule R96) -/

/-- The bytes a transfer primitive sends, a poll counted with one pair (rule R125 to rule R128). -/
def Prim.bytesSent (page : PageNo) (payload : Payload) : Prim → List Byte
  | .xferConst x => [x]
  | .xferAddr k => [packAddr page k]
  | .xferPayload => payload.bytes
  | .xferCapture m => fillers m
  | .xferStatus => fillers statusBytes
  | .poll => fillers statusBytes
  | .csAssert | .csRelease | .wpRelease | .wpAssert | .rstAssert | .rstRelease
  | .dwell _ | .finish _ => []

/-- The frames of a sequence: what is sent between each `CS_ASSERT` and the next `CS_RELEASE` (rule R94).
`cur` holds the bytes of the frame that is open, if one is. -/
def framesSent (page : PageNo) (payload : Payload) : Option (List Byte) → List Prim → List (List Byte)
  | _, [] => []
  | _, .csAssert :: l => framesSent page payload (some []) l
  | some cur, .csRelease :: l => cur :: framesSent page payload none l
  | some cur, p :: l => framesSent page payload (some (cur ++ p.bytesSent page payload)) l
  | none, _ :: l => framesSent page payload none l

end Sys2Proof.Machine
end

