-- ==== Sys2Proof/Safety.lean ====
section
/-! DEFINITION. What holds of every state that a run reaches, and the conditions under which claims about
runs are made. -/

namespace Sys2Proof.Machine

/-! ### The lines (40_framing_and_transport.md rule R132, rule R133) -/

/-- The levels of the three lines. -/
structure Lines where
  csN : Bool
  wpN : Bool
  rstN : Bool
  deriving DecidableEq, Repr

/-- The idle levels (10_state.md rule R45). -/
def Lines.idle : Lines := ⟨true, false, true⟩

/-- What a primitive that completes does to the lines (rule R122). -/
def Lines.after (l : Lines) : Prim → Lines
  | .csAssert => { l with csN := false }
  | .csRelease => { l with csN := true }
  | .wpRelease => { l with wpN := true }
  | .wpAssert => { l with wpN := false }
  | .rstAssert => { l with rstN := false }
  | .rstRelease => { l with rstN := true }
  | .dwell _ | .xferConst _ | .xferAddr _ | .xferPayload | .xferCapture _ | .xferStatus | .poll
  | .finish _ => l

/-- The levels while the primitive at `pos` of the sequence is the current one. -/
def linesAt (seq : List Prim) (pos : Nat) : Lines := (seq.take pos).foldl Lines.after Lines.idle

/-- The levels of the controller's lines. -/
def Block.lines (b : Block) : Lines := ⟨b.csN, b.wpN, b.rstN⟩

/-! ### The invariant of the controller -/

/-- The idle controller (rule R45). -/
def Block.IdleInv (b : Block) : Prop :=
  b.pos = 0 ∧ b.sub = .start ∧ b.idx = 0 ∧ b.lines = Lines.idle ∧ b.txStart = false

/-- What `sub`, `idx` and `timer` hold while the primitive is the current one (rules R29 to R31). -/
def Prim.Holds (c : Cfg) (b : Block) : Prim → Prop
  | .csAssert | .csRelease | .wpRelease | .wpAssert | .rstAssert | .rstRelease | .finish _ =>
    b.sub = .start ∧ b.idx = 0
  | .dwell t => b.idx = 0 ∧ (b.sub = .wait → 1 ≤ b.timer ∧ b.timer < t.ticks c)
  | .xferConst _ | .xferAddr _ => b.idx = 0
  | .xferPayload => b.idx.toNat ≤ 511
  | .xferCapture m => b.idx.toNat < m
  | .xferStatus | .poll => b.idx.toNat ≤ 1

/-- The busy controller: the operation in progress was accepted in its required power state and with an
acceptable page number, `pos` names a primitive of its sequence, the lines stand where the sequence has put
them, and a transfer has been started only by a transfer primitive. -/
def Block.BusyInv (c : Cfg) (b : Block) : Prop :=
  requiredState b.running = some b.pstate ∧
  (Instr.paged b.running && pageOutOfRange c b.page) = false ∧
  b.lines = linesAt (sequenceOf c b.running) b.pos ∧
  ∃ p, (sequenceOf c b.running)[b.pos]? = some p ∧ p.Holds c b ∧
    (b.txStart = true → p.isTransfer = true ∧ b.sub = .wait)

/-- The limit counters stand below their limits (30_encoding.md rule R104(b)). -/
def Block.LimitInv (c : Cfg) (b : Block) : Prop :=
  (c.busTimeoutTicks ≠ 0 → b.busCnt < c.busTimeoutTicks) ∧
  (c.pollLimit ≠ 0 → b.pollCnt < c.pollLimit)

/-- The invariant of the controller. -/
def Block.Inv (c : Cfg) (b : Block) : Prop :=
  (b.busy = false → b.IdleInv) ∧ (b.busy = true → b.BusyInv c) ∧ b.LimitInv c

/-! ### The invariant of the device -/

/-- The members of a page set rise strictly and are page numbers. -/
def PageSet.Wf (u : PageSet) : Prop :=
  u.pages.Pairwise (· < ·) ∧ ∀ p ∈ u.pages, p < nPages

/-- The device: the array and the set of indeterminate pages keep their canonical forms, nothing is busy
without something to commit, and a page being programmed or erased is indeterminate (20_memory.md rules
R80 to R82). -/
def RefDev.Inv (d : RefDev) : Prop :=
  Memory.wf d.erasedByte d.mem = true ∧ d.indet.Wf ∧
  (d.pending = none → d.busyLeft = 0) ∧
  (∀ p data, d.pending = some (.prog p data) → d.indet.mem p = true) ∧
  (d.pending = some .eraseAll → d.indet = PageSet.all)

/-- The invariant of the machine. -/
def State.Inv (s : State) : Prop := s.blk.Inv s.cfg ∧ s.dev.Inv

/-! ### The words of the claims -/

/-- The guard table of rule R223 beside the codes of rule R92: every operation, its code, and the one power
state in which it is accepted. -/
def guardTable (n : PageNo) : List (Instr × OpCode × PState) :=
  [(.init n, 0, .uninit), (.waitReady n, 1, .active), (.getStatus n, 2, .active), (.getId n, 3, .active),
   (.setPagesize512 n, 4, .active), (.setPagesize528 n, 5, .active), (.readPage n, 6, .active),
   (.writePage n, 7, .active), (.eraseChip n, 8, .active), (.enterDpd n, 9, .active),
   (.resumeDpd n, 10, .dpd), (.enterUdpd n, 11, .active), (.resumeUdpd n, 12, .udpd),
   (.getPagesize n, 13, .active)]

/-- Where `FINISH` stands in every sequence (the lengths of rule R130) and the power state it writes
(rule R129): only the five power operations carry one. -/
def finishTable (n : PageNo) : List (Instr × Nat × Option PState) :=
  [(.init n, 4, some .active), (.waitReady n, 4, none), (.getStatus n, 4, none), (.getId n, 4, none),
   (.setPagesize512 n, 10, none), (.setPagesize528 n, 10, none), (.readPage n, 7, none),
   (.writePage n, 13, none), (.eraseChip n, 12, none), (.enterDpd n, 3, some .dpd),
   (.resumeDpd n, 4, some .active), (.enterUdpd n, 3, some .udpd), (.resumeUdpd n, 4, some .active),
   (.getPagesize n, 4, none)]

/-- An operation is in progress and, running `i`, the primitive `p` acts at the next tick (rule R28). -/
abbrev State.At (s : State) (i : Instr) (p : Prim) : Prop :=
  s.blk.busy = true ∧ (sequenceOf s.cfg i)[s.blk.pos]? = some p

/-- The current transfer is waiting and the next tick sees its answer `r` (rule R124). -/
abbrev State.Answered (s : State) (r : Byte) : Prop :=
  s.blk.sub = .wait ∧ s.port.txDone = true ∧ s.port.rxData = r

/-! ### Conditions on runs -/

/-- An oracle stands behind the transport port and `reset` is never raised: what rule R275 quantifies over,
but for block resets. -/
def State.Undisturbed (s : State) : Prop :=
  s.link = .unconstrained ∧ s.port.reset = false ∧ true ∉ s.resets

/-- The transport presents `tx_done = 1` with the byte `r` at the tick `k`, the next tick being tick 0; for
`k ≥ 1` this is entry `k - 1` of the wire. -/
def State.AnswersAt (s : State) (k : Nat) (r : Byte) : Prop :=
  1 ≤ k ∧ s.wire[k - 1]? = some (true, r)

/-- The next tick, tick 0, presents the command `(o, n)` to an idle controller whose registers stand as the
invariant says. -/
def State.Presents (s : State) (o : OpCode) (n : PageNo) : Prop :=
  s.blk.busy = false ∧ s.blk.IdleInv ∧ s.port.cmdValid = true ∧ s.port.cmdOp = o ∧ s.port.cmdPage = n

/-- The status poll whose first byte is answered at the tick `first` reads the `q` pairs `a j`, `b j`, the
transport answering every transfer at its first `WAIT` tick. -/
def State.PollAnswers (s : State) (first q : Nat) (a b : Nat → Byte) : Prop :=
  ∀ j < q, s.AnswersAt (first + 4 * j) (a j) ∧ s.AnswersAt (first + 2 + 4 * j) (b j)

/-- The last of the `q` pairs is the first whose first byte shows READY, and the limit admits it
(rule R128, rule R170). -/
def ReadyAtLast (c : Cfg) (q : Nat) (a : Nat → Byte) : Prop :=
  1 ≤ q ∧ (c.pollLimit = 0 ∨ q ≤ c.pollLimit) ∧ (∀ j, j + 1 < q → readyBit (a j) = false) ∧
    readyBit (a (q - 1)) = true

/-- The events of a status poll of `q` pairs: the opcode, answered `x`, then the pairs (rule R170). -/
def pollEvents (c : Cfg) (q : Nat) (x : Byte) (a b : Nat → Byte) : List PinEvent :=
  [.csFall, .xfer c.opcStatus x] ++
    (List.range q).flatMap (fun j => [.xfer filler (a j), .xfer filler (b j)]) ++ [.csRise]

/-- The events of a magic frame whose answers are `x 0` to `x 3` (rule R94, `B1`). -/
def magicEvents (m : Magic) (x : Nat → Byte) : List PinEvent :=
  [.csFall, .xfer m.b0 (x 0), .xfer m.b1 (x 1), .xfer m.b2 (x 2), .xfer m.b3 (x 3), .csRise]

/-- The events of the opcode `o` and the packed address of `n`, answered `x 0` to `x 3` (rule R100). -/
def headerEvents (o : Byte) (n : PageNo) (x : Nat → Byte) : List PinEvent :=
  [.csFall, .xfer o (x 0), .xfer (packAddr n .a0) (x 1), .xfer (packAddr n .a1) (x 2),
   .xfer (packAddr n .a2) (x 3)]

/-- The registers after the operation `(o, n)` has run from `b` to its `FINISH`, apart from those that
differ from operation to operation, which the claims name (rule R120, rule R129). -/
def Block.finished (o : OpCode) (n : PageNo) (data : Payload) (b : Block) : Block :=
  { b with
    op := o, page := n, payload := data
    busy := false, done := true, err := .ok
    txStart := false, rdValid := false, busCnt := 0, pollCnt := 0 }

/-- The transfers of the bytes of a list to the device, chip-select low: the answers in order, and the device
after them. Where the rules say any value, the answer is `free` of the number of bytes still to come. -/
def RefDev.exchanges (c : Cfg) (free : Nat → Byte) : List Byte → RefDev → List Byte × RefDev
  | [], d => ([], d)
  | x :: l, d =>
    let (r, d') := d.exchange c false x (free l.length)
    let (rs, d'') := RefDev.exchanges c free l d'
    (r :: rs, d'')

end Sys2Proof.Machine
end

