-- ==== Sys2Proof/Certificates/Slice0/Obligations.lean ====
section
/-! DEFINITION. The statements about the machine. A claim about a host command is made at two levels: of
`exec`, one tick of the operation, for every state; and of a run of `step`, the whole operation from the tick
that presents it, tick 0, to its end, with an oracle behind the transport port (70_reset_and_hazards.md rule
R275). A claim about a bus frame is about the flash device's move at the `CS↑` that ends it. The
configuration is a field of the state, so every claim holds for every configuration. -/

open Sys2Proof Sys2Proof.Machine

/-! ## Encodings -/

/-- The words of the spec's vectors V2 and frames of V4, with the default catalog (log 3), decode to the
instructions they stand for. -/
def Obligations.WrittenWordsDecode : Prop :=
  decode Cfg.default (.command 0x00000) = .ok (.init 0) ∧
  decode Cfg.default (.command 0x2ABCD) = .ok (.getStatus 0xABCD) ∧
  decode Cfg.default (.command 0x61F40) = .ok (.readPage 8000) ∧
  decode Cfg.default (.command 0x70001) = .ok (.writePage 1) ∧
  decode Cfg.default (.command 0xC0000) = .ok (.resumeUdpd 0) ∧
  decode Cfg.default (.command 0xE0000) = .ok (.reserved14 0) ∧
  decode Cfg.default (.frame [0xB9]) = .ok (.frameB0 .dpd) ∧
  decode Cfg.default (.frame [0xC7, 0x94, 0x80, 0x9A]) = .ok (.frameB1 .chipErase) ∧
  decode Cfg.default (.frame [0x9F, 0xFF, 0xFF, 0xFF, 0xFF, 0xFF]) = .ok (.frameB2 .id) ∧
  decode Cfg.default (.frame [0xD7, 0xFF, 0xFF, 0xFF, 0xFF]) = .ok (.frameB3 2) ∧
  decode Cfg.default (.frame ([0x03, 0x3E, 0x80, 0x40] ++ List.replicate 512 0xFF)) =
    .ok (.frameB4 8000 0x40) ∧
  decode Cfg.default (.frame ([0x82, 0x3F, 0xFC, 0xFE] ++ List.replicate 512 0x5A)) =
    .ok (.frameB5 8190 0xFE (Payload.replicate 0x5A)) ∧
  decode Cfg.default (.frame []) = .ok .frameB6

/-- Every 20-bit word is a command, of the operation code in its bits 19:16 and the page field in its bits
15:0, and no two words are the same command. -/
def Obligations.EveryCommandWordDecodes : Prop :=
  ∀ (c : Cfg) (w : CommandWord), ∃ i, decode c (.command w) = .ok i ∧
    i = commandOf (w.extractLsb' 16 4) (w.extractLsb' 0 16) ∧ i.WellFormed ∧
    ∀ w', encode c i = .command w' ↔ w' = w

/-- Decoding an encoded well-formed instruction gives it back in its canonical form, every field at every
value, when the catalog tells its frames apart (log 9). The canonical form is the instruction itself, but for
the poll of one pair: its bytes are those of the single status read (30_encoding.md rule R94, a degenerate
case), and the model's choice is to give back that row (log 25). -/
def Obligations.DecodeOfEncode : Prop :=
  ∀ (c : Cfg) (i : Instr), c.CatalogDistinct → i.WellFormed → decode c (encode c i) = .ok i.canonical

/-- Whatever bytes the frame decoder accepts are exactly the bytes of that frame: no bit of a frame is
dropped, and two different frames are never read as one. -/
def Obligations.EncodeOfDecodedFrame : Prop :=
  ∀ (c : Cfg) (bytes : List Byte) (i : Instr), decodeFrame c bytes = .ok i → encode c i = .frame bytes

/-- The packed page address, bit by bit, as the table of rule R101 has it. -/
def Obligations.PackedAddressBits : Prop :=
  ∀ n : PageNo,
    let A : BitVec 24 := packAddr n .a0 ++ packAddr n .a1 ++ packAddr n .a2
    A.extractLsb' 22 2 = 0 ∧ A.extractLsb' 16 6 = n.extractLsb' 7 6 ∧
    A.extractLsb' 9 7 = n.extractLsb' 0 7 ∧ A.extractLsb' 8 1 = 0 ∧
    A.extractLsb' 0 8 = n.extractLsb' 0 8 ∧ A.extractLsb' 9 13 = n.extractLsb' 0 13

/-- The packer ignores the three high bits of a page number, and a device decodes the page number modulo
8192. An out-of-range number reaches the packer only with `RANGE_CHECK = false`. -/
def Obligations.PackedAddressAliases : Prop :=
  (∀ (n : PageNo) (k : AddressByte), packAddr n k = packAddr (BitVec.ofNat 16 (n.toNat % 8192)) k) ∧
  (∀ n : PageNo, packAddr n .a2 = n.extractLsb' 0 8 ∧
    unpackAddr (packAddr n .a0) (packAddr n .a1) = n.toNat % 8192) ∧
  ∀ (s : State) (n : PageNo) (i : Instr), i = .readPage n ∨ i = .writePage n →
    s.blk.busy = false → s.blk.pstate = .active → 8192 ≤ n.toNat →
    (s.cfg.rangeCheck = false → ∃ t, exec i s = .next t ∧ t.blk.busy = true ∧ t.blk.page = n) ∧
    (s.cfg.rangeCheck = true → ∃ t, exec i s = .next t ∧ t.blk.busy = false ∧ t.blk.page = s.blk.page)

/-- What every operation puts on the bus, frame by frame, is the row of the command catalog of rule R96: the
bytes between its chip-select edges are the encodings of those frames (a poll counted with one pair). In
particular READ_PAGE and WRITE_PAGE of one page number send the same three address bytes. -/
def Obligations.OperationsSendCatalogFrames : Prop :=
  ∀ (c : Cfg) (n : PageNo) (v : Payload),
    let a : BitVec 13 := n.extractLsb' 0 13
    let b : Byte := n.extractLsb' 0 8
    ∀ row ∈ [(Instr.init n, []), (.waitReady n, [.frameB3 1]), (.getStatus n, [.frameB2 .status]),
        (.getPagesize n, [.frameB2 .status]), (.getId n, [.frameB2 .id]),
        (.setPagesize512 n, [.frameB1 .pagesize512, .frameB3 1]),
        (.setPagesize528 n, [.frameB1 .pagesize528, .frameB3 1]), (.readPage n, [.frameB4 a b]),
        (.writePage n, [.frameB5 a b v, .frameB3 1]), (.eraseChip n, [.frameB1 .chipErase, .frameB3 1]),
        (.enterDpd n, [.frameB0 .dpd]), (.resumeDpd n, [.frameB0 .resumeDpd]),
        (.enterUdpd n, [.frameB0 .udpd]), (.resumeUdpd n, [.frameB6])],
      (framesSent n v none (sequenceOf c row.1)).map Code.frame = row.2.map (encode c)

/-- `N(T)` is the least whole number of clock periods, at least one, that is at least `T`; and the example of
rule R14. -/
def Obligations.TickCountIsLeast : Prop :=
  (∀ (c : Cfg) (T : Nat), 1 ≤ c.tClkNs →
    ticksFor c T = max 1 ((T + c.tClkNs - 1) / c.tClkNs) ∧ T ≤ ticksFor c T * c.tClkNs ∧
    1 ≤ ticksFor c T ∧ ∀ m, 1 ≤ m → T ≤ m * c.tClkNs → ticksFor c T ≤ m) ∧
  ([Dwell.rst, .settle, .rdpd, .cslu, .xudpd].map (Dwell.ticks { Cfg.default with tClkNs := 100 })) =
    [100, 350, 350, 1, 1800]

/-! ## The machine as a whole -/

/-- A clock tick with `reset = 1` leaves every register of the controller at its reset value, whatever else
holds; `payload` is left open. The machine starts from that state. -/
def Obligations.ResetTick : Prop :=
  let atReset (v : Payload) : Block :=
    { op := 0, page := 0, payload := v, pstate := .uninit, csN := true, wpN := false, rstN := true,
      pos := 0, sub := .start, idx := 0, timer := 0, busCnt := 0, pollCnt := 0, st0 := 0, st1 := 0,
      done := false, txStart := false, rdValid := false, err := .ok, busy := false, txData := 0,
      rdIdx := 0, rdData := 0 }
  State.reset.blk = atReset State.reset.blk.payload ∧
  ∀ s : State, s.deviceTurn = false → s.port.reset = true →
    ∃ t, step s = .next t ∧ t.blk = atReset t.blk.payload ∧ t.cfg = s.cfg

/-- The state after reset meets the invariant. -/
def Obligations.ResetMeetsInvariant : Prop := State.reset.Inv

/-- Every step keeps the invariant: the registers of the controller stand as its sequence has put them, the
limit counters stay below their limits, the flash array and the set of indeterminate pages keep their
canonical forms, and the device is busy only with something to commit. -/
def Obligations.StepKeepsInvariant : Prop :=
  ∀ s t : State, s.Inv → step s = .next t → t.Inv

/-- Under the invariant the machine never stops, and no step writes the configuration. -/
def Obligations.StepNeverStops : Prop :=
  ∀ s : State, s.Inv → ∃ t, step s = .next t ∧ t.cfg = s.cfg ∧ t.link = s.link

/-- After any step that leaves the controller idle, the seven registers of rule R45 hold their idle
values. -/
def Obligations.IdleRegisters : Prop :=
  ∀ s t : State, s.Inv → step s = .next t → t.blk.busy = false →
    t.blk.pos = 0 ∧ t.blk.sub = .start ∧ t.blk.idx = 0 ∧ t.blk.csN = true ∧ t.blk.wpN = false ∧
    t.blk.rstN = true ∧ t.blk.txStart = false

/-- One step runs the decoded instruction: at the device's turn the frame it has received, with no clock tick
around it; at a clock tick the command of the latches while an operation runs, and else the command at the
port, the agents around the controller moving after it. An addressed frame is taken without its fixed address
bits; other bytes that are no frame end as `State.endForeignFrame` says. -/
def Obligations.StepRunsDecodedInstruction : Prop :=
  ∀ (s : State) (i : Instr),
    (s.deviceTurn = true → decodeFrame s.cfg s.dev.frame = .ok i → step s = exec i s) ∧
    (s.deviceTurn = true → ∀ e, decodeFrame s.cfg s.dev.frame = .error e →
      (decodeFrame s.cfg (clearFixedBits s.cfg s.dev.frame) = .ok i → step s = exec i s) ∧
      ∀ e', decodeFrame s.cfg (clearFixedBits s.cfg s.dev.frame) = .error e' →
        step s = .next s.endForeignFrame) ∧
    (s.deviceTurn = false → s.port.reset = false → s.blk.busy = true →
      decodeCommand (commandWord s.blk.op s.blk.page) = i →
      (∀ t, exec i s = .next t → step s = .next (t.settle s.blk)) ∧
      ∀ f, exec i s = .fault f → step s = .fault f) ∧
    (s.deviceTurn = false → s.port.reset = false → s.blk.busy = false → s.port.cmdValid = true →
      decodeCommand (commandWord s.port.cmdOp s.port.cmdPage) = i →
      (∀ t, exec i s = .next t → step s = .next (t.settle s.blk)) ∧
      ∀ f, exec i s = .fault f → step s = .fault f)

/-- A command word placed at the port, and a frame placed at the device, are what the next step runs. -/
def Obligations.PlacedInstructionIsFetched : Prop :=
  (∀ (s : State) (w : CommandWord), (s.withFetchWord 24 w.toNat).fetch = some (decodeCommand w)) ∧
  ∀ (s : State) (bytes : List Byte) (i : Instr), decodeFrame s.cfg bytes = .ok i →
    (s.placeFrame bytes).fetch = some i

/-- While an operation runs, nothing at the command port changes what a tick does to the controller, the
transport or the device. A host that holds its command goes on presenting it (log 11); and the levels of
`reset` come as they are set, whatever stands at the command port. -/
def Obligations.BusyControllerIgnoresCommands : Prop :=
  ∀ (s t : State) (p : Inputs), s.deviceTurn = false → s.blk.busy = true → s.port.reset = false →
    p.reset = false → p.txDone = s.port.txDone → p.rxData = s.port.rxData → step s = .next t →
    (∃ t', step { s with port := p } = .next t' ∧ t'.blk = t.blk ∧ t'.dev = t.dev ∧
      t'.captured = t.captured ∧ t'.wire = t.wire ∧ t'.inFlight = t.inFlight ∧
      t'.latency = t.latency ∧ t'.freeUsed = t.freeUsed) ∧
    (s.port.cmdValid = true → s.holds = true → t.host = s.host ∧ t.holds = true ∧
      t.port.cmdValid = true ∧ t.port.cmdOp = s.port.cmdOp ∧ t.port.cmdPage = s.port.cmdPage ∧
      t.port.cmdPayload = s.port.cmdPayload) ∧
    t.port.reset = s.resets.headD false ∧ t.resets = s.resets.tail

/-- At a tick at which the idle controller is presented nothing, the three pulses fall and nothing else of it
changes. -/
def Obligations.IdleTick : Prop :=
  ∀ s : State, s.deviceTurn = false → s.port.reset = false → s.blk.busy = false →
    s.port.cmdValid = false →
    ∃ t, step s = .next t ∧ t.cfg = s.cfg ∧
      t.blk = { s.blk with done := false, txStart := false, rdValid := false }

/-- What the three pulses mean at a clock tick: `done` that a command has ended or been rejected, `tx_start`
that a transfer primitive has started, `rd_valid` that a capture primitive has received the byte `rd_data`,
numbered by `idx`. -/
def Obligations.PulsesMeanEvents : Prop :=
  ∀ s t : State, s.deviceTurn = false → step s = .next t →
    (t.blk.done = true → t.blk.busy = false ∧ s.port.reset = false ∧
      (s.blk.busy = true ∨ s.port.cmdValid = true)) ∧
    (t.blk.txStart = true → s.blk.sub = .start ∧
      ∃ p, s.currentPrim = some p ∧ s.blk.byteToSend p = some t.blk.txData) ∧
    (t.blk.rdValid = true → s.blk.sub = .wait ∧ s.port.txDone = true ∧
      t.blk.rdData = s.port.rxData ∧ t.blk.rdIdx = s.blk.idx.setWidth 9 ∧
      ∃ m, s.currentPrim = some (.xferCapture m))

/-- No transfer starts while chip-select is high; the lines leave their idle levels only while an operation
runs, write-protect only in WRITE_PAGE and ERASE_CHIP, the reset line only in INIT; and a byte is sent only
in `ACTIVE`, or in `DPD` by RESUME_DPD. -/
def Obligations.LineDiscipline : Prop :=
  ∀ s t : State, s.Inv → step s = .next t →
    (t.blk.txStart = true → t.blk.csN = false) ∧
    (t.blk.csN = false → t.blk.busy = true) ∧
    (t.blk.wpN = true → t.blk.busy = true ∧ (t.blk.op = 7 ∨ t.blk.op = 8)) ∧
    (t.blk.rstN = false → t.blk.busy = true ∧ t.blk.op = 0) ∧
    (t.blk.txStart = true → t.blk.pstate = .active ∨ (t.blk.pstate = .dpd ∧ t.blk.op = 10))

/-- The power state changes at a block reset and at the `FINISH` of one of the five transitions of rule
R163, and nowhere else. That `err` becomes 0 there is the model's choice between rules that disagree (log
28). -/
def Obligations.PowerStateTransitions : Prop :=
  ∀ s t : State, s.Inv → step s = .next t → t.blk.pstate ≠ s.blk.pstate →
    (s.deviceTurn = false ∧ s.port.reset = true ∧ t.blk.pstate = .uninit) ∨
    (s.currentPrim = some (.finish (some t.blk.pstate)) ∧ t.blk.err = .ok ∧ t.blk.done = true ∧
      (s.blk.pstate, s.blk.op, t.blk.pstate) ∈
        ([(.uninit, 0, .active), (.active, 9, .dpd), (.dpd, 10, .active), (.active, 11, .udpd),
          (.udpd, 12, .active)] : List (PState × OpCode × PState)))

/-- Who writes the result registers and the operand latches at a clock tick without reset: the status latch
only a status read or poll of the seven status-reading operations, the latches only the acceptance of a
command, `err` only a tick that gives `done`. -/
def Obligations.RegisterWriters : Prop :=
  ∀ s t : State, s.deviceTurn = false → s.port.reset = false → step s = .next t →
    ((t.blk.st0 ≠ s.blk.st0 ∨ t.blk.st1 ≠ s.blk.st1) →
      s.blk.op ∈ ([1, 2, 4, 5, 7, 8, 13] : List OpCode) ∧
      (s.currentPrim = some .xferStatus ∨ s.currentPrim = some .poll)) ∧
    ((t.blk.op ≠ s.blk.op ∨ t.blk.page ≠ s.blk.page ∨ t.blk.payload ≠ s.blk.payload) →
      s.blk.busy = false ∧ s.port.cmdValid = true ∧ t.blk.busy = true) ∧
    (t.blk.err ≠ s.blk.err → t.blk.done = true)

/-! ## Acceptance -/

/-- A command presented in its required power state, with an acceptable page number where it takes one, is
accepted: the latches and the sequencer registers are written, and nothing else but the falling pulses. -/
def Obligations.CommandAccepted : Prop :=
  ∀ (s : State) (n : PageNo), ∀ row ∈ guardTable n, s.blk.busy = false → s.blk.pstate = row.2.2 →
    (row.2.1 = 6 ∨ row.2.1 = 7 → s.cfg.rangeCheck = true → n.toNat < 8192) →
    exec row.1 s = .next (s.setBlk { s.blk with
      done := false, txStart := false, rdValid := false
      busy := true, op := row.2.1, page := n, payload := s.port.cmdPayload
      pos := 0, sub := .start, idx := 0, pollCnt := 0, busCnt := 0 })

/-- The guard table: a legal command in any other power state than its own is rejected with `WrongPowerState`,
code 3, and nothing but `err` and `done` changes, whatever the configuration; in its own it is accepted, if
its page number is. -/
def Obligations.WrongPowerStateRejected : Prop :=
  ∀ (s : State) (n : PageNo), ∀ row ∈ guardTable n, s.blk.busy = false → s.blk.pstate ≠ row.2.2 →
    exec row.1 s = .next (s.setBlk { s.blk with
      done := true, txStart := false, rdValid := false, err := .wrongPowerState }) ∧
    Err.wrongPowerState.code = 3 ∧
    ∀ s' : State, s'.blk.busy = false → s'.blk.pstate = row.2.2 → n.toNat < 8192 →
      ∃ t, exec row.1 s' = .next t ∧ t.blk.busy = true ∧ t.blk.op = row.2.1

/-- The range check: READ_PAGE and WRITE_PAGE of a page number of 8192 or more in `ACTIVE` are rejected with
`AddressOutOfRange`, code 4, when `RANGE_CHECK = true`; when it is false they are accepted and the packer
sends the page number modulo 8192. No operation that takes no page number checks the field. -/
def Obligations.AddressOutOfRangeRejected : Prop :=
  ∀ (s : State) (n : PageNo), s.blk.busy = false → 8192 ≤ n.toNat →
    (∀ i, i = Instr.readPage n ∨ i = .writePage n → s.blk.pstate = .active →
      (s.cfg.rangeCheck = true → exec i s = .next (s.setBlk { s.blk with
        done := true, txStart := false, rdValid := false, err := .addressOutOfRange })) ∧
      (s.cfg.rangeCheck = false → ∃ t, exec i s = .next t ∧ t.blk.busy = true ∧ t.blk.err = s.blk.err ∧
        ∀ k, packAddr t.blk.page k = packAddr (BitVec.ofNat 16 (n.toNat % 8192)) k)) ∧
    (∀ row ∈ guardTable n, row.2.1 ≠ 6 → row.2.1 ≠ 7 → s.blk.pstate = row.2.2 →
      ∃ t, exec row.1 s = .next t ∧ t.blk.busy = true ∧ t.blk.err = s.blk.err) ∧
    Err.addressOutOfRange.code = 4

/-- The reserved codes 14 and 15 are rejected with `IllegalCommand`, code 5, in every power state and before
any other check, and nothing but `err` and `done` changes. -/
def Obligations.ReservedCodesRejected : Prop :=
  ∀ (s : State) (n : PageNo), s.blk.busy = false →
    let rejected : Block :=
      { s.blk with done := true, txStart := false, rdValid := false, err := .illegalCommand }
    decodeCommand (commandWord 14 n) = .reserved14 n ∧ decodeCommand (commandWord 15 n) = .reserved15 n ∧
    exec (.reserved14 n) s = .next (s.setBlk rejected) ∧
    exec (.reserved15 n) s = .next (s.setBlk rejected) ∧ Err.illegalCommand.code = 5

/-! ## The primitives, in whatever operation they stand -/

/-- The six line primitives: one assignment, and the next position. -/
def Obligations.LinePrimitives : Prop :=
  ∀ (s : State) (i : Instr),
    let b : Block :=
      { s.blk with done := false, txStart := false, rdValid := false, pos := s.blk.pos + 1 }
    (s.At i .csAssert → exec i s = .next (s.setBlk { b with csN := false })) ∧
    (s.At i .csRelease → exec i s = .next (s.setBlk { b with csN := true })) ∧
    (s.At i .wpRelease → exec i s = .next (s.setBlk { b with wpN := true })) ∧
    (s.At i .wpAssert → exec i s = .next (s.setBlk { b with wpN := false })) ∧
    (s.At i .rstAssert → exec i s = .next (s.setBlk { b with rstN := false })) ∧
    (s.At i .rstRelease → exec i s = .next (s.setBlk { b with rstN := true }))

/-- The transfer engine without an answer, for every transfer primitive and the byte it sends: the start, the
timeout as an abort, and one more waiting tick counted. An answer at the start is ignored. -/
def Obligations.TransferEngine : Prop :=
  ∀ (s : State) (i : Instr) (p : Prim) (x : Byte), s.At i p → s.blk.byteToSend p = some x →
    let b : Block := { s.blk with done := false, txStart := false, rdValid := false }
    let L := s.cfg.busTimeoutTicks
    (s.blk.sub = .start → exec i s = .next (s.setBlk
      { b with txStart := true, txData := x, busCnt := 0, sub := .wait })) ∧
    (s.blk.sub = .wait → s.port.txDone = false → L ≠ 0 ∧ L ≤ s.blk.busCnt + 1 →
      exec i s = .next (s.setBlk { b with
        csN := true, wpN := false, rstN := true, err := .busTimeout, done := true, busy := false
        pos := 0, sub := .start, idx := 0 })) ∧
    (s.blk.sub = .wait → s.port.txDone = false → ¬(L ≠ 0 ∧ L ≤ s.blk.busCnt + 1) →
      exec i s = .next (s.setBlk { b with busCnt := s.blk.busCnt + 1 }))

/-- One transfer takes `1 + w` ticks when its answer `r` comes at the `w`-th `WAIT` tick, and it is the event
`X(x→r)`; with a limit `L ≠ 0` it succeeds iff `w ≤ L`, and aborts at the `L`-th `WAIT` tick otherwise. -/
def Obligations.TransferLength : Prop :=
  ∀ (s : State) (p : Prim) (x : Byte), s.Undisturbed → s.At s.blk.running p →
    s.blk.byteToSend p = some x → s.blk.sub = .start →
    let b : Block := { s.blk with done := false, txStart := false, rdValid := false, txData := x }
    let L := s.cfg.busTimeoutTicks
    (∀ (w : Nat) (r : Byte), s.AnswersAt w r → (∀ j < w, ∀ r', ¬ s.AnswersAt j r') → (L = 0 ∨ w ≤ L) →
      ∃ u t, core.run w s = .next u ∧ trace w s = [] ∧ u.Answered r ∧
        u.blk = { b with txStart := w == 1, busCnt := w - 1, sub := .wait } ∧
        step u = .next t ∧ (pinEvents u t).head? = some (.xfer x r)) ∧
    (L ≠ 0 → (∀ j ≤ L, ∀ r', ¬ s.AnswersAt j r') →
      ∃ t, core.run (L + 1) s = .next t ∧
        t.blk = { b with
          csN := true, wpN := false, rstN := true, err := .busTimeout, done := true, busy := false
          pos := 0, sub := .start, idx := 0, busCnt := L - 1 })

/-- `XFER_CONST` sends its catalog byte and `XFER_ADDR(k)` the address byte `k` of the latched page; both
discard the answer and move on. -/
def Obligations.DiscardedAnswers : Prop :=
  ∀ (s : State) (i : Instr),
    let b : Block := { s.blk with done := false, txStart := false, rdValid := false }
    let moves (p : Prim) (x : Byte) : Prop := s.At i p →
      (s.blk.sub = .start → exec i s = .next (s.setBlk
        { b with txStart := true, txData := x, busCnt := 0, sub := .wait })) ∧
      ∀ r, s.Answered r → exec i s = .next (s.setBlk { b with sub := .start, pos := s.blk.pos + 1 })
    (∀ x, moves (.xferConst x) x) ∧ ∀ k, moves (.xferAddr k) (packAddr s.blk.page k)

/-- The two byte loops at an answered `WAIT` tick: `XFER_PAYLOAD` counts `idx` to 511, `XFER_CAPTURE(m)`
presents the byte with its index and counts to `m - 1`; at the last byte both move on with `idx = 0`. -/
def Obligations.ByteLoops : Prop :=
  ∀ (s : State) (i : Instr) (r : Byte), s.Answered r →
    let b : Block := { s.blk with done := false, txStart := false, rdValid := false, sub := .start }
    (s.At i .xferPayload → exec i s = .next (s.setBlk
      (if s.blk.idx = 511 then { b with idx := 0, pos := s.blk.pos + 1 }
       else { b with idx := s.blk.idx + 1 }))) ∧
    ∀ m, s.At i (.xferCapture m) →
      let c : Block := { b with rdValid := true, rdIdx := s.blk.idx.setWidth 9, rdData := r }
      exec i s = .next (s.setBlk
        (if s.blk.idx.toNat = m - 1 ∧ 0 < m then { c with idx := 0, pos := s.blk.pos + 1 }
         else { c with idx := s.blk.idx + 1 }))

/-- `XFER_STATUS` at an answered `WAIT` tick: the first answer is byte 0 of the status word, the second is
byte 1 and ends it. -/
def Obligations.StatusRead : Prop :=
  ∀ (s : State) (i : Instr) (r : Byte), s.At i .xferStatus →
    let b : Block := { s.blk with done := false, txStart := false, rdValid := false }
    (s.blk.sub = .start → exec i s = .next (s.setBlk
      { b with txStart := true, txData := 0xFF, busCnt := 0, sub := .wait })) ∧
    (s.Answered r → s.blk.idx = 0 → exec i s = .next (s.setBlk
      { b with sub := .start, st0 := r, idx := 1 })) ∧
    (s.Answered r → s.blk.idx ≠ 0 → exec i s = .next (s.setBlk
      { b with sub := .start, st1 := r, idx := 0, pos := s.blk.pos + 1 }))

/-- `POLL` at an answered `WAIT` tick: the first byte of a pair is latched; at the second the loop leaves when
bit 7 of the first is set, aborts with `DeviceNotReady` when the limit is reached, and else counts one busy
poll and reads another pair. READY wins over the limit. -/
def Obligations.PollLoop : Prop :=
  ∀ (s : State) (i : Instr) (r : Byte), s.At i .poll → s.Answered r →
    let b : Block := { s.blk with done := false, txStart := false, rdValid := false, sub := .start }
    let L := s.cfg.pollLimit
    (s.blk.idx = 0 → exec i s = .next (s.setBlk { b with st0 := r, idx := 1 })) ∧
    (s.blk.idx ≠ 0 → s.blk.st0.getLsbD 7 = true →
      exec i s = .next (s.setBlk { b with st1 := r, idx := 0, pos := s.blk.pos + 1 })) ∧
    (s.blk.idx ≠ 0 → s.blk.st0.getLsbD 7 = false → L ≠ 0 ∧ L ≤ s.blk.pollCnt + 1 →
      exec i s = .next (s.setBlk { b with
        st1 := r, csN := true, wpN := false, rstN := true, err := .deviceNotReady, done := true
        busy := false, pos := 0, idx := 0 })) ∧
    (s.blk.idx ≠ 0 → s.blk.st0.getLsbD 7 = false → ¬(L ≠ 0 ∧ L ≤ s.blk.pollCnt + 1) →
      exec i s = .next (s.setBlk { b with st1 := r, idx := 0, pollCnt := s.blk.pollCnt + 1 }))

/-- `FINISH` is the last primitive of every operation and stands at no other place in it; it ends the
operation with `err = 0`, and only the five power operations write the power state there. `sub = START` and
`idx = 0` hold before it. That the power operations clear `err` too, as rule R129 has it, is the model's
choice between rules that disagree (log 28). -/
def Obligations.OperationFinishes : Prop :=
  ∀ (s : State) (n : PageNo), ∀ row ∈ finishTable n, s.blk.busy = true →
    (s.blk.pos = row.2.1 → exec row.1 s = .next (s.setBlk { s.blk with
      txStart := false, rdValid := false, pstate := row.2.2.getD s.blk.pstate
      err := .ok, done := true, busy := false, pos := 0 })) ∧
    (sequenceOf s.cfg row.1).length = row.2.1 + 1 ∧
    (∀ q, s.At row.1 (.finish q) ↔ s.blk.pos = row.2.1 ∧ q = row.2.2) ∧
    (s.Inv → s.blk.running = row.1 → s.blk.pos = row.2.1 → s.blk.sub = .start ∧ s.blk.idx = 0)

/-- `DWELL(T)` takes exactly `N(T)` ticks, during which the operation stays at its position and nothing moves
on the pins, and changes only `timer`, `sub` and at its last tick `pos`; with the tick before it, more than
`T` has passed when the next primitive acts. -/
def Obligations.DwellLasts : Prop :=
  ∀ (s : State) (t : Dwell), s.Undisturbed → s.At s.blk.running (.dwell t) → s.blk.sub = .start →
    let b : Block := { s.blk with done := false, txStart := false, rdValid := false }
    let N := t.ticks s.cfg
    (∀ k, 1 ≤ k → k < N → ∃ u, core.run k s = .next u ∧ u.blk = { b with timer := N - k, sub := .wait }) ∧
    (∃ u, core.run N s = .next u ∧ u.blk = { b with timer := 0, pos := s.blk.pos + 1 }) ∧
    trace N s = [] ∧ (1 ≤ s.cfg.tClkNs → t.time s.cfg < (N + 1) * s.cfg.tClkNs)

/-- What no tick of a command changes: everything outside the controller's registers, so every byte of the
flash array; and of the registers, those that its rule does not name under `Writes`, but for the sequencer's
own `busy`, `pos` and `sub`. Where an abort or a rejection writes one of them, the clause says so. -/
def Obligations.CommandFrame : Prop :=
  ∀ (s t : State) (n : PageNo), ∀ row ∈ guardTable n, exec row.1 s = .next t →
    t = s.setBlk t.blk ∧ (∀ a, Memory.get t.dev.erasedByte t.dev.mem a =
      Memory.get s.dev.erasedByte s.dev.mem a) ∧
    (s.blk.busy = true → t.blk.op = s.blk.op ∧ t.blk.page = s.blk.page ∧ t.blk.payload = s.blk.payload) ∧
    (t.blk.done = false → t.blk.err = s.blk.err ∧ t.blk.pstate = s.blk.pstate) ∧
    (row.2.1 ∉ ([0, 9, 10, 11, 12] : List OpCode) → t.blk.pstate = s.blk.pstate) ∧
    (row.2.1 ∉ ([1, 2, 4, 5, 7, 8, 13] : List OpCode) → t.blk.st0 = s.blk.st0 ∧ t.blk.st1 = s.blk.st1) ∧
    (row.2.1 ∉ ([3, 6] : List OpCode) →
      t.blk.rdValid = false ∧ t.blk.rdIdx = s.blk.rdIdx ∧ t.blk.rdData = s.blk.rdData) ∧
    (row.2.1 ∉ ([0, 10, 12] : List OpCode) → t.blk.timer = s.blk.timer) ∧
    (t.blk.txStart = false → t.blk.txData = s.blk.txData) ∧
    (row.2.1 ∈ ([0, 12] : List OpCode) → t.blk.txStart = false ∧
      (s.blk.busy = true → t.blk.busCnt = s.blk.busCnt ∧ t.blk.idx = s.blk.idx)) ∧
    (row.2.1 ∈ ([9, 10, 11] : List OpCode) → s.blk.busy = true →
      t.blk.idx = s.blk.idx ∨ t.blk.done = true ∧ t.blk.idx = 0) ∧
    (row.2.1 ∉ ([1, 4, 5, 7, 8] : List OpCode) → s.blk.busy = true → t.blk.pollCnt = s.blk.pollCnt) ∧
    (s.blk.busy = false → t.blk.busy = false →
      t.blk.busCnt = s.blk.busCnt ∧ t.blk.pollCnt = s.blk.pollCnt ∧ t.blk.idx = s.blk.idx) ∧
    (row.2.1 ∉ ([7, 8] : List OpCode) → t.blk.wpN = s.blk.wpN ∨ t.blk.done = true ∧ t.blk.wpN = false) ∧
    (row.2.1 ≠ 0 → t.blk.rstN = s.blk.rstN ∨ t.blk.done = true ∧ t.blk.rstN = true) ∧
    (row.2.1 = 0 → t.blk.csN = s.blk.csN ∧ t.blk.wpN = s.blk.wpN)

/-! ## Whole operations

`s.Presents o n`: tick 0 presents the command to the idle controller. `s.AnswersAt k r`: the transport
answers `r` at tick `k`; the transport answers every transfer at its first `WAIT` tick. -/

/-- ENTER_DPD and ENTER_UDPD: one frame of the one opcode, no dwell, `FINISH` at tick 5. That `err` becomes
0 there is the model's choice between rules that disagree (log 28). -/
def Obligations.EnterSleepRuns : Prop :=
  ∀ (s : State) (n : PageNo) (r : Byte), s.Undisturbed → s.blk.pstate = .active → s.AnswersAt 3 r →
    ∀ row ∈ ([(9, s.cfg.opcDpd, .dpd), (11, s.cfg.opcUdpd, .udpd)] : List (OpCode × Byte × PState)),
      s.Presents row.1 n →
      trace 6 s = [.csFall, .xfer row.2.1 r, .csRise] ∧
      ∃ t, core.run 6 s = .next t ∧ t.dev = s.dev ∧ t.captured = s.captured ∧
        t.blk = { s.blk.finished row.1 n s.port.cmdPayload with pstate := row.2.2, txData := row.2.1 }

/-- RESUME_DPD: the resume frame closes at tick 4, and `N_RDPD` ticks and more than `T_RDPD_NS` of nothing
follow before the controller is `ACTIVE` and takes a command again. That `err` becomes 0 there is the
model's choice between rules that disagree (log 28). -/
def Obligations.ResumeDpdRuns : Prop :=
  ∀ (s : State) (n : PageNo) (r : Byte), s.Undisturbed → s.Presents 10 n → s.blk.pstate = .dpd →
    s.AnswersAt 3 r →
    let N := Dwell.rdpd.ticks s.cfg
    let events : List PinEvent := [.csFall, .xfer s.cfg.opcResumeDpd r, .csRise]
    trace 5 s = events ∧ trace (N + 6) s = events ∧
    (1 ≤ s.cfg.tClkNs → s.cfg.tRdpdNs < (N + 1) * s.cfg.tClkNs) ∧
    (∀ k, 1 ≤ k → k ≤ N + 5 → ∃ u, core.run k s = .next u ∧ u.blk.busy = true ∧ u.blk.pstate = .dpd) ∧
    ∃ t, core.run (N + 6) s = .next t ∧ t.dev = s.dev ∧ t.captured = s.captured ∧
      t.blk = { s.blk.finished 10 n s.port.cmdPayload with
        pstate := .active, txData := s.cfg.opcResumeDpd, timer := 0 }

/-- RESUME_UDPD: a chip-select pulse with no byte, longer than `T_CSLU_NS`, then more than `T_XUDPD_NS` of
nothing; no transfer is ever started. That `err` becomes 0 there is the model's choice between rules that
disagree (log 28). -/
def Obligations.ResumeUdpdRuns : Prop :=
  ∀ (s : State) (n : PageNo), s.Undisturbed → s.Presents 12 n → s.blk.pstate = .udpd →
    let N := Dwell.cslu.ticks s.cfg
    let M := Dwell.xudpd.ticks s.cfg
    (∀ k, 2 ≤ k → k ≤ N + 2 → trace k s = [.csFall]) ∧
    (∀ k, N + 3 ≤ k → k ≤ N + M + 4 → trace k s = [.csFall, .csRise]) ∧
    (1 ≤ s.cfg.tClkNs →
      s.cfg.tCsluNs < (N + 1) * s.cfg.tClkNs ∧ s.cfg.tXudpdNs < (M + 1) * s.cfg.tClkNs) ∧
    (∀ k, 1 ≤ k → k ≤ N + M + 3 → ∃ u, core.run k s = .next u ∧ u.blk.busy = true ∧
      u.blk.txStart = false ∧ u.blk.pstate = .udpd) ∧
    ∃ t, core.run (N + M + 4) s = .next t ∧ t.dev = s.dev ∧ t.captured = s.captured ∧
      t.blk = { s.blk.finished 12 n s.port.cmdPayload with pstate := .active, timer := 0 }

/-- INIT: the reset line is low from tick 1 for `N_RST + 1` periods, more than `T_RST_NS`, and `N_REC + 1`
periods, more than `T_REC_NS`, pass before the controller is `ACTIVE`. That `err` becomes 0 there is the
model's choice between rules that disagree (log 28). -/
def Obligations.InitRuns : Prop :=
  ∀ (s : State) (n : PageNo), s.Undisturbed → s.Presents 0 n → s.blk.pstate = .uninit →
    let N := Dwell.rst.ticks s.cfg
    let M := Dwell.settle.ticks s.cfg
    (∀ k, 2 ≤ k → k ≤ N + 2 → trace k s = [.rstFall]) ∧
    (∀ k, N + 3 ≤ k → k ≤ N + M + 4 → trace k s = [.rstFall, .rstRise]) ∧
    (1 ≤ s.cfg.tClkNs →
      s.cfg.tRstNs < (N + 1) * s.cfg.tClkNs ∧ s.cfg.tRecNs < (M + 1) * s.cfg.tClkNs) ∧
    (∀ k, 1 ≤ k → k ≤ N + M + 3 → ∃ u, core.run k s = .next u ∧ u.blk.busy = true ∧
      u.blk.pstate = .uninit) ∧
    ∃ t, core.run (N + M + 4) s = .next t ∧ t.dev = s.dev ∧ t.captured = s.captured ∧
      t.blk = { s.blk.finished 0 n s.port.cmdPayload with pstate := .active, timer := 0 }

/-- GET_STATUS and GET_PAGESIZE: one status word is read, whatever READY says, and the host reads the page
size off bit 0 of byte 0. -/
def Obligations.StatusReadRuns : Prop :=
  ∀ (s : State) (o : OpCode) (n : PageNo) (r s0 s1 : Byte), o = 2 ∨ o = 13 → s.Undisturbed →
    s.Presents o n → s.blk.pstate = .active → s.AnswersAt 3 r → s.AnswersAt 5 s0 → s.AnswersAt 7 s1 →
    trace 10 s = [.csFall, .xfer s.cfg.opcStatus r, .xfer 0xFF s0, .xfer 0xFF s1, .csRise] ∧
    (pagesIs512 s.cfg s0 = true ↔ s0.getLsbD 0 = s.cfg.pagesizeBit512) ∧
    ∃ t, core.run 10 s = .next t ∧ t.dev = s.dev ∧ t.captured = s.captured ∧
      t.blk = { s.blk.finished o n s.port.cmdPayload with st0 := s0, st1 := s1, txData := 0xFF }

/-- GET_ID: five fillers after the opcode, and the five answers on the capture stream in the order received;
the status latch is not touched. -/
def Obligations.GetIdRuns : Prop :=
  ∀ (s : State) (n : PageNo) (r : Byte) (d : Nat → Byte), s.Undisturbed → s.Presents 3 n →
    s.blk.pstate = .active → s.AnswersAt 3 r → (∀ k < 5, s.AnswersAt (5 + 2 * k) (d k)) →
    trace 16 s = [.csFall, .xfer s.cfg.opcId r, .xfer 0xFF (d 0), .xfer 0xFF (d 1), .xfer 0xFF (d 2),
      .xfer 0xFF (d 3), .xfer 0xFF (d 4), .csRise] ∧
    ∃ t, core.run 16 s = .next t ∧ t.dev = s.dev ∧
      t.captured = s.captured ++ [(0, d 0), (1, d 1), (2, d 2), (3, d 3), (4, d 4)] ∧
      t.blk = { s.blk.finished 3 n s.port.cmdPayload with txData := 0xFF, rdIdx := 4, rdData := d 4 }

/-- WAIT_READY: the opcode once, then pairs until the first whose first byte has bit 7 set, and that pair is
left in the status latch. -/
def Obligations.WaitReadyRuns : Prop :=
  ∀ (s : State) (n : PageNo) (q : Nat) (r : Byte) (a b : Nat → Byte), s.Undisturbed → s.Presents 1 n →
    s.blk.pstate = .active → s.AnswersAt 3 r → s.PollAnswers 5 q a b → ReadyAtLast s.cfg q a →
    trace (6 + 4 * q) s = pollEvents s.cfg q r a b ∧
    ∃ t, core.run (6 + 4 * q) s = .next t ∧ t.dev = s.dev ∧ t.captured = s.captured ∧
      t.blk = { s.blk.finished 1 n s.port.cmdPayload with
        st0 := a (q - 1), st1 := b (q - 1), txData := 0xFF, pollCnt := q - 1 }

/-- SET_PAGESIZE_512 and SET_PAGESIZE_528: the magic frame, then the wait-ready; write-protect stays
asserted throughout. -/
def Obligations.SetPagesizeRuns : Prop :=
  ∀ (s : State) (n : PageNo) (q : Nat) (x a b : Nat → Byte) (y : Byte), s.Undisturbed →
    s.blk.pstate = .active → (∀ k < 4, s.AnswersAt (3 + 2 * k) (x k)) → s.AnswersAt 13 y →
    s.PollAnswers 15 q a b → ReadyAtLast s.cfg q a →
    ∀ row ∈ ([(4, s.cfg.seqPagesize512), (5, s.cfg.seqPagesize528)] : List (OpCode × Magic)),
      s.Presents row.1 n →
      trace (16 + 4 * q) s = magicEvents row.2 x ++ pollEvents s.cfg q y a b ∧
      ∃ t, core.run (16 + 4 * q) s = .next t ∧ t.dev = s.dev ∧ t.captured = s.captured ∧
        t.blk = { s.blk.finished row.1 n s.port.cmdPayload with
          st0 := a (q - 1), st1 := b (q - 1), txData := 0xFF, pollCnt := q - 1 }

/-- ERASE_CHIP: write-protect is released before the magic frame and asserted after the wait-ready. The page
field is ignored. -/
def Obligations.EraseChipRuns : Prop :=
  ∀ (s : State) (n : PageNo) (q : Nat) (x a b : Nat → Byte) (y : Byte), s.Undisturbed → s.Presents 8 n →
    s.blk.pstate = .active → (∀ k < 4, s.AnswersAt (4 + 2 * k) (x k)) → s.AnswersAt 14 y →
    s.PollAnswers 16 q a b → ReadyAtLast s.cfg q a →
    trace (18 + 4 * q) s =
      [.wpRise] ++ magicEvents s.cfg.seqChipErase x ++ pollEvents s.cfg q y a b ++ [.wpFall] ∧
    ∃ t, core.run (18 + 4 * q) s = .next t ∧ t.dev = s.dev ∧ t.captured = s.captured ∧
      t.blk = { s.blk.finished 8 n s.port.cmdPayload with
        st0 := a (q - 1), st1 := b (q - 1), txData := 0xFF, pollCnt := q - 1 }

/-- READ_PAGE: the opcode and the packed address, 512 fillers, and the 512 answers on the capture stream,
numbered 0 to 511 in the order received; the status latch is not touched. -/
def Obligations.ReadPageRuns : Prop :=
  ∀ (s : State) (n : PageNo) (x d : Nat → Byte), s.Undisturbed → s.Presents 6 n →
    s.blk.pstate = .active → (s.cfg.rangeCheck = true → n.toNat < 8192) →
    (∀ k < 4, s.AnswersAt (3 + 2 * k) (x k)) → (∀ k < 512, s.AnswersAt (11 + 2 * k) (d k)) →
    trace 1036 s = headerEvents s.cfg.opcReadLf n x ++
      (List.range 512).map (fun k => .xfer 0xFF (d k)) ++ [.csRise] ∧
    ∃ t, core.run 1036 s = .next t ∧ t.dev = s.dev ∧
      t.captured = s.captured ++ (List.range 512).map (fun k => (BitVec.ofNat 9 k, d k)) ∧
      t.blk = { s.blk.finished 6 n s.port.cmdPayload with
        txData := 0xFF, rdIdx := 511, rdData := d 511 }

/-- WRITE_PAGE: write-protect is released, the program frame carries the packed address and the payload
presented with the command, byte 0 first, and after the wait-ready write-protect is asserted again. -/
def Obligations.WritePageRuns : Prop :=
  ∀ (s : State) (n : PageNo) (q : Nat) (x d a b : Nat → Byte) (y : Byte), s.Undisturbed →
    s.Presents 7 n → s.blk.pstate = .active → (s.cfg.rangeCheck = true → n.toNat < 8192) →
    (∀ k < 4, s.AnswersAt (4 + 2 * k) (x k)) → (∀ k < 512, s.AnswersAt (12 + 2 * k) (d k)) →
    s.AnswersAt 1038 y → s.PollAnswers 1040 q a b → ReadyAtLast s.cfg q a →
    trace (1042 + 4 * q) s =
      [.wpRise] ++ headerEvents s.cfg.opcProg n x ++
      (List.range 512).map (fun k => .xfer (s.port.cmdPayload.bytes.getD k 0) (d k)) ++ [.csRise] ++
      pollEvents s.cfg q y a b ++ [.wpFall] ∧
    ∃ t, core.run (1042 + 4 * q) s = .next t ∧ t.dev = s.dev ∧ t.captured = s.captured ∧
      t.blk = { s.blk.finished 7 n s.port.cmdPayload with
        st0 := a (q - 1), st1 := b (q - 1), txData := 0xFF, pollCnt := q - 1 }

/-- A wait for `tx_done` that never comes, with no limit set, never ends: the operation stays where it is,
busy, for any number of ticks; and so does a poll of a device that never reports READY. -/
def Obligations.UnboundedWaitsHang : Prop :=
  (∀ (s : State) (p : Prim) (x : Byte), s.Undisturbed → s.At s.blk.running p →
    s.blk.byteToSend p = some x → s.blk.sub = .wait → s.port.txDone = false →
    (∀ e ∈ s.wire, e.1 = false) → s.cfg.busTimeoutTicks = 0 → s.blk.txStart = false →
    s.blk.rdValid = false → s.blk.done = false →
    ∀ k, ∃ t, core.run k s = .next t ∧ t.blk = { s.blk with busCnt := s.blk.busCnt + k }) ∧
  (∀ (s : State) (q : Nat) (a b : Nat → Byte), s.Undisturbed → s.At s.blk.running .poll →
    s.blk.sub = .start → s.blk.idx = 0 → s.PollAnswers 1 q a b → s.cfg.pollLimit = 0 →
    (∀ j < q, readyBit (a j) = false) →
    ∀ k ≤ q, ∃ t, core.run (4 * k) s = .next t ∧ t.At s.blk.running .poll ∧
      t.blk.csN = s.blk.csN ∧ t.blk.pollCnt = s.blk.pollCnt + k)

/-! ## The flash device -/

/-- What moves the device between its power states: `B0` with the two sleep opcodes on a device that responds
and is ready (on a busy one it is the model's choice that nothing is known, log 18), with the resume opcode on
one in deep power-down; `B6`, the pulse of no byte, or any other frame at all, and any bytes that are no
frame, on one in ultra-deep power-down whose chip-select pulse was long enough. The array, the page size and
everything else survive; the internal buffer is lost in ultra-deep power-down. -/
def Obligations.DeviceSleepsAndWakes : Prop :=
  ∀ s : State, s.dev.lost = false →
    let d : RefDev := { s.dev with atEnd := false }
    (s.dev.awake = true → s.dev.ready = true →
      exec (.frameB0 .dpd) s = .next (s.setDev { d with dps := .dpd }) ∧
      exec (.frameB0 .udpd) s = .next (s.setDev { d with dps := .udpd, buffer := none })) ∧
    (s.dev.dps = .dpd → exec (.frameB0 .resumeDpd) s =
      .next (s.setDev { d with dps := .active, deafUntil := s.dev.now + s.cfg.tRdpdNs })) ∧
    (s.dev.dps = .udpd → s.dev.tCsLow + s.cfg.tCsluNs ≤ s.dev.now →
      let woken := s.setDev { d with dps := .active, deafUntil := s.dev.now + s.cfg.tXudpdNs }
      (∀ i : Instr, i.isFrame = true → exec i s = .next woken) ∧
      (s.deviceTurn = true → step s = .next woken))

/-- The identification read, the status reads and the page read change nothing at the device when they end:
no byte of the array, no register of it. So on a device that is ready, or does not respond; a busy device
that responds goes on with its cycle after a status read, and under the second reading of log 27, the model's
choice, that cycle is then an abandoned one. What another read does to a busy device is
`Obligations.UndescribedSituations`. -/
def Obligations.ReadingFramesChangeNothing : Prop :=
  ∀ (s : State) (i : Instr), s.dev.lost = false → s.dev.dps ≠ .udpd →
    let d : RefDev := { s.dev with atEnd := false }
    ((∃ r, i = .frameB2 r) ∨ (∃ q, i = .frameB3 q) ∨ (∃ a b, i = .frameB4 a b) →
      (s.dev.awake = true → s.dev.ready = true) → exec i s = .next (s.setDev d)) ∧
    (i = .frameB2 .status ∨ (∃ q, i = .frameB3 q) → s.dev.awake = true →
      (s.dev.lateCommit = true → exec i s = .next (s.setDev d)) ∧
      ∀ q, s.dev.lateCommit = false → s.dev.pending = some q → exec i s = .next (s.setDev
        { d with pending := some .abandoned, pszKnown := s.dev.pszKnown && q.keepsPageSize }))

/-- The program frame. On a device that responds, is ready and is not write-protected: the page becomes
indeterminate and its programming is pending for as many polls as the next busy length says; with a busy
length of 0 it is done at once. With write-protect asserted the frame has no effect. Address byte 2 is
ignored. In every case no byte outside the page changes. The model's choices: in the 528-byte configuration,
or while the configuration is not known, the page stays indeterminate when the cycle commits (log 23, log 27);
the internal buffer is filled with the page's data, and not under write-protect (log 19); write-protect is
looked at when the frame has ended (log 26). -/
def Obligations.ProgramFrame : Prop :=
  ∀ (s : State) (a : BitVec 13) (b : Byte) (data : Payload) (k : Nat) (rest : List Nat), s.Inv →
    s.dev.lost = false → s.dev.awake = true → s.dev.ready = true → s.dev.busyPlan = k :: rest →
    ∃ t, exec (.frameB5 a b data) s = .next t ∧ t = s.setDev t.dev ∧ t.dev.lost = false ∧
      (∀ x, x < 512 * a.toNat ∨ 512 * a.toNat + 512 ≤ x →
        Memory.get t.dev.erasedByte t.dev.mem x = Memory.get s.dev.erasedByte s.dev.mem x) ∧
      (∀ p, p ≠ a → t.dev.indet.mem p = s.dev.indet.mem p) ∧
      (s.blk.wpN = false → t.dev = { s.dev with atEnd := false }) ∧
      (s.blk.wpN = true → k ≠ 0 →
        t.dev.pending = some (.prog a data) ∧ t.dev.busyLeft = k ∧ t.dev.busyPlan = rest ∧
        t.dev.mem = s.dev.mem ∧ t.dev.indet.mem a = true ∧ t.dev.buffer = some data) ∧
      (s.blk.wpN = true → k = 0 → s.dev.pszKnown = true → s.dev.psz = s.cfg.pagesizeBit512 →
        t.dev.pending = none ∧ t.dev.busyPlan = rest ∧ t.dev.indet.mem a = false ∧
        ∀ i < 512, Memory.get t.dev.erasedByte t.dev.mem (512 * a.toNat + i) = data.bytes.getD i 0) ∧
      (s.blk.wpN = true → k = 0 → s.dev.pszKnown = false ∨ s.dev.psz ≠ s.cfg.pagesizeBit512 →
        t.dev.pending = none ∧ t.dev.busyPlan = rest ∧ t.dev.indet.mem a = true)

/-- The magic frames on a device that responds and is ready, `k` being the next busy length. Chip erase
without write-protect makes every page indeterminate until it is committed; the page-size frames are not gated
by the line. The model's choices: with `k = 0` each is committed at once, as rule R80 has it of the program
frame (log 23); chip erase has no effect under write-protect, as rule R80 has it too, the line being looked at
when the frame has ended (log 26); a page-size change that commits makes the configuration known (log 27). -/
def Obligations.MagicFrames : Prop :=
  ∀ (s : State) (k : Nat) (rest : List Nat), s.dev.lost = false → s.dev.awake = true →
    s.dev.ready = true → s.dev.busyPlan = k :: rest →
    let d : RefDev := { s.dev with atEnd := false, busyLeft := k, busyPlan := rest }
    let setPs (b : Bool) : RefDev :=
      if k = 0 then { d with psz := b, pszKnown := true } else { d with pending := some (.setPs b) }
    (s.blk.wpN = true → exec (.frameB1 .chipErase) s = .next (s.setDev
      (if k = 0 then { d with mem := [], indet := PageSet.none }
       else { d with indet := PageSet.all, pending := some .eraseAll }))) ∧
    (s.blk.wpN = false → exec (.frameB1 .chipErase) s =
      .next (s.setDev { s.dev with atEnd := false })) ∧
    exec (.frameB1 .pagesize512) s = .next (s.setDev (setPs s.cfg.pagesizeBit512)) ∧
    exec (.frameB1 .pagesize528) s = .next (s.setDev (setPs (!s.cfg.pagesizeBit512)))

/-- A device that does not respond: in deep power-down every frame but the resume frame has no effect, and
while it still wakes every frame, and so for bytes that are no frame; each transfer is answered with any value
and is only recorded. -/
def Obligations.DeafDeviceIgnoresFrames : Prop :=
  ∀ (s : State) (i : Instr), s.dev.lost = false → i.isFrame = true →
    let same : Outcome := .next (s.setDev { s.dev with atEnd := false })
    (s.dev.dps = .dpd → i ≠ .frameB0 .resumeDpd → exec i s = same) ∧
    (s.dev.dps = .active → s.dev.now < s.dev.deafUntil → exec i s = same) ∧
    (∀ e, s.dev.dps = .dpd → s.deviceTurn = true → heardFrame s.cfg s.dev.frame = .error e →
      step s = same) ∧
    (s.dev.dps = .active → s.dev.now < s.dev.deafUntil → s.deviceTurn = true → step s = same) ∧
    (s.dev.awake = false → ∀ c x free,
      s.dev.exchange c false x free = (free, { s.dev with frame := s.dev.frame ++ [x] }))

/-- Where the rules give the device's further behaviour no meaning the model knows nothing of it any more
(logs 7, 16 and 18): a resume frame or an empty frame to a device that responds, any frame but a status read
to a busy one, bytes that are no frame even without the fixed address bits, a wake pulse that is too short.
From then on frames have no effect that is known, and every answer is any value. -/
def Obligations.UndescribedSituations : Prop :=
  ∀ s : State,
    let gone : Outcome := .next (s.setDev { s.dev with atEnd := false, lost := true })
    (s.dev.lost = false → s.dev.awake = true →
      exec (.frameB0 .resumeDpd) s = gone ∧ exec .frameB6 s = gone ∧
      (s.dev.ready = false → ∀ i : Instr, i.isFrame = true → i ≠ .frameB2 .status →
        (∀ q, i ≠ .frameB3 q) → exec i s = gone) ∧
      (∀ e, s.deviceTurn = true → heardFrame s.cfg s.dev.frame = .error e → step s = gone)) ∧
    (s.dev.lost = false → s.dev.dps = .udpd → s.dev.now < s.dev.tCsLow + s.cfg.tCsluNs →
      (∀ i : Instr, i.isFrame = true → exec i s = gone) ∧ (s.deviceTurn = true → step s = gone)) ∧
    (s.dev.lost = true →
      (∀ i : Instr, i.isFrame = true → exec i s = .next (s.setDev { s.dev with atEnd := false })) ∧
      (s.deviceTurn = true → step s = .next (s.setDev { s.dev with atEnd := false })) ∧
      ∀ c x free, s.dev.exchange c false x free = (free, { s.dev with frame := s.dev.frame ++ [x] }))

/-- The status answers of a device that responds, by the number `k` of bytes received since `CS↓`: at an odd
`k` byte 0, which counts busy down and commits what is pending when none is left; at an even `k` of 2 or more
byte 1, the filler. Bit 0 of byte 0 is the page-size bit, or any value while that is not known (log 27). -/
def Obligations.StatusAnswers : Prop :=
  ∀ (c : Cfg) (d : RefDev) (x free : Byte) (l : List Byte), d.lost = false → d.awake = true →
    d.frame = c.opcStatus :: l →
    let r := (d.exchange c false x free).1
    let d' := (d.exchange c false x free).2
    (l.length % 2 = 0 → 0 < d.busyLeft → r.getLsbD 7 = false ∧
      d' = { d with busyLeft := d.busyLeft - 1, frame := d.frame ++ [x] }) ∧
    (l.length % 2 = 0 → d.busyLeft = 0 → r.getLsbD 7 = true ∧
      d' = { d.commit c with frame := d.frame ++ [x] }) ∧
    (l.length % 2 = 0 → r.getLsbD 0 = if d'.pszKnown then d'.psz else free.getLsbD 0) ∧
    (l.length % 2 = 0 → ∀ j, 1 ≤ j → j ≤ 6 → r.getLsbD j = d.u0.getLsbD j) ∧
    (l.length % 2 = 1 → r = d.u1 ∧ d' = { d with frame := d.frame ++ [x] })

/-- The commits: a program in the 512-byte configuration replaces the page, and no other byte, and ends its
indeterminacy; an erase leaves every cell at `ERASED_BYTE` and no page indeterminate; a page-size change writes
the configuration bit and nothing in the array. Then nothing is pending. The model's choices: in the 528-byte
configuration, or while the configuration is not known, the page stays indeterminate (rule R81 against rule
R82 read alone; logs 23 and 27); a cycle that was abandoned under the second reading of log 27 only ends. -/
def Obligations.Commits : Prop :=
  ∀ (c : Cfg) (d : RefDev), d.Inv →
    (d.commit c).pending = none ∧
    (∀ p data, d.pending = some (.prog p data) → d.pszKnown = true → d.psz = c.pagesizeBit512 →
      (∀ i < 512, Memory.get d.erasedByte (d.commit c).mem (512 * p.toNat + i) = data.bytes.getD i 0) ∧
      (∀ x, x < 512 * p.toNat ∨ 512 * p.toNat + 512 ≤ x →
        Memory.get d.erasedByte (d.commit c).mem x = Memory.get d.erasedByte d.mem x) ∧
      (d.commit c).indet.mem p = false ∧
      ∀ p', p' ≠ p → (d.commit c).indet.mem p' = d.indet.mem p') ∧
    (∀ p data, d.pending = some (.prog p data) → d.pszKnown = false ∨ d.psz ≠ c.pagesizeBit512 →
      (d.commit c).indet.mem p = true) ∧
    (d.pending = some .eraseAll →
      (∀ x, Memory.get d.erasedByte (d.commit c).mem x = d.erasedByte) ∧
      ∀ p, (d.commit c).indet.mem p = false) ∧
    (∀ b, d.pending = some (.setPs b) → d.commit c = { d with psz := b, pszKnown := true, pending := none }) ∧
    (d.pending = some .abandoned → d.commit c = { d with pending := none })

/-- The identification answers of a device that responds, busy or not: the five bytes of the record in order,
and any value after the fifth. -/
def Obligations.IdAnswers : Prop :=
  ∀ (c : Cfg) (d : RefDev) (x free : Byte) (l : List Byte), d.lost = false → d.awake = true →
    d.frame = c.opcId :: l → c.opcId ≠ c.opcStatus →
    d.exchange c false x free =
      (if l.length < 5 then
        [d.idrec.b0, d.idrec.b1, d.idrec.b2, d.idrec.b3, d.idrec.b4].getD l.length 0
        else free, { d with frame := d.frame ++ [x] })

/-- The read answers of a device that responds and is ready, in the 512-byte configuration: the 512 transfers
after the address bytes `a0`, `a1`, `a2` answer the bytes of the page `((a0 & 0x3F) << 7) | (a1 >> 1)` in
order, `a2` and bit 0 of `a1` being ignored. A page that is indeterminate, a busy device, the 528-byte
configuration and one that is not known (log 27) answer any value. -/
def Obligations.ReadAnswers : Prop :=
  ∀ (c : Cfg) (d : RefDev) (x free a0 a1 a2 : Byte) (l : List Byte), d.lost = false → d.awake = true →
    d.frame = c.opcReadLf :: a0 :: a1 :: a2 :: l → c.opcReadLf ≠ c.opcStatus → c.opcReadLf ≠ c.opcId →
    l.length < 512 →
    let p : BitVec 13 := BitVec.ofNat 13 (((a0.toNat &&& 0x3F) <<< 7) ||| (a1.toNat >>> 1))
    (d.exchange c false x free).2 = { d with frame := d.frame ++ [x] } ∧
    (d.indet.mem p = false → d.busyLeft = 0 → d.pending = none → d.pszKnown = true →
      d.psz = c.pagesizeBit512 →
      (d.exchange c false x free).1 = Memory.get d.erasedByte d.mem (512 * p.toNat + l.length)) ∧
    (d.indet.mem p = true ∨ 0 < d.busyLeft ∨ d.pending ≠ none ∨ d.pszKnown = false ∨
      d.psz ≠ c.pagesizeBit512 → (d.exchange c false x free).1 = free)

/-- What is programmed reads back. A program frame of page `n` sent to a device that responds and is ready,
then a status poll of more pairs than the busy length, then a page read of the same number: the answers to
its 512 fillers are exactly the data, whatever the free values are. -/
def Obligations.ProgrammedPageReadsBack : Prop :=
  ∀ (s : State) (n : PageNo) (data : Payload) (k q : Nat) (rest : List Nat) (free : Nat → Byte), s.Inv →
    s.cfg.CatalogDistinct → s.dev.lost = false → s.dev.awake = true → s.dev.ready = true →
    s.dev.busyPlan = k :: rest → k < q → s.blk.wpN = true → s.dev.pszKnown = true →
    s.dev.psz = s.cfg.pagesizeBit512 →
    ∃ t1 t2, exec (.frameB5 (n.extractLsb' 0 13) (n.extractLsb' 0 8) data) s = .next t1 ∧
      exec (.frameB3 q) (t1.setDev (RefDev.exchanges s.cfg free (s.cfg.opcStatus :: fillers (2 * q))
        t1.dev.csFall).2) = .next t2 ∧
      (RefDev.exchanges s.cfg free
        ([s.cfg.opcReadLf, packAddr n .a0, packAddr n .a1, packAddr n .a2] ++ fillers 512)
        t2.dev.csFall).1.drop 4 = data.bytes

/-- What the reference device sees of a clock tick, whether or not a transfer is in flight: time passes;
chip-select falling empties its frame and notes the time; chip-select rising ends the frame, and a transfer
still in flight then leaves nothing known of the device (log 17); a reset pulse that met a device active, ready
and recovered, and lasted `T_RST_NS`, leaves it active and not yet responding for `T_REC_NS`, and any other
pulse leaves nothing known of it (log 18). A tick that leaves chip-select high leaves a device of which
something is known the frame and the array it had. -/
def Obligations.DeviceSeesLines : Prop :=
  ∀ s t : State, s.link = .refDev → s.deviceTurn = false → step s = .next t →
    let described : Prop := s.dev.dps = .active ∧ s.dev.ready = true ∧ s.dev.deafUntil ≤ s.dev.tRstLow ∧
      s.dev.tRstLow + s.cfg.tRstNs ≤ t.dev.now
    t.dev.now = s.dev.now + s.cfg.tClkNs ∧
    (s.blk.csN = true → t.blk.csN = false →
      t.dev.tCsLow = t.dev.now ∧ (s.inFlight = [] → t.dev.frame = [])) ∧
    (s.blk.csN = false → t.blk.csN = true →
      t.dev.atEnd = true ∧ t.dev.frame = s.dev.frame ∧ (s.inFlight ≠ [] → t.dev.lost = true)) ∧
    (s.blk.rstN = true → t.blk.rstN = false → t.dev.tRstLow = t.dev.now) ∧
    (s.blk.rstN = false → t.blk.rstN = true → s.dev.lost = false → t.blk.csN = s.blk.csN → described →
      t.dev.dps = .active ∧ t.dev.deafUntil = t.dev.now + s.cfg.tRecNs ∧ t.dev.lost = false) ∧
    (s.blk.rstN = false → t.blk.rstN = true → ¬ described → t.dev.lost = true) ∧
    (t.blk.csN = true → t.dev.lost = false → t.dev.frame = s.dev.frame ∧ t.dev.mem = s.dev.mem)

/-- The transport in front of the reference device. With no transfer in flight, a tick that starts none is
followed by no `tx_done`; a transfer started is answered by the device at the first `WAIT` tick, or after the
waits that the next latency names. A transfer in flight is counted down one wait a tick with no `tx_done`; when
none is left it is answered, and only for that tick: it is in flight no more, so without another transfer the
next tick is followed by no `tx_done`. The oldest is answered first, and a transfer started meanwhile waits
behind it. -/
def Obligations.TransportKeepsContract : Prop :=
  ∀ s t : State, s.link = .refDev → s.deviceTurn = false → step s = .next t →
    let started : List Flight := if t.blk.txStart then [⟨t.blk.txData, s.latency.headD 0⟩] else []
    t.latency = (if t.blk.txStart then s.latency.tail else s.latency) ∧
    (s.inFlight = [] → t.blk.txStart = false → t.port.txDone = false ∧ t.inFlight = []) ∧
    (s.inFlight = [] → t.blk.txStart = true →
      (s.latency.headD 0 = 0 → t.port.txDone = true ∧ t.inFlight = [] ∧
        (t.port.rxData, t.dev) = RefDev.exchange s.cfg s.blk.csN t.blk.txData
          (Config.freeByte s.freeUsed) { s.dev with now := s.dev.now + s.cfg.tClkNs }) ∧
      (∀ w, s.latency.headD 0 = w + 1 →
        t.port.txDone = false ∧ t.inFlight = [⟨t.blk.txData, w⟩])) ∧
    (∀ f rest, s.inFlight = f :: rest →
      (∀ w, f.waits = w + 1 → t.port.txDone = false ∧ t.inFlight = ⟨f.byte, w⟩ :: (rest ++ started) ∧
        t.dev = s.dev.seeTick s.cfg s.blk t.blk true) ∧
      (f.waits = 0 → t.port.txDone = true ∧ t.inFlight = rest ++ started ∧
        (t.port.rxData, t.dev) = RefDev.exchange s.cfg t.blk.csN f.byte (Config.freeByte s.freeUsed)
          (s.dev.seeTick s.cfg s.blk t.blk true)))
end

