-- ==== Sys2Proof/Laws/Decode.lean ====
section
/-! SUPPORT. The pieces of the two encodings: the command word, the header of an addressed frame, and which
instructions the frame decoder gives. -/

namespace Sys2Proof

/-! ### Command words -/

theorem commandWord_op (o : OpCode) (n : PageNo) : (commandWord o n).extractLsb' 16 4 = o := by
  refine BitVec.eq_of_getLsbD_eq fun j hj => ?_
  have h := BitVec.getLsbD_append (x := o) (y := n) (i := 16 + j)
  rw [BitVec.getLsbD_extractLsb']
  simp only [hj, decide_true, Bool.true_and]
  exact h.trans (by simp)

theorem commandWord_page (o : OpCode) (n : PageNo) : (commandWord o n).extractLsb' 0 16 = n := by
  refine BitVec.eq_of_getLsbD_eq fun j hj => ?_
  have h := BitVec.getLsbD_append (x := o) (y := n) (i := 0 + j)
  rw [BitVec.getLsbD_extractLsb']
  simp only [hj, decide_true, Bool.true_and]
  exact h.trans (by simp [hj])

/-- A command word is its code and its page field. -/
theorem commandWord_split (w : CommandWord) :
    commandWord (w.extractLsb' 16 4) (w.extractLsb' 0 16) = w := by
  unfold commandWord
  refine BitVec.eq_of_getLsbD_eq fun i hi => ?_
  rw [BitVec.getLsbD_append]
  by_cases h : i < 16
  · simp [h]
  · simp only [h, if_false]
    rw [BitVec.getLsbD_extractLsb']
    simp only [show i - 16 < 4 by omega, decide_true, Bool.true_and, show 16 + (i - 16) = i by omega]

/-- The encoder gives back the code and the page field. -/
theorem encode_commandOf (c : Cfg) (o : OpCode) (n : PageNo) :
    encode c (commandOf o n) = .command (commandWord o n) := by
  have ho : o = 0 ∨ o = 1 ∨ o = 2 ∨ o = 3 ∨ o = 4 ∨ o = 5 ∨ o = 6 ∨ o = 7 ∨ o = 8 ∨ o = 9 ∨
      o = 10 ∨ o = 11 ∨ o = 12 ∨ o = 13 ∨ o = 14 ∨ o = 15 := by revert o; decide
  rcases ho with rfl | rfl | rfl | rfl | rfl | rfl | rfl | rfl | rfl | rfl | rfl | rfl | rfl | rfl |
    rfl | rfl <;> rfl

/-! ### Addressed frames -/

/-- The header of an addressed frame: the opcode, two bytes that hold the page number with the fixed bits
clear, and the low byte. -/
theorem headerBytes_spec (o : Byte) (a : BitVec 13) (b : Byte) :
    ∃ a0 a1, headerBytes (headerWord o a b) = [o, a0, a1, b] ∧ addressBitsClear a0 a1 = true ∧
      pageBits a0 a1 = a := by
  have bits : ∀ {w : Nat} {x y : BitVec w}, w ≤ 13 →
      (∀ i, i < w → x.getLsbD i = y.getLsbD i) → x = y :=
    fun _ h => BitVec.eq_of_getLsbD_eq h
  refine ⟨_, _, by
    unfold headerBytes
    congr 1
    · unfold headerWord
      refine bits (by omega) fun i hi => ?_
      simp only [BitVec.getLsbD_extractLsb', BitVec.getLsbD_append]
      interval_cases i <;> simp
    congr 3
    unfold headerWord
    refine bits (by omega) fun i hi => ?_
    simp only [BitVec.getLsbD_extractLsb', BitVec.getLsbD_append]
    interval_cases i <;> simp, ?_, ?_⟩
  · unfold addressBitsClear headerWord
    simp only [Bool.and_eq_true, beq_iff_eq]
    constructor <;>
    · refine bits (by omega) fun i hi => ?_
      simp only [BitVec.getLsbD_extractLsb', BitVec.getLsbD_append]
      interval_cases i <;> simp
  · unfold pageBits headerWord
    refine bits (by omega) fun i hi => ?_
    simp only [BitVec.getLsbD_extractLsb', BitVec.getLsbD_append]
    interval_cases i <;> simp

/-- The header read off three address bytes whose fixed bits are clear is those bytes again. -/
theorem headerBytes_pageBits (o a0 a1 a2 : Byte) (h : addressBitsClear a0 a1 = true) :
    headerBytes (headerWord o (pageBits a0 a1) a2) = [o, a0, a1, a2] := by
  unfold addressBitsClear at h
  simp only [Bool.and_eq_true, beq_iff_eq] at h
  obtain ⟨h0, h1⟩ := h
  have g0 : ∀ i, i < 2 → a0.getLsbD (6 + i) = false := by
    intro i hi
    have := congrArg (fun v => v.getLsbD i) h0
    simpa [hi] using this
  have g1 : a1.getLsbD 0 = false := by
    have := congrArg (fun v => v.getLsbD 0) h1
    simpa using this
  have k0 := g0 0 (by omega)
  have k1 := g0 1 (by omega)
  unfold headerBytes headerWord pageBits
  refine List.cons_eq_cons.2 ⟨?_, List.cons_eq_cons.2 ⟨?_, List.cons_eq_cons.2 ⟨?_,
    List.cons_eq_cons.2 ⟨?_, rfl⟩⟩⟩⟩ <;>
  · refine BitVec.eq_of_getLsbD_eq fun i hi => ?_
    simp only [BitVec.getLsbD_extractLsb', BitVec.getLsbD_append]
    interval_cases i <;> simp_all

/-- A frame of neither one nor four bytes goes to the long formats. -/
theorem decodeFrame_long (c : Cfg) {o : Byte} {rest : List Byte} (h : rest.length ≠ 0)
    (h3 : rest.length ≠ 3) : decodeFrame c (o :: rest) = decodeLong c o rest := by
  match rest with
  | [_] => rfl
  | [_, _] => rfl
  | [_, _, _] => simp at h3
  | _ :: _ :: _ :: _ :: _ => rfl

/-- What is a frame of rule R94 is heard as that frame. -/
theorem heard_of_decoded {c : Cfg} {bytes : List Byte} {i : Instr} (h : decodeFrame c bytes = .ok i) :
    heardFrame c bytes = .ok i := by
  simp [heardFrame, h]

/-- The frame decoder gives frames only. -/
theorem decoded_isFrame {c : Cfg} {bytes : List Byte} {i : Instr} (h : decodeFrame c bytes = .ok i) :
    i.isFrame = true := by
  have hl : ∀ o rest, decodeLong c o rest = .ok i → i.isFrame = true := by
    intro o rest h
    unfold decodeLong at h
    split at h
    · cases h; unfold pollFrame; split <;> rfl
    split at h
    · cases h; rfl
    split at h
    · simp only [decodeAddressed] at h
      split at h
      · cases h
      split at h
      · cases h; rfl
      split at h
      · split at h <;> cases h; rfl
      · cases h
    · cases h
  unfold decodeFrame at h
  split at h
  · cases h; rfl
  · simp only [decodeSleep] at h
    split at h
    · cases h; rfl
    split at h
    · cases h; rfl
    split at h <;> cases h; rfl
  · simp only [decodeMagic] at h
    split at h
    · cases h; rfl
    split at h
    · cases h; rfl
    split at h <;> cases h; rfl
  · exact hl _ _ h

/-- What is heard is a frame. -/
theorem heard_isFrame {c : Cfg} {bytes : List Byte} {i : Instr} (h : heardFrame c bytes = .ok i) :
    i.isFrame = true := by
  unfold heardFrame at h
  split at h
  · rename_i hd
    cases h
    exact decoded_isFrame hd
  · exact decoded_isFrame h

end Sys2Proof
end

