-- ==== Sys2Proof/Laws/State.lean ====
section
/-! SUPPORT. The field of every register update: what each shared operation on the controller's registers
writes and what it keeps, and the same for the updates of the whole state. -/

namespace Sys2Proof.Machine

/-! ### `Block.pulsesFall` -/

@[simp] theorem Block.pulsesFall_op (b : Block) : (b.pulsesFall).op = b.op := rfl
@[simp] theorem Block.pulsesFall_page (b : Block) : (b.pulsesFall).page = b.page := rfl
@[simp] theorem Block.pulsesFall_payload (b : Block) : (b.pulsesFall).payload = b.payload := rfl
@[simp] theorem Block.pulsesFall_pstate (b : Block) : (b.pulsesFall).pstate = b.pstate := rfl
@[simp] theorem Block.pulsesFall_csN (b : Block) : (b.pulsesFall).csN = b.csN := rfl
@[simp] theorem Block.pulsesFall_wpN (b : Block) : (b.pulsesFall).wpN = b.wpN := rfl
@[simp] theorem Block.pulsesFall_rstN (b : Block) : (b.pulsesFall).rstN = b.rstN := rfl
@[simp] theorem Block.pulsesFall_pos (b : Block) : (b.pulsesFall).pos = b.pos := rfl
@[simp] theorem Block.pulsesFall_sub (b : Block) : (b.pulsesFall).sub = b.sub := rfl
@[simp] theorem Block.pulsesFall_idx (b : Block) : (b.pulsesFall).idx = b.idx := rfl
@[simp] theorem Block.pulsesFall_timer (b : Block) : (b.pulsesFall).timer = b.timer := rfl
@[simp] theorem Block.pulsesFall_busCnt (b : Block) : (b.pulsesFall).busCnt = b.busCnt := rfl
@[simp] theorem Block.pulsesFall_pollCnt (b : Block) : (b.pulsesFall).pollCnt = b.pollCnt := rfl
@[simp] theorem Block.pulsesFall_st0 (b : Block) : (b.pulsesFall).st0 = b.st0 := rfl
@[simp] theorem Block.pulsesFall_st1 (b : Block) : (b.pulsesFall).st1 = b.st1 := rfl
@[simp] theorem Block.pulsesFall_done (b : Block) : (b.pulsesFall).done = false := rfl
@[simp] theorem Block.pulsesFall_txStart (b : Block) : (b.pulsesFall).txStart = false := rfl
@[simp] theorem Block.pulsesFall_rdValid (b : Block) : (b.pulsesFall).rdValid = false := rfl
@[simp] theorem Block.pulsesFall_err (b : Block) : (b.pulsesFall).err = b.err := rfl
@[simp] theorem Block.pulsesFall_busy (b : Block) : (b.pulsesFall).busy = b.busy := rfl
@[simp] theorem Block.pulsesFall_txData (b : Block) : (b.pulsesFall).txData = b.txData := rfl
@[simp] theorem Block.pulsesFall_rdIdx (b : Block) : (b.pulsesFall).rdIdx = b.rdIdx := rfl
@[simp] theorem Block.pulsesFall_rdData (b : Block) : (b.pulsesFall).rdData = b.rdData := rfl

/-! ### `Block.reject` -/

@[simp] theorem Block.reject_op (b : Block) (e : Err) : (b.reject e).op = b.op := rfl
@[simp] theorem Block.reject_page (b : Block) (e : Err) : (b.reject e).page = b.page := rfl
@[simp] theorem Block.reject_payload (b : Block) (e : Err) : (b.reject e).payload = b.payload := rfl
@[simp] theorem Block.reject_pstate (b : Block) (e : Err) : (b.reject e).pstate = b.pstate := rfl
@[simp] theorem Block.reject_csN (b : Block) (e : Err) : (b.reject e).csN = b.csN := rfl
@[simp] theorem Block.reject_wpN (b : Block) (e : Err) : (b.reject e).wpN = b.wpN := rfl
@[simp] theorem Block.reject_rstN (b : Block) (e : Err) : (b.reject e).rstN = b.rstN := rfl
@[simp] theorem Block.reject_pos (b : Block) (e : Err) : (b.reject e).pos = b.pos := rfl
@[simp] theorem Block.reject_sub (b : Block) (e : Err) : (b.reject e).sub = b.sub := rfl
@[simp] theorem Block.reject_idx (b : Block) (e : Err) : (b.reject e).idx = b.idx := rfl
@[simp] theorem Block.reject_timer (b : Block) (e : Err) : (b.reject e).timer = b.timer := rfl
@[simp] theorem Block.reject_busCnt (b : Block) (e : Err) : (b.reject e).busCnt = b.busCnt := rfl
@[simp] theorem Block.reject_pollCnt (b : Block) (e : Err) : (b.reject e).pollCnt = b.pollCnt := rfl
@[simp] theorem Block.reject_st0 (b : Block) (e : Err) : (b.reject e).st0 = b.st0 := rfl
@[simp] theorem Block.reject_st1 (b : Block) (e : Err) : (b.reject e).st1 = b.st1 := rfl
@[simp] theorem Block.reject_done (b : Block) (e : Err) : (b.reject e).done = true := rfl
@[simp] theorem Block.reject_txStart (b : Block) (e : Err) : (b.reject e).txStart = b.txStart := rfl
@[simp] theorem Block.reject_rdValid (b : Block) (e : Err) : (b.reject e).rdValid = b.rdValid := rfl
@[simp] theorem Block.reject_err (b : Block) (e : Err) : (b.reject e).err = e := rfl
@[simp] theorem Block.reject_busy (b : Block) (e : Err) : (b.reject e).busy = b.busy := rfl
@[simp] theorem Block.reject_txData (b : Block) (e : Err) : (b.reject e).txData = b.txData := rfl
@[simp] theorem Block.reject_rdIdx (b : Block) (e : Err) : (b.reject e).rdIdx = b.rdIdx := rfl
@[simp] theorem Block.reject_rdData (b : Block) (e : Err) : (b.reject e).rdData = b.rdData := rfl

/-! ### `Block.abort` -/

@[simp] theorem Block.abort_op (b : Block) (e : Err) : (b.abort e).op = b.op := rfl
@[simp] theorem Block.abort_page (b : Block) (e : Err) : (b.abort e).page = b.page := rfl
@[simp] theorem Block.abort_payload (b : Block) (e : Err) : (b.abort e).payload = b.payload := rfl
@[simp] theorem Block.abort_pstate (b : Block) (e : Err) : (b.abort e).pstate = b.pstate := rfl
@[simp] theorem Block.abort_csN (b : Block) (e : Err) : (b.abort e).csN = true := rfl
@[simp] theorem Block.abort_wpN (b : Block) (e : Err) : (b.abort e).wpN = false := rfl
@[simp] theorem Block.abort_rstN (b : Block) (e : Err) : (b.abort e).rstN = true := rfl
@[simp] theorem Block.abort_pos (b : Block) (e : Err) : (b.abort e).pos = 0 := rfl
@[simp] theorem Block.abort_sub (b : Block) (e : Err) : (b.abort e).sub = .start := rfl
@[simp] theorem Block.abort_idx (b : Block) (e : Err) : (b.abort e).idx = 0 := rfl
@[simp] theorem Block.abort_timer (b : Block) (e : Err) : (b.abort e).timer = b.timer := rfl
@[simp] theorem Block.abort_busCnt (b : Block) (e : Err) : (b.abort e).busCnt = b.busCnt := rfl
@[simp] theorem Block.abort_pollCnt (b : Block) (e : Err) : (b.abort e).pollCnt = b.pollCnt := rfl
@[simp] theorem Block.abort_st0 (b : Block) (e : Err) : (b.abort e).st0 = b.st0 := rfl
@[simp] theorem Block.abort_st1 (b : Block) (e : Err) : (b.abort e).st1 = b.st1 := rfl
@[simp] theorem Block.abort_done (b : Block) (e : Err) : (b.abort e).done = true := rfl
@[simp] theorem Block.abort_txStart (b : Block) (e : Err) : (b.abort e).txStart = false := rfl
@[simp] theorem Block.abort_rdValid (b : Block) (e : Err) : (b.abort e).rdValid = b.rdValid := rfl
@[simp] theorem Block.abort_err (b : Block) (e : Err) : (b.abort e).err = e := rfl
@[simp] theorem Block.abort_busy (b : Block) (e : Err) : (b.abort e).busy = false := rfl
@[simp] theorem Block.abort_txData (b : Block) (e : Err) : (b.abort e).txData = b.txData := rfl
@[simp] theorem Block.abort_rdIdx (b : Block) (e : Err) : (b.abort e).rdIdx = b.rdIdx := rfl
@[simp] theorem Block.abort_rdData (b : Block) (e : Err) : (b.abort e).rdData = b.rdData := rfl

/-! ### `Block.accept` -/

@[simp] theorem Block.accept_op (b : Block) (o : OpCode) (n : PageNo) (v : Payload) : (b.accept o n v).op = o := rfl
@[simp] theorem Block.accept_page (b : Block) (o : OpCode) (n : PageNo) (v : Payload) : (b.accept o n v).page = n := rfl
@[simp] theorem Block.accept_payload (b : Block) (o : OpCode) (n : PageNo) (v : Payload) : (b.accept o n v).payload = v := rfl
@[simp] theorem Block.accept_pstate (b : Block) (o : OpCode) (n : PageNo) (v : Payload) : (b.accept o n v).pstate = b.pstate := rfl
@[simp] theorem Block.accept_csN (b : Block) (o : OpCode) (n : PageNo) (v : Payload) : (b.accept o n v).csN = b.csN := rfl
@[simp] theorem Block.accept_wpN (b : Block) (o : OpCode) (n : PageNo) (v : Payload) : (b.accept o n v).wpN = b.wpN := rfl
@[simp] theorem Block.accept_rstN (b : Block) (o : OpCode) (n : PageNo) (v : Payload) : (b.accept o n v).rstN = b.rstN := rfl
@[simp] theorem Block.accept_pos (b : Block) (o : OpCode) (n : PageNo) (v : Payload) : (b.accept o n v).pos = 0 := rfl
@[simp] theorem Block.accept_sub (b : Block) (o : OpCode) (n : PageNo) (v : Payload) : (b.accept o n v).sub = .start := rfl
@[simp] theorem Block.accept_idx (b : Block) (o : OpCode) (n : PageNo) (v : Payload) : (b.accept o n v).idx = 0 := rfl
@[simp] theorem Block.accept_timer (b : Block) (o : OpCode) (n : PageNo) (v : Payload) : (b.accept o n v).timer = b.timer := rfl
@[simp] theorem Block.accept_busCnt (b : Block) (o : OpCode) (n : PageNo) (v : Payload) : (b.accept o n v).busCnt = 0 := rfl
@[simp] theorem Block.accept_pollCnt (b : Block) (o : OpCode) (n : PageNo) (v : Payload) : (b.accept o n v).pollCnt = 0 := rfl
@[simp] theorem Block.accept_st0 (b : Block) (o : OpCode) (n : PageNo) (v : Payload) : (b.accept o n v).st0 = b.st0 := rfl
@[simp] theorem Block.accept_st1 (b : Block) (o : OpCode) (n : PageNo) (v : Payload) : (b.accept o n v).st1 = b.st1 := rfl
@[simp] theorem Block.accept_done (b : Block) (o : OpCode) (n : PageNo) (v : Payload) : (b.accept o n v).done = b.done := rfl
@[simp] theorem Block.accept_txStart (b : Block) (o : OpCode) (n : PageNo) (v : Payload) : (b.accept o n v).txStart = b.txStart := rfl
@[simp] theorem Block.accept_rdValid (b : Block) (o : OpCode) (n : PageNo) (v : Payload) : (b.accept o n v).rdValid = b.rdValid := rfl
@[simp] theorem Block.accept_err (b : Block) (o : OpCode) (n : PageNo) (v : Payload) : (b.accept o n v).err = b.err := rfl
@[simp] theorem Block.accept_busy (b : Block) (o : OpCode) (n : PageNo) (v : Payload) : (b.accept o n v).busy = true := rfl
@[simp] theorem Block.accept_txData (b : Block) (o : OpCode) (n : PageNo) (v : Payload) : (b.accept o n v).txData = b.txData := rfl
@[simp] theorem Block.accept_rdIdx (b : Block) (o : OpCode) (n : PageNo) (v : Payload) : (b.accept o n v).rdIdx = b.rdIdx := rfl
@[simp] theorem Block.accept_rdData (b : Block) (o : OpCode) (n : PageNo) (v : Payload) : (b.accept o n v).rdData = b.rdData := rfl

/-! ### `Block.finish` -/

@[simp] theorem Block.finish_op (b : Block) (q : Option PState) : (b.finish q).op = b.op := rfl
@[simp] theorem Block.finish_page (b : Block) (q : Option PState) : (b.finish q).page = b.page := rfl
@[simp] theorem Block.finish_payload (b : Block) (q : Option PState) : (b.finish q).payload = b.payload := rfl
@[simp] theorem Block.finish_pstate (b : Block) (q : Option PState) : (b.finish q).pstate = q.getD b.pstate := rfl
@[simp] theorem Block.finish_csN (b : Block) (q : Option PState) : (b.finish q).csN = b.csN := rfl
@[simp] theorem Block.finish_wpN (b : Block) (q : Option PState) : (b.finish q).wpN = b.wpN := rfl
@[simp] theorem Block.finish_rstN (b : Block) (q : Option PState) : (b.finish q).rstN = b.rstN := rfl
@[simp] theorem Block.finish_pos (b : Block) (q : Option PState) : (b.finish q).pos = 0 := rfl
@[simp] theorem Block.finish_sub (b : Block) (q : Option PState) : (b.finish q).sub = b.sub := rfl
@[simp] theorem Block.finish_idx (b : Block) (q : Option PState) : (b.finish q).idx = b.idx := rfl
@[simp] theorem Block.finish_timer (b : Block) (q : Option PState) : (b.finish q).timer = b.timer := rfl
@[simp] theorem Block.finish_busCnt (b : Block) (q : Option PState) : (b.finish q).busCnt = b.busCnt := rfl
@[simp] theorem Block.finish_pollCnt (b : Block) (q : Option PState) : (b.finish q).pollCnt = b.pollCnt := rfl
@[simp] theorem Block.finish_st0 (b : Block) (q : Option PState) : (b.finish q).st0 = b.st0 := rfl
@[simp] theorem Block.finish_st1 (b : Block) (q : Option PState) : (b.finish q).st1 = b.st1 := rfl
@[simp] theorem Block.finish_done (b : Block) (q : Option PState) : (b.finish q).done = true := rfl
@[simp] theorem Block.finish_txStart (b : Block) (q : Option PState) : (b.finish q).txStart = b.txStart := rfl
@[simp] theorem Block.finish_rdValid (b : Block) (q : Option PState) : (b.finish q).rdValid = b.rdValid := rfl
@[simp] theorem Block.finish_err (b : Block) (q : Option PState) : (b.finish q).err = .ok := rfl
@[simp] theorem Block.finish_busy (b : Block) (q : Option PState) : (b.finish q).busy = false := rfl
@[simp] theorem Block.finish_txData (b : Block) (q : Option PState) : (b.finish q).txData = b.txData := rfl
@[simp] theorem Block.finish_rdIdx (b : Block) (q : Option PState) : (b.finish q).rdIdx = b.rdIdx := rfl
@[simp] theorem Block.finish_rdData (b : Block) (q : Option PState) : (b.finish q).rdData = b.rdData := rfl

/-! ### `Block.advance` -/

@[simp] theorem Block.advance_op (b : Block) : (b.advance).op = b.op := rfl
@[simp] theorem Block.advance_page (b : Block) : (b.advance).page = b.page := rfl
@[simp] theorem Block.advance_payload (b : Block) : (b.advance).payload = b.payload := rfl
@[simp] theorem Block.advance_pstate (b : Block) : (b.advance).pstate = b.pstate := rfl
@[simp] theorem Block.advance_csN (b : Block) : (b.advance).csN = b.csN := rfl
@[simp] theorem Block.advance_wpN (b : Block) : (b.advance).wpN = b.wpN := rfl
@[simp] theorem Block.advance_rstN (b : Block) : (b.advance).rstN = b.rstN := rfl
@[simp] theorem Block.advance_pos (b : Block) : (b.advance).pos = b.pos + 1 := rfl
@[simp] theorem Block.advance_sub (b : Block) : (b.advance).sub = b.sub := rfl
@[simp] theorem Block.advance_idx (b : Block) : (b.advance).idx = b.idx := rfl
@[simp] theorem Block.advance_timer (b : Block) : (b.advance).timer = b.timer := rfl
@[simp] theorem Block.advance_busCnt (b : Block) : (b.advance).busCnt = b.busCnt := rfl
@[simp] theorem Block.advance_pollCnt (b : Block) : (b.advance).pollCnt = b.pollCnt := rfl
@[simp] theorem Block.advance_st0 (b : Block) : (b.advance).st0 = b.st0 := rfl
@[simp] theorem Block.advance_st1 (b : Block) : (b.advance).st1 = b.st1 := rfl
@[simp] theorem Block.advance_done (b : Block) : (b.advance).done = b.done := rfl
@[simp] theorem Block.advance_txStart (b : Block) : (b.advance).txStart = b.txStart := rfl
@[simp] theorem Block.advance_rdValid (b : Block) : (b.advance).rdValid = b.rdValid := rfl
@[simp] theorem Block.advance_err (b : Block) : (b.advance).err = b.err := rfl
@[simp] theorem Block.advance_busy (b : Block) : (b.advance).busy = b.busy := rfl
@[simp] theorem Block.advance_txData (b : Block) : (b.advance).txData = b.txData := rfl
@[simp] theorem Block.advance_rdIdx (b : Block) : (b.advance).rdIdx = b.rdIdx := rfl
@[simp] theorem Block.advance_rdData (b : Block) : (b.advance).rdData = b.rdData := rfl

/-! ### `Block.startTransfer` -/

@[simp] theorem Block.startTransfer_op (b : Block) (x : Byte) : (b.startTransfer x).op = b.op := rfl
@[simp] theorem Block.startTransfer_page (b : Block) (x : Byte) : (b.startTransfer x).page = b.page := rfl
@[simp] theorem Block.startTransfer_payload (b : Block) (x : Byte) : (b.startTransfer x).payload = b.payload := rfl
@[simp] theorem Block.startTransfer_pstate (b : Block) (x : Byte) : (b.startTransfer x).pstate = b.pstate := rfl
@[simp] theorem Block.startTransfer_csN (b : Block) (x : Byte) : (b.startTransfer x).csN = b.csN := rfl
@[simp] theorem Block.startTransfer_wpN (b : Block) (x : Byte) : (b.startTransfer x).wpN = b.wpN := rfl
@[simp] theorem Block.startTransfer_rstN (b : Block) (x : Byte) : (b.startTransfer x).rstN = b.rstN := rfl
@[simp] theorem Block.startTransfer_pos (b : Block) (x : Byte) : (b.startTransfer x).pos = b.pos := rfl
@[simp] theorem Block.startTransfer_sub (b : Block) (x : Byte) : (b.startTransfer x).sub = .wait := rfl
@[simp] theorem Block.startTransfer_idx (b : Block) (x : Byte) : (b.startTransfer x).idx = b.idx := rfl
@[simp] theorem Block.startTransfer_timer (b : Block) (x : Byte) : (b.startTransfer x).timer = b.timer := rfl
@[simp] theorem Block.startTransfer_busCnt (b : Block) (x : Byte) : (b.startTransfer x).busCnt = 0 := rfl
@[simp] theorem Block.startTransfer_pollCnt (b : Block) (x : Byte) : (b.startTransfer x).pollCnt = b.pollCnt := rfl
@[simp] theorem Block.startTransfer_st0 (b : Block) (x : Byte) : (b.startTransfer x).st0 = b.st0 := rfl
@[simp] theorem Block.startTransfer_st1 (b : Block) (x : Byte) : (b.startTransfer x).st1 = b.st1 := rfl
@[simp] theorem Block.startTransfer_done (b : Block) (x : Byte) : (b.startTransfer x).done = b.done := rfl
@[simp] theorem Block.startTransfer_txStart (b : Block) (x : Byte) : (b.startTransfer x).txStart = true := rfl
@[simp] theorem Block.startTransfer_rdValid (b : Block) (x : Byte) : (b.startTransfer x).rdValid = b.rdValid := rfl
@[simp] theorem Block.startTransfer_err (b : Block) (x : Byte) : (b.startTransfer x).err = b.err := rfl
@[simp] theorem Block.startTransfer_busy (b : Block) (x : Byte) : (b.startTransfer x).busy = b.busy := rfl
@[simp] theorem Block.startTransfer_txData (b : Block) (x : Byte) : (b.startTransfer x).txData = x := rfl
@[simp] theorem Block.startTransfer_rdIdx (b : Block) (x : Byte) : (b.startTransfer x).rdIdx = b.rdIdx := rfl
@[simp] theorem Block.startTransfer_rdData (b : Block) (x : Byte) : (b.startTransfer x).rdData = b.rdData := rfl

/-! ### `Block.csAssert` -/

@[simp] theorem Block.csAssert_op (b : Block) : (b.csAssert).op = b.op := rfl
@[simp] theorem Block.csAssert_page (b : Block) : (b.csAssert).page = b.page := rfl
@[simp] theorem Block.csAssert_payload (b : Block) : (b.csAssert).payload = b.payload := rfl
@[simp] theorem Block.csAssert_pstate (b : Block) : (b.csAssert).pstate = b.pstate := rfl
@[simp] theorem Block.csAssert_csN (b : Block) : (b.csAssert).csN = false := rfl
@[simp] theorem Block.csAssert_wpN (b : Block) : (b.csAssert).wpN = b.wpN := rfl
@[simp] theorem Block.csAssert_rstN (b : Block) : (b.csAssert).rstN = b.rstN := rfl
@[simp] theorem Block.csAssert_pos (b : Block) : (b.csAssert).pos = b.pos + 1 := rfl
@[simp] theorem Block.csAssert_sub (b : Block) : (b.csAssert).sub = b.sub := rfl
@[simp] theorem Block.csAssert_idx (b : Block) : (b.csAssert).idx = b.idx := rfl
@[simp] theorem Block.csAssert_timer (b : Block) : (b.csAssert).timer = b.timer := rfl
@[simp] theorem Block.csAssert_busCnt (b : Block) : (b.csAssert).busCnt = b.busCnt := rfl
@[simp] theorem Block.csAssert_pollCnt (b : Block) : (b.csAssert).pollCnt = b.pollCnt := rfl
@[simp] theorem Block.csAssert_st0 (b : Block) : (b.csAssert).st0 = b.st0 := rfl
@[simp] theorem Block.csAssert_st1 (b : Block) : (b.csAssert).st1 = b.st1 := rfl
@[simp] theorem Block.csAssert_done (b : Block) : (b.csAssert).done = b.done := rfl
@[simp] theorem Block.csAssert_txStart (b : Block) : (b.csAssert).txStart = b.txStart := rfl
@[simp] theorem Block.csAssert_rdValid (b : Block) : (b.csAssert).rdValid = b.rdValid := rfl
@[simp] theorem Block.csAssert_err (b : Block) : (b.csAssert).err = b.err := rfl
@[simp] theorem Block.csAssert_busy (b : Block) : (b.csAssert).busy = b.busy := rfl
@[simp] theorem Block.csAssert_txData (b : Block) : (b.csAssert).txData = b.txData := rfl
@[simp] theorem Block.csAssert_rdIdx (b : Block) : (b.csAssert).rdIdx = b.rdIdx := rfl
@[simp] theorem Block.csAssert_rdData (b : Block) : (b.csAssert).rdData = b.rdData := rfl

/-! ### `Block.csRelease` -/

@[simp] theorem Block.csRelease_op (b : Block) : (b.csRelease).op = b.op := rfl
@[simp] theorem Block.csRelease_page (b : Block) : (b.csRelease).page = b.page := rfl
@[simp] theorem Block.csRelease_payload (b : Block) : (b.csRelease).payload = b.payload := rfl
@[simp] theorem Block.csRelease_pstate (b : Block) : (b.csRelease).pstate = b.pstate := rfl
@[simp] theorem Block.csRelease_csN (b : Block) : (b.csRelease).csN = true := rfl
@[simp] theorem Block.csRelease_wpN (b : Block) : (b.csRelease).wpN = b.wpN := rfl
@[simp] theorem Block.csRelease_rstN (b : Block) : (b.csRelease).rstN = b.rstN := rfl
@[simp] theorem Block.csRelease_pos (b : Block) : (b.csRelease).pos = b.pos + 1 := rfl
@[simp] theorem Block.csRelease_sub (b : Block) : (b.csRelease).sub = b.sub := rfl
@[simp] theorem Block.csRelease_idx (b : Block) : (b.csRelease).idx = b.idx := rfl
@[simp] theorem Block.csRelease_timer (b : Block) : (b.csRelease).timer = b.timer := rfl
@[simp] theorem Block.csRelease_busCnt (b : Block) : (b.csRelease).busCnt = b.busCnt := rfl
@[simp] theorem Block.csRelease_pollCnt (b : Block) : (b.csRelease).pollCnt = b.pollCnt := rfl
@[simp] theorem Block.csRelease_st0 (b : Block) : (b.csRelease).st0 = b.st0 := rfl
@[simp] theorem Block.csRelease_st1 (b : Block) : (b.csRelease).st1 = b.st1 := rfl
@[simp] theorem Block.csRelease_done (b : Block) : (b.csRelease).done = b.done := rfl
@[simp] theorem Block.csRelease_txStart (b : Block) : (b.csRelease).txStart = b.txStart := rfl
@[simp] theorem Block.csRelease_rdValid (b : Block) : (b.csRelease).rdValid = b.rdValid := rfl
@[simp] theorem Block.csRelease_err (b : Block) : (b.csRelease).err = b.err := rfl
@[simp] theorem Block.csRelease_busy (b : Block) : (b.csRelease).busy = b.busy := rfl
@[simp] theorem Block.csRelease_txData (b : Block) : (b.csRelease).txData = b.txData := rfl
@[simp] theorem Block.csRelease_rdIdx (b : Block) : (b.csRelease).rdIdx = b.rdIdx := rfl
@[simp] theorem Block.csRelease_rdData (b : Block) : (b.csRelease).rdData = b.rdData := rfl

/-! ### `Block.wpRelease` -/

@[simp] theorem Block.wpRelease_op (b : Block) : (b.wpRelease).op = b.op := rfl
@[simp] theorem Block.wpRelease_page (b : Block) : (b.wpRelease).page = b.page := rfl
@[simp] theorem Block.wpRelease_payload (b : Block) : (b.wpRelease).payload = b.payload := rfl
@[simp] theorem Block.wpRelease_pstate (b : Block) : (b.wpRelease).pstate = b.pstate := rfl
@[simp] theorem Block.wpRelease_csN (b : Block) : (b.wpRelease).csN = b.csN := rfl
@[simp] theorem Block.wpRelease_wpN (b : Block) : (b.wpRelease).wpN = true := rfl
@[simp] theorem Block.wpRelease_rstN (b : Block) : (b.wpRelease).rstN = b.rstN := rfl
@[simp] theorem Block.wpRelease_pos (b : Block) : (b.wpRelease).pos = b.pos + 1 := rfl
@[simp] theorem Block.wpRelease_sub (b : Block) : (b.wpRelease).sub = b.sub := rfl
@[simp] theorem Block.wpRelease_idx (b : Block) : (b.wpRelease).idx = b.idx := rfl
@[simp] theorem Block.wpRelease_timer (b : Block) : (b.wpRelease).timer = b.timer := rfl
@[simp] theorem Block.wpRelease_busCnt (b : Block) : (b.wpRelease).busCnt = b.busCnt := rfl
@[simp] theorem Block.wpRelease_pollCnt (b : Block) : (b.wpRelease).pollCnt = b.pollCnt := rfl
@[simp] theorem Block.wpRelease_st0 (b : Block) : (b.wpRelease).st0 = b.st0 := rfl
@[simp] theorem Block.wpRelease_st1 (b : Block) : (b.wpRelease).st1 = b.st1 := rfl
@[simp] theorem Block.wpRelease_done (b : Block) : (b.wpRelease).done = b.done := rfl
@[simp] theorem Block.wpRelease_txStart (b : Block) : (b.wpRelease).txStart = b.txStart := rfl
@[simp] theorem Block.wpRelease_rdValid (b : Block) : (b.wpRelease).rdValid = b.rdValid := rfl
@[simp] theorem Block.wpRelease_err (b : Block) : (b.wpRelease).err = b.err := rfl
@[simp] theorem Block.wpRelease_busy (b : Block) : (b.wpRelease).busy = b.busy := rfl
@[simp] theorem Block.wpRelease_txData (b : Block) : (b.wpRelease).txData = b.txData := rfl
@[simp] theorem Block.wpRelease_rdIdx (b : Block) : (b.wpRelease).rdIdx = b.rdIdx := rfl
@[simp] theorem Block.wpRelease_rdData (b : Block) : (b.wpRelease).rdData = b.rdData := rfl

/-! ### `Block.wpAssert` -/

@[simp] theorem Block.wpAssert_op (b : Block) : (b.wpAssert).op = b.op := rfl
@[simp] theorem Block.wpAssert_page (b : Block) : (b.wpAssert).page = b.page := rfl
@[simp] theorem Block.wpAssert_payload (b : Block) : (b.wpAssert).payload = b.payload := rfl
@[simp] theorem Block.wpAssert_pstate (b : Block) : (b.wpAssert).pstate = b.pstate := rfl
@[simp] theorem Block.wpAssert_csN (b : Block) : (b.wpAssert).csN = b.csN := rfl
@[simp] theorem Block.wpAssert_wpN (b : Block) : (b.wpAssert).wpN = false := rfl
@[simp] theorem Block.wpAssert_rstN (b : Block) : (b.wpAssert).rstN = b.rstN := rfl
@[simp] theorem Block.wpAssert_pos (b : Block) : (b.wpAssert).pos = b.pos + 1 := rfl
@[simp] theorem Block.wpAssert_sub (b : Block) : (b.wpAssert).sub = b.sub := rfl
@[simp] theorem Block.wpAssert_idx (b : Block) : (b.wpAssert).idx = b.idx := rfl
@[simp] theorem Block.wpAssert_timer (b : Block) : (b.wpAssert).timer = b.timer := rfl
@[simp] theorem Block.wpAssert_busCnt (b : Block) : (b.wpAssert).busCnt = b.busCnt := rfl
@[simp] theorem Block.wpAssert_pollCnt (b : Block) : (b.wpAssert).pollCnt = b.pollCnt := rfl
@[simp] theorem Block.wpAssert_st0 (b : Block) : (b.wpAssert).st0 = b.st0 := rfl
@[simp] theorem Block.wpAssert_st1 (b : Block) : (b.wpAssert).st1 = b.st1 := rfl
@[simp] theorem Block.wpAssert_done (b : Block) : (b.wpAssert).done = b.done := rfl
@[simp] theorem Block.wpAssert_txStart (b : Block) : (b.wpAssert).txStart = b.txStart := rfl
@[simp] theorem Block.wpAssert_rdValid (b : Block) : (b.wpAssert).rdValid = b.rdValid := rfl
@[simp] theorem Block.wpAssert_err (b : Block) : (b.wpAssert).err = b.err := rfl
@[simp] theorem Block.wpAssert_busy (b : Block) : (b.wpAssert).busy = b.busy := rfl
@[simp] theorem Block.wpAssert_txData (b : Block) : (b.wpAssert).txData = b.txData := rfl
@[simp] theorem Block.wpAssert_rdIdx (b : Block) : (b.wpAssert).rdIdx = b.rdIdx := rfl
@[simp] theorem Block.wpAssert_rdData (b : Block) : (b.wpAssert).rdData = b.rdData := rfl

/-! ### `Block.rstAssert` -/

@[simp] theorem Block.rstAssert_op (b : Block) : (b.rstAssert).op = b.op := rfl
@[simp] theorem Block.rstAssert_page (b : Block) : (b.rstAssert).page = b.page := rfl
@[simp] theorem Block.rstAssert_payload (b : Block) : (b.rstAssert).payload = b.payload := rfl
@[simp] theorem Block.rstAssert_pstate (b : Block) : (b.rstAssert).pstate = b.pstate := rfl
@[simp] theorem Block.rstAssert_csN (b : Block) : (b.rstAssert).csN = b.csN := rfl
@[simp] theorem Block.rstAssert_wpN (b : Block) : (b.rstAssert).wpN = b.wpN := rfl
@[simp] theorem Block.rstAssert_rstN (b : Block) : (b.rstAssert).rstN = false := rfl
@[simp] theorem Block.rstAssert_pos (b : Block) : (b.rstAssert).pos = b.pos + 1 := rfl
@[simp] theorem Block.rstAssert_sub (b : Block) : (b.rstAssert).sub = b.sub := rfl
@[simp] theorem Block.rstAssert_idx (b : Block) : (b.rstAssert).idx = b.idx := rfl
@[simp] theorem Block.rstAssert_timer (b : Block) : (b.rstAssert).timer = b.timer := rfl
@[simp] theorem Block.rstAssert_busCnt (b : Block) : (b.rstAssert).busCnt = b.busCnt := rfl
@[simp] theorem Block.rstAssert_pollCnt (b : Block) : (b.rstAssert).pollCnt = b.pollCnt := rfl
@[simp] theorem Block.rstAssert_st0 (b : Block) : (b.rstAssert).st0 = b.st0 := rfl
@[simp] theorem Block.rstAssert_st1 (b : Block) : (b.rstAssert).st1 = b.st1 := rfl
@[simp] theorem Block.rstAssert_done (b : Block) : (b.rstAssert).done = b.done := rfl
@[simp] theorem Block.rstAssert_txStart (b : Block) : (b.rstAssert).txStart = b.txStart := rfl
@[simp] theorem Block.rstAssert_rdValid (b : Block) : (b.rstAssert).rdValid = b.rdValid := rfl
@[simp] theorem Block.rstAssert_err (b : Block) : (b.rstAssert).err = b.err := rfl
@[simp] theorem Block.rstAssert_busy (b : Block) : (b.rstAssert).busy = b.busy := rfl
@[simp] theorem Block.rstAssert_txData (b : Block) : (b.rstAssert).txData = b.txData := rfl
@[simp] theorem Block.rstAssert_rdIdx (b : Block) : (b.rstAssert).rdIdx = b.rdIdx := rfl
@[simp] theorem Block.rstAssert_rdData (b : Block) : (b.rstAssert).rdData = b.rdData := rfl

/-! ### `Block.rstRelease` -/

@[simp] theorem Block.rstRelease_op (b : Block) : (b.rstRelease).op = b.op := rfl
@[simp] theorem Block.rstRelease_page (b : Block) : (b.rstRelease).page = b.page := rfl
@[simp] theorem Block.rstRelease_payload (b : Block) : (b.rstRelease).payload = b.payload := rfl
@[simp] theorem Block.rstRelease_pstate (b : Block) : (b.rstRelease).pstate = b.pstate := rfl
@[simp] theorem Block.rstRelease_csN (b : Block) : (b.rstRelease).csN = b.csN := rfl
@[simp] theorem Block.rstRelease_wpN (b : Block) : (b.rstRelease).wpN = b.wpN := rfl
@[simp] theorem Block.rstRelease_rstN (b : Block) : (b.rstRelease).rstN = true := rfl
@[simp] theorem Block.rstRelease_pos (b : Block) : (b.rstRelease).pos = b.pos + 1 := rfl
@[simp] theorem Block.rstRelease_sub (b : Block) : (b.rstRelease).sub = b.sub := rfl
@[simp] theorem Block.rstRelease_idx (b : Block) : (b.rstRelease).idx = b.idx := rfl
@[simp] theorem Block.rstRelease_timer (b : Block) : (b.rstRelease).timer = b.timer := rfl
@[simp] theorem Block.rstRelease_busCnt (b : Block) : (b.rstRelease).busCnt = b.busCnt := rfl
@[simp] theorem Block.rstRelease_pollCnt (b : Block) : (b.rstRelease).pollCnt = b.pollCnt := rfl
@[simp] theorem Block.rstRelease_st0 (b : Block) : (b.rstRelease).st0 = b.st0 := rfl
@[simp] theorem Block.rstRelease_st1 (b : Block) : (b.rstRelease).st1 = b.st1 := rfl
@[simp] theorem Block.rstRelease_done (b : Block) : (b.rstRelease).done = b.done := rfl
@[simp] theorem Block.rstRelease_txStart (b : Block) : (b.rstRelease).txStart = b.txStart := rfl
@[simp] theorem Block.rstRelease_rdValid (b : Block) : (b.rstRelease).rdValid = b.rdValid := rfl
@[simp] theorem Block.rstRelease_err (b : Block) : (b.rstRelease).err = b.err := rfl
@[simp] theorem Block.rstRelease_busy (b : Block) : (b.rstRelease).busy = b.busy := rfl
@[simp] theorem Block.rstRelease_txData (b : Block) : (b.rstRelease).txData = b.txData := rfl
@[simp] theorem Block.rstRelease_rdIdx (b : Block) : (b.rstRelease).rdIdx = b.rdIdx := rfl
@[simp] theorem Block.rstRelease_rdData (b : Block) : (b.rstRelease).rdData = b.rdData := rfl

/-! ### Updates of the state -/

@[simp] theorem State.setBlk_cfg (s : State) (b : Block) : (s.setBlk b).cfg = s.cfg := rfl
@[simp] theorem State.setBlk_blk (s : State) (b : Block) : (s.setBlk b).blk = b := rfl
@[simp] theorem State.setBlk_port (s : State) (b : Block) : (s.setBlk b).port = s.port := rfl
@[simp] theorem State.setBlk_host (s : State) (b : Block) : (s.setBlk b).host = s.host := rfl
@[simp] theorem State.setBlk_holds (s : State) (b : Block) : (s.setBlk b).holds = s.holds := rfl
@[simp] theorem State.setBlk_resets (s : State) (b : Block) : (s.setBlk b).resets = s.resets := rfl
@[simp] theorem State.setBlk_captured (s : State) (b : Block) : (s.setBlk b).captured = s.captured := rfl
@[simp] theorem State.setBlk_link (s : State) (b : Block) : (s.setBlk b).link = s.link := rfl
@[simp] theorem State.setBlk_wire (s : State) (b : Block) : (s.setBlk b).wire = s.wire := rfl
@[simp] theorem State.setBlk_inFlight (s : State) (b : Block) : (s.setBlk b).inFlight = s.inFlight := rfl
@[simp] theorem State.setBlk_latency (s : State) (b : Block) : (s.setBlk b).latency = s.latency := rfl
@[simp] theorem State.setBlk_dev (s : State) (b : Block) : (s.setBlk b).dev = s.dev := rfl
@[simp] theorem State.setBlk_freeUsed (s : State) (b : Block) : (s.setBlk b).freeUsed = s.freeUsed := rfl
@[simp] theorem State.setDev_cfg (s : State) (d : RefDev) : (s.setDev d).cfg = s.cfg := rfl
@[simp] theorem State.setDev_blk (s : State) (d : RefDev) : (s.setDev d).blk = s.blk := rfl
@[simp] theorem State.setDev_port (s : State) (d : RefDev) : (s.setDev d).port = s.port := rfl
@[simp] theorem State.setDev_host (s : State) (d : RefDev) : (s.setDev d).host = s.host := rfl
@[simp] theorem State.setDev_holds (s : State) (d : RefDev) : (s.setDev d).holds = s.holds := rfl
@[simp] theorem State.setDev_resets (s : State) (d : RefDev) : (s.setDev d).resets = s.resets := rfl
@[simp] theorem State.setDev_captured (s : State) (d : RefDev) : (s.setDev d).captured = s.captured := rfl
@[simp] theorem State.setDev_link (s : State) (d : RefDev) : (s.setDev d).link = s.link := rfl
@[simp] theorem State.setDev_wire (s : State) (d : RefDev) : (s.setDev d).wire = s.wire := rfl
@[simp] theorem State.setDev_inFlight (s : State) (d : RefDev) : (s.setDev d).inFlight = s.inFlight := rfl
@[simp] theorem State.setDev_latency (s : State) (d : RefDev) : (s.setDev d).latency = s.latency := rfl
@[simp] theorem State.setDev_dev (s : State) (d : RefDev) : (s.setDev d).dev = d := rfl
@[simp] theorem State.setDev_freeUsed (s : State) (d : RefDev) : (s.setDev d).freeUsed = s.freeUsed := rfl
@[simp] theorem State.presentTx_cfg (x : Bool) (r : Byte) (s : State) : (s.presentTx x r).cfg = s.cfg := rfl
@[simp] theorem State.presentTx_blk (x : Bool) (r : Byte) (s : State) : (s.presentTx x r).blk = s.blk := rfl
@[simp] theorem State.presentTx_host (x : Bool) (r : Byte) (s : State) : (s.presentTx x r).host = s.host := rfl
@[simp] theorem State.presentTx_holds (x : Bool) (r : Byte) (s : State) : (s.presentTx x r).holds = s.holds := rfl
@[simp] theorem State.presentTx_resets (x : Bool) (r : Byte) (s : State) : (s.presentTx x r).resets = s.resets := rfl
@[simp] theorem State.presentTx_captured (x : Bool) (r : Byte) (s : State) : (s.presentTx x r).captured = s.captured := rfl
@[simp] theorem State.presentTx_link (x : Bool) (r : Byte) (s : State) : (s.presentTx x r).link = s.link := rfl
@[simp] theorem State.presentTx_wire (x : Bool) (r : Byte) (s : State) : (s.presentTx x r).wire = s.wire := rfl
@[simp] theorem State.presentTx_inFlight (x : Bool) (r : Byte) (s : State) : (s.presentTx x r).inFlight = s.inFlight := rfl
@[simp] theorem State.presentTx_latency (x : Bool) (r : Byte) (s : State) : (s.presentTx x r).latency = s.latency := rfl
@[simp] theorem State.presentTx_dev (x : Bool) (r : Byte) (s : State) : (s.presentTx x r).dev = s.dev := rfl
@[simp] theorem State.presentTx_freeUsed (x : Bool) (r : Byte) (s : State) : (s.presentTx x r).freeUsed = s.freeUsed := rfl
@[simp] theorem State.presentTx_port_reset (x : Bool) (r : Byte) (s : State) : (s.presentTx x r).port.reset = s.port.reset := rfl
@[simp] theorem State.presentTx_port_cmdValid (x : Bool) (r : Byte) (s : State) : (s.presentTx x r).port.cmdValid = s.port.cmdValid := rfl
@[simp] theorem State.presentTx_port_cmdOp (x : Bool) (r : Byte) (s : State) : (s.presentTx x r).port.cmdOp = s.port.cmdOp := rfl
@[simp] theorem State.presentTx_port_cmdPage (x : Bool) (r : Byte) (s : State) : (s.presentTx x r).port.cmdPage = s.port.cmdPage := rfl
@[simp] theorem State.presentTx_port_cmdPayload (x : Bool) (r : Byte) (s : State) : (s.presentTx x r).port.cmdPayload = s.port.cmdPayload := rfl
@[simp] theorem State.presentTx_port_txDone (x : Bool) (r : Byte) (s : State) : (s.presentTx x r).port.txDone = x := rfl
@[simp] theorem State.presentTx_port_rxData (x : Bool) (r : Byte) (s : State) : (s.presentTx x r).port.rxData = r := rfl

end Sys2Proof.Machine
end

