-- ==== Sys2Proof/Laws/Ops.lean ====
section
/-! SUPPORT. One lemma per shared operation that says all it can do, and `exec` on a command seen through its
sequence and its required state. -/

namespace Sys2Proof.Machine

/-- Acceptance does one of three things, in the order of rule R120. -/
theorem Block.present_cases (c : Cfg) (o : OpCode) (need : PState) (paged : Bool) (n : PageNo)
    (v : Payload) (b : Block) :
    (b.pstate ≠ need ∧ b.present c o need paged n v = b.reject .wrongPowerState) ∨
    (b.pstate = need ∧ (paged && pageOutOfRange c n) = true ∧
      b.present c o need paged n v = b.reject .addressOutOfRange) ∨
    (b.pstate = need ∧ (paged && pageOutOfRange c n) = false ∧
      b.present c o need paged n v = b.accept o n v) := by
  unfold Block.present
  by_cases h : b.pstate = need
  · cases hr : paged && pageOutOfRange c n <;> simp [h]
  · simp [h]

/-- A transfer primitive does one of four things at a tick (rule R124). -/
theorem Block.xfer_cases (c : Cfg) (inp : Inputs) (x : Byte) (k : Byte → Block → Block) (b : Block) :
    (b.sub = .start ∧ b.xfer c inp x k = b.startTransfer x) ∨
    (b.sub = .wait ∧ inp.txDone = true ∧ b.xfer c inp x k = k inp.rxData { b with sub := .start }) ∨
    (b.sub = .wait ∧ inp.txDone = false ∧ busLimitReached c b.busCnt = true ∧
      b.xfer c inp x k = b.abort .busTimeout) ∨
    (b.sub = .wait ∧ inp.txDone = false ∧ busLimitReached c b.busCnt = false ∧
      b.xfer c inp x k = { b with busCnt := b.busCnt + 1 }) := by
  unfold Block.xfer Block.waitTransfer
  cases hs : b.sub <;> cases ht : inp.txDone <;> cases hl : busLimitReached c b.busCnt <;> simp

/-- An answered transfer does what its primitive does with the byte. -/
theorem Block.xfer_answered {c : Cfg} {inp : Inputs} {x : Byte} {k : Byte → Block → Block} {b : Block}
    (hs : b.sub = .wait) (ht : inp.txDone = true) :
    b.xfer c inp x k = k inp.rxData { b with sub := .start } := by
  simp [Block.xfer, hs, ht]

/-- A transfer at its start. -/
theorem Block.xfer_start {c : Cfg} {inp : Inputs} {x : Byte} {k : Byte → Block → Block} {b : Block}
    (hs : b.sub = .start) : b.xfer c inp x k = b.startTransfer x := by
  simp [Block.xfer, hs]

/-- A dwell ends or counts down (rule R123). -/
theorem Block.dwell_cases (c : Cfg) (t : Dwell) (b : Block) :
    (b.dwellLeft c t = 1 ∧
      b.dwell c t = { b with timer := 0, sub := .start, pos := b.pos + 1 }) ∨
    (b.dwellLeft c t ≠ 1 ∧
      b.dwell c t = { b with timer := b.dwellLeft c t - 1, sub := .wait }) := by
  unfold Block.dwell
  by_cases h : b.dwellLeft c t = 1 <;> simp [h]

/-- A dwell is at least one tick long (rule R14). -/
theorem Dwell.one_le_ticks (c : Cfg) (t : Dwell) : 1 ≤ t.ticks c := Nat.le_max_left _ _

/-- With one clock period more than its ticks, a dwell has lasted longer than its time (rule R14). -/
theorem Dwell.time_lt {c : Cfg} (h : 1 ≤ c.tClkNs) (t : Dwell) :
    t.time c < (t.ticks c + 1) * c.tClkNs := by
  have h2 : (t.time c + c.tClkNs - 1) / c.tClkNs ≤ t.ticks c := Nat.le_max_right _ _
  have h3 := Nat.div_add_mod (t.time c + c.tClkNs - 1) c.tClkNs
  have h4 := Nat.mod_lt (t.time c + c.tClkNs - 1) (show 0 < c.tClkNs by omega)
  have h5 := Nat.mul_le_mul_left c.tClkNs h2
  rw [Nat.add_mul, Nat.mul_comm (t.ticks c)]
  omega

/-- The second byte of a status pair: the poll leaves, aborts or counts (rule R128). -/
theorem Block.afterPoll_cases (c : Cfg) (r : Byte) (b : Block) :
    (b.idx = 0 ∧ b.afterPoll c r = { b with st0 := r, idx := 1 }) ∨
    (b.idx ≠ 0 ∧ readyBit b.st0 = true ∧
      b.afterPoll c r = { b with st1 := r, idx := 0, pos := b.pos + 1 }) ∨
    (b.idx ≠ 0 ∧ readyBit b.st0 = false ∧ pollLimitReached c b.pollCnt = true ∧
      b.afterPoll c r = { b with st1 := r, idx := 0 }.abort .deviceNotReady) ∨
    (b.idx ≠ 0 ∧ readyBit b.st0 = false ∧ pollLimitReached c b.pollCnt = false ∧
      b.afterPoll c r = { b with st1 := r, idx := 0, pollCnt := b.pollCnt + 1 }) := by
  unfold Block.afterPoll
  by_cases h : b.idx = 0
  · exact .inl ⟨h, if_pos h⟩
  · cases hr : readyBit b.st0 <;> cases hl : pollLimitReached c b.pollCnt <;>
      simp only [h, not_false_eq_true, false_and, true_and, false_or, or_false, if_false, if_true,
        ne_eq, Bool.false_eq_true, reduceCtorEq]

/-- A byte of the payload has been sent: the loop ends at the last one (rule R126). -/
theorem Block.afterPayload_cases (r : Byte) (b : Block) :
    (b.idx = 511 ∧ b.afterPayload r = { b with idx := 0, pos := b.pos + 1 }) ∨
    (b.idx ≠ 511 ∧ b.afterPayload r = { b with idx := b.idx + 1 }) := by
  unfold Block.afterPayload
  by_cases h : b.idx = 511
  · exact .inl ⟨h, if_pos h⟩
  · exact .inr ⟨h, if_neg h⟩

/-- A captured byte is presented, and the loop ends at the last one (rule R126). -/
theorem Block.afterCapture_cases (m : Nat) (r : Byte) (b : Block) :
    (b.idx.toNat + 1 = m ∧ b.afterCapture m r =
      { b with rdValid := true, rdIdx := b.idx.setWidth 9, rdData := r, idx := 0, pos := b.pos + 1 }) ∨
    (b.idx.toNat + 1 ≠ m ∧ b.afterCapture m r =
      { b with rdValid := true, rdIdx := b.idx.setWidth 9, rdData := r, idx := b.idx + 1 }) := by
  unfold Block.afterCapture
  by_cases h : b.idx.toNat + 1 = m
  · exact .inl ⟨h, if_pos h⟩
  · exact .inr ⟨h, if_neg h⟩

/-- The first or the second byte of the status word has been read (rule R127). -/
theorem Block.afterStatus_cases (r : Byte) (b : Block) :
    (b.idx = 0 ∧ b.afterStatus r = { b with st0 := r, idx := 1 }) ∨
    (b.idx ≠ 0 ∧ b.afterStatus r = { b with st1 := r, idx := 0, pos := b.pos + 1 }) := by
  unfold Block.afterStatus
  by_cases h : b.idx = 0
  · exact .inl ⟨h, if_pos h⟩
  · exact .inr ⟨h, if_neg h⟩

/-- `K` of every transfer primitive: what it does with the received byte (rules R125 to R128). -/
def Prim.answer (c : Cfg) : Prim → Byte → Block → Block
  | .xferConst _ | .xferAddr _ => Block.afterDiscard
  | .xferPayload => Block.afterPayload
  | .xferCapture m => Block.afterCapture m
  | .xferStatus => Block.afterStatus
  | .poll => Block.afterPoll c
  | .csAssert | .csRelease | .wpRelease | .wpAssert | .rstAssert | .rstRelease
  | .dwell _ | .finish _ => fun _ b => b

/-- Every transfer primitive is the engine with its byte and its `K` (rule R124). -/
theorem Block.run_transfer {c : Cfg} {inp : Inputs} {p : Prim} {x : Byte} {b : Block}
    (h : b.byteToSend p = some x) : b.run c inp p = b.xfer c inp x (p.answer c) := by
  cases p <;> simp [Block.byteToSend] at h <;> subst h <;> rfl

/-- A primitive that sends a byte is a transfer primitive. -/
theorem Prim.isTransfer_of_send {p : Prim} {x : Byte} {b : Block} (h : b.byteToSend p = some x) :
    p.isTransfer = true := by
  cases p <;> simp [Block.byteToSend] at h <;> rfl

/-- What the transfer primitives leave alone when they act on the received byte. -/
theorem Prim.answer_keeps (c : Cfg) (p : Prim) (r : Byte) (b : Block) :
    (p.answer c r b).op = b.op ∧ (p.answer c r b).page = b.page ∧
    (p.answer c r b).payload = b.payload ∧ (p.answer c r b).pstate = b.pstate ∧
    ((p.answer c r b).err = b.err ∨ (p.answer c r b).done = true) ∧
    ((p ≠ .xferStatus ∧ p ≠ .poll) →
      (p.answer c r b).st0 = b.st0 ∧ (p.answer c r b).st1 = b.st1) := by
  cases p with
  | xferPayload => simp only [Prim.answer, Block.afterPayload]; split <;> simp
  | xferCapture m => simp only [Prim.answer, Block.afterCapture]; split <;> simp
  | xferStatus => simp only [Prim.answer, Block.afterStatus]; split <;> simp
  | poll =>
    simp only [Prim.answer]
    rcases Block.afterPoll_cases c r b with ⟨_, h⟩ | ⟨_, _, h⟩ | ⟨_, _, _, h⟩ | ⟨_, _, _, h⟩ <;>
      rw [h] <;> simp [Block.abort]
  | _ => simp [Prim.answer, Block.afterDiscard, Block.advance]

/-- What the pulses are when a transfer primitive has acted on the received byte. -/
theorem Prim.answer_pulses (c : Cfg) (p : Prim) (r : Byte) {b : Block} (h1 : b.done = false)
    (h2 : b.txStart = false) (h3 : b.rdValid = false) :
    ((p.answer c r b).done = true → (p.answer c r b).busy = false) ∧
    (p.answer c r b).txStart = false ∧
    ((p.answer c r b).rdValid = true → (p.answer c r b).rdData = r ∧
      (p.answer c r b).rdIdx = b.idx.setWidth 9 ∧ ∃ m, p = .xferCapture m) := by
  cases p with
  | xferPayload => simp only [Prim.answer, Block.afterPayload]; split <;> simp_all
  | xferCapture m => simp only [Prim.answer, Block.afterCapture]; split <;> simp_all
  | xferStatus => simp only [Prim.answer, Block.afterStatus]; split <;> simp_all
  | poll =>
    simp only [Prim.answer]
    rcases Block.afterPoll_cases c r b with ⟨_, h⟩ | ⟨_, _, h⟩ | ⟨_, _, _, h⟩ | ⟨_, _, _, h⟩ <;>
      rw [h] <;> simp_all [Block.abort]
  | _ => simp_all [Prim.answer, Block.afterDiscard, Block.advance]

/-- What no primitive writes: the latches; the status latch but for the two that read it; the power state
but for `FINISH`; and `err` only with `done`. -/
theorem Block.run_keeps (c : Cfg) (inp : Inputs) (p : Prim) (b : Block) :
    (b.run c inp p).op = b.op ∧ (b.run c inp p).page = b.page ∧
    (b.run c inp p).payload = b.payload ∧
    ((b.run c inp p).err = b.err ∨ (b.run c inp p).done = true) ∧
    ((p ≠ .xferStatus ∧ p ≠ .poll) → (b.run c inp p).st0 = b.st0 ∧ (b.run c inp p).st1 = b.st1) ∧
    ((b.run c inp p).pstate = b.pstate ∨
      ∃ q, p = .finish (some q) ∧ (b.run c inp p).pstate = q ∧ (b.run c inp p).err = .ok ∧
        (b.run c inp p).done = true) := by
  cases hx : b.byteToSend p with
  | some x =>
    rw [Block.run_transfer hx]
    rcases Block.xfer_cases c inp x (p.answer c) b with
      ⟨_, g⟩ | ⟨_, _, g⟩ | ⟨_, _, _, g⟩ | ⟨_, _, _, g⟩ <;> rw [g]
    · simp [Block.startTransfer]
    · obtain ⟨a1, a2, a3, a4, a5, a6⟩ := p.answer_keeps c inp.rxData { b with sub := .start }
      exact ⟨a1, a2, a3, a5, a6, .inl a4⟩
    · simp [Block.abort]
    · simp
  | none =>
    cases p with
    | finish q => cases q <;> simp [Block.run, Block.finish]
    | dwell t =>
      simp only [Block.run]
      rcases Block.dwell_cases c t b with ⟨_, h⟩ | ⟨_, h⟩ <;> rw [h] <;> simp
    | csAssert | csRelease | wpRelease | wpAssert | rstAssert | rstRelease =>
      simp [Block.run, Block.csAssert, Block.csRelease, Block.wpRelease, Block.wpAssert,
        Block.rstAssert, Block.rstRelease]
    | _ => simp [Block.byteToSend] at hx

/-- What a pulse after a primitive's tick means (rule R34). -/
theorem Block.run_pulses (c : Cfg) (inp : Inputs) (p : Prim) (b : Block) (h1 : b.done = false)
    (h2 : b.txStart = false) (h3 : b.rdValid = false) :
    ((b.run c inp p).done = true → (b.run c inp p).busy = false) ∧
    ((b.run c inp p).txStart = true →
      b.sub = .start ∧ b.byteToSend p = some (b.run c inp p).txData) ∧
    ((b.run c inp p).rdValid = true → b.sub = .wait ∧ inp.txDone = true ∧
      (b.run c inp p).rdData = inp.rxData ∧ (b.run c inp p).rdIdx = b.idx.setWidth 9 ∧
      ∃ m, p = .xferCapture m) := by
  cases hx : b.byteToSend p with
  | some x =>
    rw [Block.run_transfer hx]
    rcases Block.xfer_cases c inp x (p.answer c) b with
      ⟨hs, g⟩ | ⟨hs, ht, g⟩ | ⟨_, _, _, g⟩ | ⟨_, _, _, g⟩ <;> rw [g]
    · simp [Block.startTransfer, h1, h3, hs]
    · obtain ⟨a1, a2, a3⟩ := p.answer_pulses c inp.rxData (b := { b with sub := .start }) h1 h2 h3
      exact ⟨a1, fun h => absurd (a2.symm.trans h) (by simp), fun h => ⟨hs, ht, a3 h⟩⟩
    · simp [Block.abort, h3]
    · simp [h1, h2, h3]
  | none =>
    cases p with
    | finish q => simp [Block.run, Block.finish, h2, h3]
    | dwell t =>
      simp only [Block.run]
      rcases Block.dwell_cases c t b with ⟨_, h⟩ | ⟨_, h⟩ <;> rw [h] <;> simp [h1, h2, h3]
    | csAssert | csRelease | wpRelease | wpAssert | rstAssert | rstRelease =>
      simp [Block.run, Block.csAssert, Block.csRelease, Block.wpRelease, Block.wpAssert,
        Block.rstAssert, Block.rstRelease, h1, h2, h3]
    | _ => simp [Block.byteToSend] at hx

/-- What else the transfer primitives leave alone when they act on the received byte: the lines, but for an
abort; the dwell timer, the byte offered and, but for a capture, the capture stream. -/
theorem Prim.answer_frame (c : Cfg) (p : Prim) (r : Byte) (b : Block) :
    ((p.answer c r b).wpN = b.wpN ∨ (p.answer c r b).done = true ∧ (p.answer c r b).wpN = false) ∧
    ((p.answer c r b).rstN = b.rstN ∨ (p.answer c r b).done = true ∧ (p.answer c r b).rstN = true) ∧
    (p.answer c r b).timer = b.timer ∧ (p.answer c r b).txData = b.txData ∧
    ((∀ m, p ≠ .xferCapture m) → (p.answer c r b).rdValid = b.rdValid ∧
      (p.answer c r b).rdIdx = b.rdIdx ∧ (p.answer c r b).rdData = b.rdData) ∧
    ((p.answer c r b).done = false → (p.answer c r b).err = b.err) := by
  cases p with
  | xferPayload => simp only [Prim.answer, Block.afterPayload]; split <;> simp
  | xferCapture m => simp only [Prim.answer, Block.afterCapture]; split <;> simp
  | xferStatus => simp only [Prim.answer, Block.afterStatus]; split <;> simp
  | poll =>
    simp only [Prim.answer]
    rcases Block.afterPoll_cases c r b with ⟨_, h⟩ | ⟨_, _, h⟩ | ⟨_, _, _, h⟩ | ⟨_, _, _, h⟩ <;>
      rw [h] <;> simp [Block.abort]
  | _ => simp [Prim.answer, Block.afterDiscard, Block.advance]

/-- What else a primitive's tick leaves alone: each line but for its own two primitives and an abort, the
timer but for a dwell, the byte offered but for a start, the capture stream but for a capture, `err` and the
power state without `done`. -/
theorem Block.run_frame (c : Cfg) (inp : Inputs) (p : Prim) (b : Block) :
    (p ≠ .wpRelease → p ≠ .wpAssert → (b.run c inp p).wpN = b.wpN ∨
      (b.run c inp p).done = true ∧ (b.run c inp p).wpN = false) ∧
    (p ≠ .rstRelease → p ≠ .rstAssert → (b.run c inp p).rstN = b.rstN ∨
      (b.run c inp p).done = true ∧ (b.run c inp p).rstN = true) ∧
    ((∀ t, p ≠ .dwell t) → (b.run c inp p).timer = b.timer) ∧
    ((b.run c inp p).txStart = false → (b.run c inp p).txData = b.txData) ∧
    ((∀ m, p ≠ .xferCapture m) → (b.run c inp p).rdValid = b.rdValid ∧
      (b.run c inp p).rdIdx = b.rdIdx ∧ (b.run c inp p).rdData = b.rdData) ∧
    ((b.run c inp p).done = false →
      (b.run c inp p).err = b.err ∧ (b.run c inp p).pstate = b.pstate) ∧
    (p.isTransfer = false → p ≠ .csAssert → p ≠ .csRelease → (b.run c inp p).csN = b.csN) ∧
    (p.isTransfer = false → p ≠ .wpAssert → p ≠ .wpRelease → (b.run c inp p).wpN = b.wpN) := by
  cases hx : b.byteToSend p with
  | some x =>
    have hpt := Prim.isTransfer_of_send hx
    rw [Block.run_transfer hx]
    rcases Block.xfer_cases c inp x (p.answer c) b with
      ⟨_, g⟩ | ⟨_, _, g⟩ | ⟨_, _, _, g⟩ | ⟨_, _, _, g⟩ <;> rw [g]
    · simp [Block.startTransfer, hpt]
    · obtain ⟨a2, a3, a4, a5, a6, a7⟩ := p.answer_frame c inp.rxData { b with sub := .start }
      have hps : (p.answer c inp.rxData { b with sub := .start }).pstate = b.pstate :=
        (p.answer_keeps c inp.rxData { b with sub := .start }).2.2.2.1
      exact ⟨fun _ _ => a2, fun _ _ => a3, fun _ => a4, fun _ => a5, a6, fun h => ⟨a7 h, hps⟩,
        fun h => absurd (hpt.symm.trans h) (by simp), fun h => absurd (hpt.symm.trans h) (by simp)⟩
    · simp [Block.abort, hpt]
    · simp [hpt]
  | none =>
    cases p with
    | finish q => simp [Block.run, Block.finish]
    | dwell t =>
      simp only [Block.run]
      rcases Block.dwell_cases c t b with ⟨_, h⟩ | ⟨_, h⟩ <;> rw [h] <;> simp
    | csAssert | csRelease | wpRelease | wpAssert | rstAssert | rstRelease =>
      simp [Block.run, Block.csAssert, Block.csRelease, Block.wpRelease, Block.wpAssert,
        Block.rstAssert, Block.rstRelease]
    | _ => simp [Block.byteToSend] at hx

/-- A primitive's tick that leaves `tx_start = 1` is the start of a transfer and nothing else (rule R124). -/
theorem Block.run_starts {c : Cfg} {inp : Inputs} {p : Prim} {b : Block} (h1 : b.done = false)
    (h2 : b.txStart = false) (h3 : b.rdValid = false) (ht : (b.run c inp p).txStart = true) :
    ∃ x, b.byteToSend p = some x ∧ b.run c inp p = b.startTransfer x := by
  obtain ⟨hs, hx⟩ := (Block.run_pulses c inp p b h1 h2 h3).2.1 ht
  refine ⟨_, hx, ?_⟩
  conv_lhs => rw [Block.run_transfer hx, Block.xfer_start hs]

/-- What the operation tick answers, all of it (rule R121). -/
theorem operationTick_cases (o : OpCode) (need : PState) (paged : Bool) (seq : List Prim) (n : PageNo)
    (s : State) :
    (s.blk.busy = false ∧ operationTick o need paged seq n s =
      .next (s.setBlk (s.blk.pulsesFall.present s.cfg o need paged n s.port.cmdPayload))) ∨
    (s.blk.busy = true ∧ ∃ p, seq[s.blk.pos]? = some p ∧ operationTick o need paged seq n s =
      .next (s.setBlk (s.blk.pulsesFall.run s.cfg s.port p))) ∨
    (s.blk.busy = true ∧ seq[s.blk.pos]? = none ∧
      operationTick o need paged seq n s = .fault .noPrimitive) := by
  unfold operationTick
  cases hb : s.blk.busy
  · simp
  · cases hq : seq[s.blk.pos]? <;> simp

/-- An operation code is one of sixteen. -/
theorem opcode_cases (o : OpCode) : o = 0 ∨ o = 1 ∨ o = 2 ∨ o = 3 ∨ o = 4 ∨ o = 5 ∨ o = 6 ∨ o = 7 ∨
    o = 8 ∨ o = 9 ∨ o = 10 ∨ o = 11 ∨ o = 12 ∨ o = 13 ∨ o = 14 ∨ o = 15 := by
  revert o; decide

/-- A running command executes the primitive at `pos` of its sequence. -/
theorem exec_busy {i : Instr} {s : State} {p : Prim} (hb : s.blk.busy = true)
    (hp : (sequenceOf s.cfg i)[s.blk.pos]? = some p) :
    exec i s = .next (s.setBlk (s.blk.pulsesFall.run s.cfg s.port p)) := by
  cases i <;>
    first
    | (simp only [sequenceOf] at hp
       simp only [exec, execInit, execWaitReady, execGetStatus, execGetId, execSetPagesize512,
         execSetPagesize528, execReadPage, execWritePage, execEraseChip, execEnterDpd, execResumeDpd,
         execEnterUdpd, execResumeUdpd, execGetPagesize, operationTick, hb, if_true, hp]; done)
    | simp [sequenceOf] at hp

/-- A running command whose position is past its sequence stops by name. -/
theorem exec_off_end {i : Instr} {s : State} (hb : s.blk.busy = true)
    (hp : (sequenceOf s.cfg i)[s.blk.pos]? = none) (hf : i.isFrame = false) :
    exec i s = .fault .noPrimitive := by
  cases i <;> simp only [sequenceOf] at hp <;> simp [Instr.isFrame] at hf <;>
    simp [exec, execInit, execWaitReady, execGetStatus, execGetId, execSetPagesize512,
      execSetPagesize528, execReadPage, execWritePage, execEraseChip, execEnterDpd, execResumeDpd,
      execEnterUdpd, execResumeUdpd, execGetPagesize, execReserved14, execReserved15, reservedTick,
      operationTick, hb, hp]

/-- A reserved code presented to an idle controller is rejected. -/
theorem exec_reserved {o : OpCode} {n : PageNo} {s : State} (hb : s.blk.busy = false)
    (hr : requiredState (commandOf o n) = none) :
    exec (commandOf o n) s = .next (s.setBlk (s.blk.pulsesFall.reject .illegalCommand)) := by
  revert hr
  rcases opcode_cases o with h | h | h | h | h | h | h | h | h | h | h | h | h | h | h | h <;> rw [h] <;>
    simp [commandOf, requiredState, exec, execReserved14, execReserved15, reservedTick, hb]

/-- A command of code `o` presented to an idle controller goes through acceptance. -/
theorem exec_idle {o : OpCode} {n : PageNo} {s : State} {need : PState} (hb : s.blk.busy = false)
    (hr : requiredState (commandOf o n) = some need) :
    exec (commandOf o n) s = .next (s.setBlk (s.blk.pulsesFall.present s.cfg o need
      (o == 6 || o == 7) n s.port.cmdPayload)) := by
  rcases opcode_cases o with rfl | rfl | rfl | rfl | rfl | rfl | rfl | rfl | rfl | rfl | rfl | rfl |
    rfl | rfl | rfl | rfl <;>
  simp [commandOf, requiredState] at hr <;> subst hr <;>
  simp [commandOf, exec, execInit, execWaitReady, execGetStatus, execGetId, execSetPagesize512,
    execSetPagesize528, execReadPage, execWritePage, execEraseChip, execEnterDpd, execResumeDpd,
    execEnterUdpd, execResumeUdpd, execGetPagesize, operationTick, hb]

end Sys2Proof.Machine
end

