-- ==== Sys2Proof/Laws/Step.lean ====
section
/-! SUPPORT. What the agents around the controller leave alone, and what one step is in each situation. -/

namespace Sys2Proof.Machine

/-! ### The agents never touch the controller or the configuration -/

@[simp] theorem State.launch_blk (s : State) : s.launch.blk = s.blk := by
  unfold State.launch; split <;> rfl
@[simp] theorem State.launch_cfg (s : State) : s.launch.cfg = s.cfg := by
  unfold State.launch; split <;> rfl
@[simp] theorem State.launch_link (s : State) : s.launch.link = s.link := by
  unfold State.launch; split <;> rfl
@[simp] theorem State.launch_host (s : State) : s.launch.host = s.host := by
  unfold State.launch; split <;> rfl
@[simp] theorem State.launch_holds (s : State) : s.launch.holds = s.holds := by
  unfold State.launch; split <;> rfl
@[simp] theorem State.launch_resets (s : State) : s.launch.resets = s.resets := by
  unfold State.launch; split <;> rfl
@[simp] theorem State.launch_dev (s : State) : s.launch.dev = s.dev := by
  unfold State.launch; split <;> rfl

@[simp] theorem State.deliver_blk (s : State) : s.deliver.blk = s.blk := by
  unfold State.deliver; split
  · rfl
  · split <;> rfl
@[simp] theorem State.deliver_cfg (s : State) : s.deliver.cfg = s.cfg := by
  unfold State.deliver; split
  · rfl
  · split <;> rfl
@[simp] theorem State.deliver_link (s : State) : s.deliver.link = s.link := by
  unfold State.deliver; split
  · rfl
  · split <;> rfl
@[simp] theorem State.deliver_host (s : State) : s.deliver.host = s.host := by
  unfold State.deliver; split
  · rfl
  · split <;> rfl
@[simp] theorem State.deliver_holds (s : State) : s.deliver.holds = s.holds := by
  unfold State.deliver; split
  · rfl
  · split <;> rfl
@[simp] theorem State.deliver_resets (s : State) : s.deliver.resets = s.resets := by
  unfold State.deliver; split
  · rfl
  · split <;> rfl

/-- The device after the oldest transfer in flight has been looked at: untouched, or one exchange later. -/
theorem State.deliver_dev (s : State) : s.deliver.dev = s.dev ∨
    ∃ x free, s.deliver.dev = (s.dev.exchange s.cfg s.blk.csN x free).2 := by
  unfold State.deliver; split
  · exact .inl rfl
  · split
    · exact .inr ⟨_, _, rfl⟩
    · exact .inl rfl

@[simp] theorem State.hearWire_blk (s : State) : s.hearWire.blk = s.blk := by
  unfold State.hearWire; split <;> rfl
@[simp] theorem State.hearWire_cfg (s : State) : s.hearWire.cfg = s.cfg := by
  unfold State.hearWire; split <;> rfl
@[simp] theorem State.hearWire_link (s : State) : s.hearWire.link = s.link := by
  unfold State.hearWire; split <;> rfl
@[simp] theorem State.hearWire_host (s : State) : s.hearWire.host = s.host := by
  unfold State.hearWire; split <;> rfl
@[simp] theorem State.hearWire_holds (s : State) : s.hearWire.holds = s.holds := by
  unfold State.hearWire; split <;> rfl
@[simp] theorem State.hearWire_resets (s : State) : s.hearWire.resets = s.resets := by
  unfold State.hearWire; split <;> rfl
@[simp] theorem State.hearWire_dev (s : State) : s.hearWire.dev = s.dev := by
  unfold State.hearWire; split <;> rfl
@[simp] theorem State.hearWire_captured (s : State) : s.hearWire.captured = s.captured := by
  unfold State.hearWire; split <;> rfl

@[simp] theorem State.busMoves_blk (b : Block) (s : State) : (s.busMoves b).blk = s.blk := by
  unfold State.busMoves; split <;> simp
@[simp] theorem State.busMoves_cfg (b : Block) (s : State) : (s.busMoves b).cfg = s.cfg := by
  unfold State.busMoves; split <;> simp
@[simp] theorem State.busMoves_link (b : Block) (s : State) : (s.busMoves b).link = s.link := by
  unfold State.busMoves; split <;> simp
@[simp] theorem State.busMoves_host (b : Block) (s : State) : (s.busMoves b).host = s.host := by
  unfold State.busMoves; split <;> simp
@[simp] theorem State.busMoves_holds (b : Block) (s : State) : (s.busMoves b).holds = s.holds := by
  unfold State.busMoves; split <;> simp
@[simp] theorem State.busMoves_resets (b : Block) (s : State) : (s.busMoves b).resets = s.resets := by
  unfold State.busMoves; split <;> simp

@[simp] theorem State.collect_blk (s : State) : s.collect.blk = s.blk := by
  unfold State.collect; split <;> rfl
@[simp] theorem State.collect_cfg (s : State) : s.collect.cfg = s.cfg := by
  unfold State.collect; split <;> rfl
@[simp] theorem State.collect_link (s : State) : s.collect.link = s.link := by
  unfold State.collect; split <;> rfl
@[simp] theorem State.collect_dev (s : State) : s.collect.dev = s.dev := by
  unfold State.collect; split <;> rfl
@[simp] theorem State.collect_host (s : State) : s.collect.host = s.host := by
  unfold State.collect; split <;> rfl
@[simp] theorem State.collect_holds (s : State) : s.collect.holds = s.holds := by
  unfold State.collect; split <;> rfl
@[simp] theorem State.collect_wire (s : State) : s.collect.wire = s.wire := by
  unfold State.collect; split <;> rfl
@[simp] theorem State.collect_inFlight (s : State) : s.collect.inFlight = s.inFlight := by
  unfold State.collect; split <;> rfl
@[simp] theorem State.collect_latency (s : State) : s.collect.latency = s.latency := by
  unfold State.collect; split <;> rfl
@[simp] theorem State.collect_port (s : State) : s.collect.port = s.port := by
  unfold State.collect; split <;> rfl

@[simp] theorem State.collect_resets (s : State) : s.collect.resets = s.resets := by
  unfold State.collect; split <;> rfl

@[simp] theorem State.nextMove_blk (s : State) : s.nextMove.blk = s.blk := by
  unfold State.nextMove; split <;> rfl
@[simp] theorem State.nextMove_cfg (s : State) : s.nextMove.cfg = s.cfg := by
  unfold State.nextMove; split <;> rfl
@[simp] theorem State.nextMove_link (s : State) : s.nextMove.link = s.link := by
  unfold State.nextMove; split <;> rfl
@[simp] theorem State.nextMove_dev (s : State) : s.nextMove.dev = s.dev := by
  unfold State.nextMove; split <;> rfl
@[simp] theorem State.nextMove_wire (s : State) : s.nextMove.wire = s.wire := by
  unfold State.nextMove; split <;> rfl
@[simp] theorem State.nextMove_inFlight (s : State) : s.nextMove.inFlight = s.inFlight := by
  unfold State.nextMove; split <;> rfl
@[simp] theorem State.nextMove_latency (s : State) : s.nextMove.latency = s.latency := by
  unfold State.nextMove; split <;> rfl
@[simp] theorem State.nextMove_captured (s : State) : s.nextMove.captured = s.captured := by
  unfold State.nextMove; split <;> rfl
@[simp] theorem State.nextMove_txDone (s : State) : s.nextMove.port.txDone = s.port.txDone := by
  unfold State.nextMove; split <;> rfl
@[simp] theorem State.nextMove_rxData (s : State) : s.nextMove.port.rxData = s.port.rxData := by
  unfold State.nextMove; split <;> rfl

@[simp] theorem State.nextMove_resets (s : State) : s.nextMove.resets = s.resets := by
  unfold State.nextMove; split <;> rfl

/-- The reset input changes the level of `reset` at the port and the levels still to come, and nothing
else. -/
theorem State.nextReset_eq (s : State) : s.nextReset =
    { s with port := { s.port with reset := s.resets.headD false }, resets := s.resets.tail } := rfl
@[simp] theorem State.nextReset_blk (s : State) : s.nextReset.blk = s.blk := rfl
@[simp] theorem State.nextReset_cfg (s : State) : s.nextReset.cfg = s.cfg := rfl
@[simp] theorem State.nextReset_link (s : State) : s.nextReset.link = s.link := rfl
@[simp] theorem State.nextReset_dev (s : State) : s.nextReset.dev = s.dev := rfl
@[simp] theorem State.nextReset_wire (s : State) : s.nextReset.wire = s.wire := rfl
@[simp] theorem State.nextReset_inFlight (s : State) : s.nextReset.inFlight = s.inFlight := rfl
@[simp] theorem State.nextReset_latency (s : State) : s.nextReset.latency = s.latency := rfl
@[simp] theorem State.nextReset_captured (s : State) : s.nextReset.captured = s.captured := rfl
@[simp] theorem State.nextReset_host (s : State) : s.nextReset.host = s.host := rfl
@[simp] theorem State.nextReset_txDone (s : State) : s.nextReset.port.txDone = s.port.txDone := rfl
@[simp] theorem State.nextReset_rxData (s : State) : s.nextReset.port.rxData = s.port.rxData := rfl

/-- The levels of `reset` come one a tick, whatever the host does at its command port (rule R40). -/
theorem State.hostMoves_reset (b : Block) (s : State) :
    (s.hostMoves b).port.reset = s.resets.headD false ∧ (s.hostMoves b).resets = s.resets.tail := by
  unfold State.hostMoves
  split <;> simp [State.nextReset_eq]

@[simp] theorem State.hostMoves_blk (b : Block) (s : State) : (s.hostMoves b).blk = s.blk := by
  unfold State.hostMoves; split <;> simp
@[simp] theorem State.hostMoves_cfg (b : Block) (s : State) : (s.hostMoves b).cfg = s.cfg := by
  unfold State.hostMoves; split <;> simp
@[simp] theorem State.hostMoves_link (b : Block) (s : State) : (s.hostMoves b).link = s.link := by
  unfold State.hostMoves; split <;> simp
@[simp] theorem State.hostMoves_dev (b : Block) (s : State) : (s.hostMoves b).dev = s.dev := by
  unfold State.hostMoves; split <;> simp
@[simp] theorem State.hostMoves_wire (b : Block) (s : State) : (s.hostMoves b).wire = s.wire := by
  unfold State.hostMoves; split <;> simp
@[simp] theorem State.hostMoves_inFlight (b : Block) (s : State) :
    (s.hostMoves b).inFlight = s.inFlight := by
  unfold State.hostMoves; split <;> simp
@[simp] theorem State.hostMoves_latency (b : Block) (s : State) :
    (s.hostMoves b).latency = s.latency := by
  unfold State.hostMoves; split <;> simp
@[simp] theorem State.hostMoves_txDone (b : Block) (s : State) :
    (s.hostMoves b).port.txDone = s.port.txDone := by
  unfold State.hostMoves; split <;> simp
@[simp] theorem State.hostMoves_rxData (b : Block) (s : State) :
    (s.hostMoves b).port.rxData = s.port.rxData := by
  unfold State.hostMoves; split <;> simp
@[simp] theorem State.hostMoves_captured (b : Block) (s : State) :
    (s.hostMoves b).captured =
      if s.blk.rdValid then s.captured ++ [(s.blk.rdIdx, s.blk.rdData)] else s.captured := by
  unfold State.hostMoves State.collect
  by_cases hr : s.blk.rdValid = true <;> simp [hr] <;> split <;> simp

/-- `settle` moves the agents around the controller and never the controller. -/
@[simp] theorem State.settle_blk (b : Block) (s : State) : (s.settle b).blk = s.blk := by
  simp [State.settle]
@[simp] theorem State.settle_cfg (b : Block) (s : State) : (s.settle b).cfg = s.cfg := by
  simp [State.settle]
@[simp] theorem State.settle_link (b : Block) (s : State) : (s.settle b).link = s.link := by
  simp [State.settle]

@[simp] theorem State.nextMove_freeUsed (s : State) : s.nextMove.freeUsed = s.freeUsed := by
  unfold State.nextMove; split <;> rfl
@[simp] theorem State.hostMoves_freeUsed (b : Block) (s : State) :
    (s.hostMoves b).freeUsed = s.freeUsed := by
  unfold State.hostMoves State.collect; split <;> split <;> simp [State.nextReset_eq]

/-- The transport and the device do not look at the command port or at `reset`, and leave them as they are. -/
theorem State.busMoves_port (b : Block) (s : State) (p : Inputs) (h : p.rxData = s.port.rxData) :
    State.busMoves b { s with port := p } =
      { s.busMoves b with
        port := { p with
          txDone := (s.busMoves b).port.txDone, rxData := (s.busMoves b).port.rxData } } := by
  unfold State.busMoves
  cases hl : s.link
  · simp only
    unfold State.hearWire
    simp only
    split <;> simp [State.presentTx, h, hl]
  · simp only [State.setDev]
    unfold State.launch
    simp only
    split <;> unfold State.deliver <;> simp only <;> split <;> try split
    all_goals simp [State.presentTx, h, hl]

@[simp] theorem State.busMoves_reset (b : Block) (s : State) :
    (s.busMoves b).port.reset = s.port.reset :=
  congrArg (fun t => t.port.reset) (s.busMoves_port b s.port rfl)
@[simp] theorem State.busMoves_cmdValid (b : Block) (s : State) :
    (s.busMoves b).port.cmdValid = s.port.cmdValid :=
  congrArg (fun t => t.port.cmdValid) (s.busMoves_port b s.port rfl)
@[simp] theorem State.busMoves_cmdOp (b : Block) (s : State) :
    (s.busMoves b).port.cmdOp = s.port.cmdOp :=
  congrArg (fun t => t.port.cmdOp) (s.busMoves_port b s.port rfl)
@[simp] theorem State.busMoves_cmdPage (b : Block) (s : State) :
    (s.busMoves b).port.cmdPage = s.port.cmdPage :=
  congrArg (fun t => t.port.cmdPage) (s.busMoves_port b s.port rfl)
@[simp] theorem State.busMoves_cmdPayload (b : Block) (s : State) :
    (s.busMoves b).port.cmdPayload = s.port.cmdPayload :=
  congrArg (fun t => t.port.cmdPayload) (s.busMoves_port b s.port rfl)

/-! ### Under the unconstrained link -/

/-- The device behind an unconstrained link never moves. -/
theorem State.settle_dev_unconstrained {s : State} (b : Block) (h : s.link = .unconstrained) :
    (s.settle b).dev = s.dev := by
  simp [State.settle, State.busMoves, h]

/-- The wire shifts by one entry at every tick. -/
theorem State.settle_wire_unconstrained {s : State} (b : Block) (h : s.link = .unconstrained) :
    (s.settle b).wire = s.wire.tail := by
  simp only [State.settle, State.hostMoves_wire, State.busMoves, h]
  unfold State.hearWire
  split <;> simp_all

/-- The transport port shows the first entry of the wire at the next tick. -/
theorem State.settle_tx_unconstrained {s : State} (b : Block) (h : s.link = .unconstrained)
    {x : Bool} {r : Byte} {rest : List (Bool × Byte)} (hw : s.wire = (x, r) :: rest) :
    (s.settle b).port.txDone = x ∧ (s.settle b).port.rxData = r := by
  simp [State.settle, State.busMoves, h, State.hearWire, hw]

/-- A wire that has ended presents no `tx_done`. -/
theorem State.settle_txDone_nil {s : State} (b : Block) (h : s.link = .unconstrained)
    (hw : s.wire = []) : (s.settle b).port.txDone = false := by
  simp [State.settle, State.busMoves, h, State.hearWire, hw]

/-- The host collects a captured byte and nothing else. -/
theorem State.settle_captured_unconstrained {s : State} (b : Block) (h : s.link = .unconstrained) :
    (s.settle b).captured =
      if s.blk.rdValid then s.captured ++ [(s.blk.rdIdx, s.blk.rdData)] else s.captured := by
  simp [State.settle, State.busMoves, h]

/-! ### Under the reference device, with no transfer in flight -/

/-- A tick that starts no transfer: the device sees the lines move, and no `tx_done` follows. -/
theorem State.settle_refDev_quiet {s : State} (b : Block) (h : s.link = .refDev) (hf : s.inFlight = [])
    (ht : s.blk.txStart = false) :
    (s.settle b).dev = s.dev.seeTick s.cfg b s.blk false ∧ (s.settle b).inFlight = [] ∧
    (s.settle b).latency = s.latency ∧ (s.settle b).port.txDone = false := by
  have e : s.busMoves b =
      (s.setDev (s.dev.seeTick s.cfg b s.blk false)).presentTx false s.port.rxData := by
    simp only [State.busMoves, h, hf, State.launch, State.setDev, ht, State.deliver]
    rfl
  simp only [State.settle, State.hostMoves_dev, State.hostMoves_inFlight, State.hostMoves_latency,
    State.hostMoves_txDone, e]
  exact ⟨rfl, hf, rfl, rfl⟩

/-- A tick that starts a transfer which the transport answers at once. -/
theorem State.settle_refDev_answer {s : State} (b : Block) (h : s.link = .refDev) (hf : s.inFlight = [])
    (ht : s.blk.txStart = true) (hw : s.latency.headD 0 = 0) :
    ((s.settle b).port.rxData, (s.settle b).dev) =
      (s.dev.seeTick s.cfg b s.blk false).exchange s.cfg s.blk.csN s.blk.txData
        (Config.freeByte s.freeUsed) ∧
    (s.settle b).inFlight = [] ∧ (s.settle b).latency = s.latency.tail ∧
    (s.settle b).port.txDone = true := by
  simp only [State.settle, State.hostMoves_dev, State.hostMoves_inFlight, State.hostMoves_latency,
    State.hostMoves_txDone, State.hostMoves_rxData, State.busMoves, h, hf, State.launch, State.setDev, ht,
    if_true, hw, State.deliver, List.nil_append]
  exact ⟨rfl, rfl, rfl, rfl⟩

/-- A tick that starts a transfer which the transport answers later. -/
theorem State.settle_refDev_wait {s : State} (b : Block) (h : s.link = .refDev) (hf : s.inFlight = [])
    (ht : s.blk.txStart = true) {w : Nat} (hw : s.latency.headD 0 = w + 1) :
    (s.settle b).dev = s.dev.seeTick s.cfg b s.blk false ∧
    (s.settle b).inFlight = [⟨s.blk.txData, w⟩] ∧ (s.settle b).latency = s.latency.tail ∧
    (s.settle b).port.txDone = false := by
  simp only [State.settle, State.hostMoves_dev, State.hostMoves_inFlight, State.hostMoves_latency,
    State.hostMoves_txDone, State.busMoves, h, hf, State.launch, State.setDev, ht,
    if_true, hw, State.deliver, List.nil_append]
  exact ⟨rfl, rfl, rfl, rfl⟩

/-- Under the reference device every transfer started takes the next latency. -/
theorem State.settle_refDev_latency {s : State} (b : Block) (h : s.link = .refDev) :
    (s.settle b).latency = if s.blk.txStart then s.latency.tail else s.latency := by
  have hd : ∀ u : State, u.deliver.latency = u.latency := by
    intro u
    unfold State.deliver
    split
    · rfl
    · split <;> rfl
  simp only [State.settle, State.hostMoves_latency, State.busMoves, h, hd, State.launch, State.setDev]
  split <;> rfl

/-- The transfers in flight after a tick that may start one. -/
theorem State.launch_inFlight (s : State) : s.launch.inFlight =
    s.inFlight ++ if s.blk.txStart then [⟨s.blk.txData, s.latency.headD 0⟩] else [] := by
  unfold State.launch
  split <;> simp [*]

/-- With a transfer in flight: the oldest waits one tick less, or is answered and in flight no more. -/
theorem State.settle_refDev_flight {s : State} (b : Block) (h : s.link = .refDev) {f : Flight}
    {rest : List Flight} (hf : s.inFlight = f :: rest) :
    let started : List Flight := if s.blk.txStart then [⟨s.blk.txData, s.latency.headD 0⟩] else []
    (∀ w, f.waits = w + 1 → (s.settle b).port.txDone = false ∧
      (s.settle b).inFlight = ⟨f.byte, w⟩ :: (rest ++ started) ∧
      (s.settle b).dev = s.dev.seeTick s.cfg b s.blk true) ∧
    (f.waits = 0 → (s.settle b).port.txDone = true ∧ (s.settle b).inFlight = rest ++ started ∧
      ((s.settle b).port.rxData, (s.settle b).dev) =
        (s.dev.seeTick s.cfg b s.blk true).exchange s.cfg s.blk.csN f.byte
          (Config.freeByte s.freeUsed)) := by
  intro started
  have hl : (s.setDev (s.dev.seeTick s.cfg b s.blk true)).launch.inFlight = f :: (rest ++ started) := by
    rw [State.launch_inFlight]
    simp [hf, started]
  have hu : ∀ u : State, u.launch.freeUsed = u.freeUsed := by
    intro u
    unfold State.launch
    split <;> rfl
  have e : s.busMoves b = (s.setDev (s.dev.seeTick s.cfg b s.blk true)).launch.deliver := by
    simp only [State.busMoves, h, hf, List.isEmpty_cons, Bool.not_false]
  refine ⟨fun w hw => ?_, fun hw => ?_⟩ <;>
    simp only [State.settle, State.hostMoves_dev, State.hostMoves_inFlight, State.hostMoves_txDone,
      State.hostMoves_rxData, e, State.deliver, hl, hw]
  · exact ⟨rfl, rfl, by simp⟩
  · simp [State.presentTx, hu]

/-- With chip-select high after the tick the device keeps its frame and its array, whatever the lines did. -/
theorem RefDev.seeTick_csHigh {c : Cfg} {b b' : Block} {x : Bool} {d : RefDev} (h : b'.csN = true) :
    (d.seeTick c b b' x).frame = d.frame ∧ (d.seeTick c b b' x).mem = d.mem := by
  unfold RefDev.seeTick RefDev.seeCs RefDev.seeRst
  rw [h]
  cases b.csN <;> cases b.rstN <;> cases b'.rstN <;>
    simp [RefDev.csRise, RefDev.rstFall, RefDev.rstRise, RefDev.lose, RefDev.wake] <;> split <;> try simp
  all_goals (split <;> simp)

/-- With chip-select high a byte that arrives is ignored (rule R76). -/
theorem State.deliver_csHigh {s : State} (h : s.blk.csN = true) : s.deliver.dev = s.dev := by
  unfold State.deliver
  split
  · rfl
  · split
    · simp [RefDev.exchange, h, State.presentTx]
    · rfl

/-- After a tick that leaves chip-select high the device has the frame and the array it had. -/
theorem State.settle_csHigh {s : State} (b : Block) (h : s.blk.csN = true) :
    (s.settle b).dev.frame = s.dev.frame ∧ (s.settle b).dev.mem = s.dev.mem := by
  have hb : (s.busMoves b).dev.frame = s.dev.frame ∧ (s.busMoves b).dev.mem = s.dev.mem := by
    unfold State.busMoves
    split
    · simp
    · rw [State.deliver_csHigh (by simpa using h)]
      simpa using RefDev.seeTick_csHigh h
  simpa [State.settle] using hb

/-- Where no reset is to come, none is raised. -/
theorem State.hostMoves_no_reset {s : State} (b : Block) (hh : true ∉ s.resets) :
    (s.hostMoves b).port.reset = false ∧ true ∉ (s.hostMoves b).resets := by
  rw [(s.hostMoves_reset b).1, (s.hostMoves_reset b).2]
  cases hr : s.resets with
  | nil => simp
  | cons r rest => rw [hr] at hh; cases r <;> simp_all

/-- The device has no turn behind an unconstrained link. -/
theorem State.deviceTurn_unconstrained {s : State} (h : s.link = .unconstrained) :
    s.deviceTurn = false := by
  simp [State.deviceTurn, h]

/-! ### The command in progress and the command presented -/

/-- The command that runs is the one whose code and page the latches hold. -/
theorem Block.running_eq (b : Block) : b.running = commandOf b.op b.page := by
  unfold Block.running decodeCommand
  rw [commandWord_op, commandWord_page]

/-! ### One step, situation by situation -/

/-- The step of a busy controller runs the primitive at `pos`. -/
theorem step_busy {s : State} {p : Prim} (hd : s.deviceTurn = false) (hr : s.port.reset = false)
    (hb : s.blk.busy = true) (hp : (sequenceOf s.cfg s.blk.running)[s.blk.pos]? = some p) :
    step s = .next ((s.setBlk (s.blk.pulsesFall.run s.cfg s.port p)).settle s.blk) := by
  simp [step, State.fetch, hd, hr, hb, exec_busy hb hp, State.around]

/-- The command at the port is the one whose code and page stand there. -/
theorem Inputs.presented_eq (p : Inputs) : p.presented = commandOf p.cmdOp p.cmdPage := by
  unfold Inputs.presented decodeCommand
  rw [commandWord_op, commandWord_page]

/-- The step at which a command stands at the port of an idle controller. -/
theorem step_presented {s : State} {need : PState} (hd : s.deviceTurn = false)
    (hr : s.port.reset = false) (hb : s.blk.busy = false) (hv : s.port.cmdValid = true)
    (hn : requiredState (commandOf s.port.cmdOp s.port.cmdPage) = some need) :
    step s = .next ((s.setBlk (s.blk.pulsesFall.present s.cfg s.port.cmdOp need
      (s.port.cmdOp == 6 || s.port.cmdOp == 7) s.port.cmdPage s.port.cmdPayload)).settle s.blk) := by
  simp [step, State.fetch, hd, hr, hb, hv, s.port.presented_eq, exec_idle hb hn, State.around]

/-- The step at which a reserved code stands at the port of an idle controller. -/
theorem step_reserved {s : State} (hd : s.deviceTurn = false) (hr : s.port.reset = false)
    (hb : s.blk.busy = false) (hv : s.port.cmdValid = true)
    (hn : requiredState (commandOf s.port.cmdOp s.port.cmdPage) = none) :
    step s = .next ((s.setBlk (s.blk.pulsesFall.reject .illegalCommand)).settle s.blk) := by
  simp [step, State.fetch, hd, hr, hb, hv, s.port.presented_eq, exec_reserved hb hn, State.around]

/-- The step of an idle controller at whose port nothing stands. -/
theorem step_idle {s : State} (hd : s.deviceTurn = false) (hr : s.port.reset = false)
    (hb : s.blk.busy = false) (hv : s.port.cmdValid = false) : step s = .next s.idleTick := by
  simp [step, State.fetch, State.withoutInstr, hd, hr, hb, hv]

/-- The step at which `reset = 1`. -/
theorem step_reset {s : State} (hd : s.deviceTurn = false) (hr : s.port.reset = true) :
    step s = .next s.resetTick := by
  simp [step, State.fetch, State.withoutInstr, hd, hr]

/-- A clock tick that answers a next state is one of four (rule R121): a reset, an idle tick, an acceptance or
a rejection, or one tick of the primitive at `pos`. -/
theorem tick_cases {s t : State} (hd : s.deviceTurn = false) (h : step s = .next t) :
    (s.port.reset = true ∧ t = s.resetTick) ∨
    (s.port.reset = false ∧ s.blk.busy = false ∧ s.port.cmdValid = false ∧ t = s.idleTick) ∨
    (s.port.reset = false ∧ s.blk.busy = false ∧ s.port.cmdValid = true ∧
      ∃ b, t = (s.setBlk b).settle s.blk ∧
        ((requiredState (commandOf s.port.cmdOp s.port.cmdPage) = none ∧
            b = s.blk.pulsesFall.reject .illegalCommand) ∨
          ∃ need, requiredState (commandOf s.port.cmdOp s.port.cmdPage) = some need ∧
            b = s.blk.pulsesFall.present s.cfg s.port.cmdOp need
              (s.port.cmdOp == 6 || s.port.cmdOp == 7) s.port.cmdPage s.port.cmdPayload)) ∨
    (s.port.reset = false ∧ s.blk.busy = true ∧
      ∃ p, (sequenceOf s.cfg s.blk.running)[s.blk.pos]? = some p ∧
        t = (s.setBlk (s.blk.pulsesFall.run s.cfg s.port p)).settle s.blk) := by
  cases hr : s.port.reset
  · cases hb : s.blk.busy
    · cases hv : s.port.cmdValid
      · rw [step_idle hd hr hb hv] at h; cases h; simp
      · cases hn : requiredState (commandOf s.port.cmdOp s.port.cmdPage) with
        | none => rw [step_reserved hd hr hb hv hn] at h; cases h; simp
        | some need => rw [step_presented hd hr hb hv hn] at h; cases h; simp
    · cases hp : (sequenceOf s.cfg s.blk.running)[s.blk.pos]? with
      | some p => rw [step_busy hd hr hb hp] at h; cases h; simp
      | none =>
        exfalso
        have hx : exec s.blk.running s = .fault .noPrimitive := exec_off_end hb hp (by
          rw [Block.running_eq]
          rcases opcode_cases s.blk.op with h | h | h | h | h | h | h | h | h | h | h | h | h | h | h | h <;>
            rw [h] <;> rfl)
        simp [step, State.fetch, hd, hr, hb, hx] at h
  · rw [step_reset hd hr] at h; cases h; simp

/-- A clock tick that leaves `tx_start = 1` has started a transfer, and moved no line. -/
theorem tick_starts {s t : State} (hd : s.deviceTurn = false) (h : step s = .next t)
    (ht : t.blk.txStart = true) : ∃ x, t.blk = s.blk.pulsesFall.startTransfer x := by
  rcases tick_cases hd h with ⟨_, rfl⟩ | ⟨_, _, _, rfl⟩ | ⟨_, _, _, b, rfl, hb⟩ | ⟨_, _, p, _, rfl⟩
  · simp [State.resetTick, State.setBlk, Block.reset] at ht
  · simp [State.idleTick, State.setBlk] at ht
  · exfalso
    rcases hb with ⟨_, rfl⟩ | ⟨need, _, rfl⟩
    · simp [State.setBlk] at ht
    · rcases Block.present_cases s.cfg s.port.cmdOp need (s.port.cmdOp == 6 || s.port.cmdOp == 7)
        s.port.cmdPage s.port.cmdPayload s.blk.pulsesFall with ⟨_, g⟩ | ⟨_, _, g⟩ | ⟨_, _, g⟩ <;>
        rw [g] at ht <;> simp [State.setBlk] at ht
  · simp only [State.settle_blk, State.setBlk] at ht ⊢
    obtain ⟨x, _, hx⟩ := Block.run_starts rfl rfl rfl ht
    exact ⟨x, hx⟩

/-- Every clock tick replaces the controller's registers, and then the agents around it move. -/
theorem tick_settles {s t : State} (hd : s.deviceTurn = false) (h : step s = .next t) :
    t = (s.setBlk t.blk).settle s.blk := by
  rcases tick_cases hd h with ⟨_, rfl⟩ | ⟨_, _, _, rfl⟩ | ⟨_, _, _, b, rfl, _⟩ | ⟨_, _, p, _, rfl⟩ <;>
    simp [State.resetTick, State.idleTick, State.setBlk]

/-- A run of one more step. -/
theorem run_succ (k : Nat) {s t : State} (h : step s = .next t) :
    Sys2Proof.core.run (k + 1) s = Sys2Proof.core.run k t := by
  have h' : Sys2Proof.core.step s = .next t := h
  simp only [Host.Core.run, h']

/-- The events of a run of one more step. -/
theorem trace_succ (k : Nat) {s t : State} (h : step s = .next t) :
    trace (k + 1) s = pinEvents s t ++ trace k t := by
  simp [trace, h]

end Sys2Proof.Machine
end

