-- ==== Sys2Proof/Laws/Controller.lean ====
section
/-! SUPPORT. The sequences as a whole (40_framing_and_transport.md rule R132, rule R133), and what one tick of a
primitive keeps of the controller's invariant. -/

namespace Sys2Proof.Machine

/-! ### The sequences -/

/-- The primitive is `FINISH`. -/
def Prim.isFinish : Prim → Bool
  | .finish _ => true
  | _ => false

/-- A capture loop has at least one byte. -/
def Prim.capOk : Prim → Bool
  | .xferCapture m => decide (0 < m)
  | _ => true

/-- What holds at every position of every sequence: `FINISH` finds the lines idle, every other primitive has
a successor, and a transfer finds chip-select asserted. -/
def seqOk (seq : List Prim) : Prop := ∀ pos p, seq[pos]? = some p →
  (p.isFinish = true → linesAt seq pos = Lines.idle) ∧
  (p.isFinish = false → ∃ q, seq[pos + 1]? = some q) ∧ p.capOk = true ∧
  (p.isTransfer = true → (linesAt seq pos).csN = false)

/-- The same, as a test that runs along the sequence. -/
def seqCheck : Lines → List Prim → Bool
  | _, [] => true
  | l, p :: rest =>
    (if p.isFinish then decide (l = Lines.idle) else !rest.isEmpty) && p.capOk &&
      (!p.isTransfer || !l.csN) && seqCheck (l.after p) rest

theorem seqCheck_sound {l : Lines} {seq : List Prim} (h : seqCheck l seq = true) {pos : Nat} {p : Prim}
    (hp : seq[pos]? = some p) :
    (p.isFinish = true → (seq.take pos).foldl Lines.after l = Lines.idle) ∧
    (p.isFinish = false → ∃ q, seq[pos + 1]? = some q) ∧ p.capOk = true ∧
    (p.isTransfer = true → ((seq.take pos).foldl Lines.after l).csN = false) := by
  induction seq generalizing l pos with
  | nil => simp at hp
  | cons q rest ih =>
    simp only [seqCheck, Bool.and_eq_true, Bool.or_eq_true, Bool.not_eq_true'] at h
    obtain ⟨⟨⟨h1, h2⟩, h3⟩, h4⟩ := h
    cases pos with
    | succ pos => simpa using ih h4 (by simpa using hp)
    | zero =>
      simp only [List.getElem?_cons_zero, Option.some.injEq] at hp
      subst hp
      refine ⟨fun hf => ?_, fun hf => ?_, h2, fun ht => ?_⟩
      · simpa [hf] using h1
      · cases rest <;> simp_all
      · rcases h3 with h3 | h3
        · simp [ht] at h3
        · exact h3

theorem seqOk_all (c : Cfg) (i : Instr) : seqOk (sequenceOf c i) := by
  have h : seqCheck Lines.idle (sequenceOf c i) = true := by cases i <;> rfl
  exact fun _ _ => seqCheck_sound h

theorem linesAt_succ {seq : List Prim} {pos : Nat} {p : Prim} (h : seq[pos]? = some p) :
    linesAt seq (pos + 1) = (linesAt seq pos).after p := by
  simp [linesAt, List.take_add_one, h]

/-- Every command's sequence begins with a primitive. -/
theorem sequence_head (c : Cfg) {i : Instr} {q : PState} (h : requiredState i = some q) :
    ∃ p, (sequenceOf c i)[0]? = some p ∧ p.capOk = true := by
  cases i <;> first | exact ⟨_, rfl, rfl⟩ | simp [requiredState] at h

/-- The five transitions of the power state: from, operation code, to (41_power.md rule R163). -/
def powerTransitions : List (PState × OpCode × PState) :=
  [(.uninit, 0, .active), (.active, 9, .dpd), (.dpd, 10, .active), (.active, 11, .udpd),
   (.udpd, 12, .active)]

/-- What may stand in the sequence of operation `o`, whose required state is `need`, under the lines `l`. -/
def placeOk (o : OpCode) (need : Option PState) (l : Lines) (p : Prim) : Bool :=
  (!l.wpN || o == 7 || o == 8) && (l.rstN || o == 0) &&
    (!p.isTransfer || need == some .active || (need == some .dpd && o == 10)) &&
    match p with
    | .finish (some q) => need.any fun q0 => powerTransitions.contains (q0, o, q)
    | .xferStatus => [1, 2, 4, 5, 7, 8, 13].contains o
    | .poll => [1, 2, 4, 5, 7, 8, 13].contains o
    | _ => true

/-- The test of every place of a sequence, from the lines `l` on. -/
def placesOk (o : OpCode) (need : Option PState) : Lines → List Prim → Bool
  | _, [] => true
  | l, p :: rest => placeOk o need l p && placesOk o need (l.after p) rest

theorem placesOk_sound {o : OpCode} {need : Option PState} {l : Lines} {seq : List Prim}
    (h : placesOk o need l seq = true) {pos : Nat} {p : Prim} (hp : seq[pos]? = some p) :
    placeOk o need ((seq.take pos).foldl Lines.after l) p = true := by
  induction seq generalizing l pos with
  | nil => simp at hp
  | cons q rest ih =>
    simp only [placesOk, Bool.and_eq_true] at h
    cases pos with
    | succ pos => simpa using ih h.2 (by simpa using hp)
    | zero =>
      simp only [List.getElem?_cons_zero, Option.some.injEq] at hp
      subst hp
      exact h.1

/-- What stands where in the sequences: write-protect is released only in WRITE_PAGE and ERASE_CHIP, the
reset line asserted only in INIT, a transfer needs an awake device or is the resume frame, `FINISH` writes
the power state of one of the five transitions, and the status latch is read by seven operations. -/
theorem seq_facts (c : Cfg) (o : OpCode) (n : PageNo) (pos : Nat) (p : Prim)
    (h : (sequenceOf c (commandOf o n))[pos]? = some p) :
    ((linesAt (sequenceOf c (commandOf o n)) pos).wpN = true → o = 7 ∨ o = 8) ∧
    ((linesAt (sequenceOf c (commandOf o n)) pos).rstN = false → o = 0) ∧
    (p.isTransfer = true → requiredState (commandOf o n) = some .active ∨
      requiredState (commandOf o n) = some .dpd ∧ o = 10) ∧
    (∀ q, p = .finish (some q) → ∃ q0, requiredState (commandOf o n) = some q0 ∧
      (q0, o, q) ∈ powerTransitions) ∧
    (p = .xferStatus ∨ p = .poll → o ∈ ([1, 2, 4, 5, 7, 8, 13] : List OpCode)) := by
  have hall : placesOk o (requiredState (commandOf o n)) Lines.idle
      (sequenceOf c (commandOf o n)) = true := by
    rcases opcode_cases o with h | h | h | h | h | h | h | h | h | h | h | h | h | h | h | h <;>
      subst h <;> rfl
  have hk := placesOk_sound hall h
  simp only [placeOk, Bool.and_eq_true] at hk
  obtain ⟨⟨⟨h1, h2⟩, h3⟩, h4⟩ := hk
  refine ⟨fun hw => ?_, fun hw => ?_, fun ht => ?_, fun q hq => ?_, fun hs => ?_⟩
  · have hw' : ((sequenceOf c (commandOf o n)).take pos |>.foldl Lines.after Lines.idle).wpN = true := hw
    simpa [hw'] using h1
  · have hw' : ((sequenceOf c (commandOf o n)).take pos |>.foldl Lines.after Lines.idle).rstN = false := hw
    simpa [hw'] using h2
  · simpa [ht] using h3
  · subst hq
    cases hn : requiredState (commandOf o n) with
    | none => simp [hn] at h4
    | some q0 => exact ⟨q0, rfl, by simpa [hn] using h4⟩
  · rcases hs with rfl | rfl <;> simpa using h4

/-! ### The invariant of the controller -/

theorem holds_start {c : Cfg} {b : Block} {p : Prim} (hs : b.sub = .start) (hi : b.idx = 0)
    (hc : p.capOk = true) : p.Holds c b := by
  cases p <;> simp_all [Prim.Holds, Prim.capOk]

theorem running_congr {b b' : Block} (h1 : b'.op = b.op) (h2 : b'.page = b.page) :
    b'.running = b.running := by
  simp [Block.running, h1, h2]

/-- A tick that moves on to the next position keeps the invariant of a busy controller. -/
theorem busyInv_next {c : Cfg} {b b' : Block} {p : Prim} (h : b.BusyInv c)
    (hp : (sequenceOf c b.running)[b.pos]? = some p) (hf : p.isFinish = false)
    (h1 : b'.op = b.op) (h2 : b'.page = b.page) (h3 : b'.pstate = b.pstate) (h4 : b'.pos = b.pos + 1)
    (h5 : b'.sub = .start) (h6 : b'.idx = 0) (h7 : b'.txStart = false) (h8 : b'.lines = b.lines.after p) :
    b'.BusyInv c := by
  obtain ⟨hr, hg, hl, _⟩ := h
  have hrun := running_congr h1 h2
  have ok := seqOk_all c b.running b.pos p hp
  obtain ⟨q, hq⟩ := ok.2.1 hf
  have ok' := seqOk_all c b.running _ q hq
  refine ⟨by rw [hrun, h3]; exact hr, by rw [hrun, h2]; exact hg, ?_, q, ?_, ?_, ?_⟩
  · rw [hrun, h4, linesAt_succ hp, ← hl]; exact h8
  · rw [hrun, h4]; exact hq
  · exact holds_start h5 h6 ok'.2.2.1
  · simp [h7]

/-- A tick that stays at its position keeps it. -/
theorem busyInv_stay {c : Cfg} {b b' : Block} {p : Prim} (h : b.BusyInv c)
    (hp : (sequenceOf c b.running)[b.pos]? = some p)
    (h1 : b'.op = b.op) (h2 : b'.page = b.page) (h3 : b'.pstate = b.pstate) (h4 : b'.pos = b.pos)
    (h5 : p.Holds c b') (h7 : b'.txStart = true → p.isTransfer = true ∧ b'.sub = .wait)
    (h8 : b'.lines = b.lines) :
    b'.BusyInv c := by
  obtain ⟨hr, hg, hl, _⟩ := h
  have hrun := running_congr h1 h2
  exact ⟨by rw [hrun, h3]; exact hr, by rw [hrun, h2]; exact hg, by rw [hrun, h4, h8]; exact hl, p,
    by rw [hrun, h4]; exact hp, h5, h7⟩

theorem inv_of_busy {c : Cfg} {b : Block} (hb : b.busy = true) (h : b.BusyInv c) (hl : b.LimitInv c) :
    b.Inv c :=
  ⟨by simp [hb], fun _ => h, hl⟩

theorem inv_of_idle {c : Cfg} {b : Block} (hb : b.busy = false) (h : b.IdleInv) (hl : b.LimitInv c) :
    b.Inv c :=
  ⟨fun _ => h, by simp [hb], hl⟩

theorem abort_inv {c : Cfg} {b : Block} {e : Err} (hl : b.LimitInv c) : (b.abort e).Inv c :=
  inv_of_idle rfl ⟨rfl, rfl, rfl, rfl, rfl⟩ hl

theorem xfer_inv {c : Cfg} {inp : Inputs} {b : Block} {p : Prim} {x : Byte} {k : Byte → Block → Block}
    (hb : b.busy = true) (h : b.BusyInv c) (hl : b.LimitInv c)
    (hp : (sequenceOf c b.running)[b.pos]? = some p) (ht : p.isTransfer = true) (hh : p.Holds c b)
    (hk : ∀ r, (k r { b.pulsesFall with sub := .start }).Inv c) :
    (b.pulsesFall.xfer c inp x k).Inv c := by
  rcases Block.xfer_cases c inp x k b.pulsesFall with
    ⟨h1, h2⟩ | ⟨h1, h2, h3⟩ | ⟨h1, h2, h3, h4⟩ | ⟨h1, h2, h3, h4⟩
  · rw [h2]
    refine inv_of_busy hb (busyInv_stay h hp rfl rfl rfl rfl ?_ (fun _ => ⟨ht, rfl⟩) rfl) ?_
    · cases p <;> simp_all [Prim.Holds, Prim.isTransfer]
    · refine ⟨fun hc => ?_, hl.2⟩
      exact Nat.pos_of_ne_zero hc
  · rw [h3]; exact hk _
  · rw [h4]; exact abort_inv hl
  · rw [h4]
    refine inv_of_busy hb (busyInv_stay h hp rfl rfl rfl rfl ?_ (by simp) rfl) ?_
    · cases p <;> simp_all [Prim.Holds, Prim.isTransfer]
    · refine ⟨fun hc => ?_, hl.2⟩
      simp [busLimitReached, hc] at h3
      simpa using h3

/-- A tick of the current primitive keeps the invariant. -/
theorem run_inv {c : Cfg} {inp : Inputs} {b : Block} {p : Prim}
    (hb : b.busy = true) (h : b.BusyInv c) (hl : b.LimitInv c)
    (hp : (sequenceOf c b.running)[b.pos]? = some p) : (b.pulsesFall.run c inp p).Inv c := by
  have hh : p.Holds c b := by
    obtain ⟨_, _, _, q, hq, hh, _⟩ := h
    rw [hp] at hq; cases hq; exact hh
  cases p with
  | csAssert => exact inv_of_busy hb (busyInv_next h hp rfl rfl rfl rfl rfl hh.1 hh.2 rfl rfl) hl
  | csRelease => exact inv_of_busy hb (busyInv_next h hp rfl rfl rfl rfl rfl hh.1 hh.2 rfl rfl) hl
  | wpRelease => exact inv_of_busy hb (busyInv_next h hp rfl rfl rfl rfl rfl hh.1 hh.2 rfl rfl) hl
  | wpAssert => exact inv_of_busy hb (busyInv_next h hp rfl rfl rfl rfl rfl hh.1 hh.2 rfl rfl) hl
  | rstAssert => exact inv_of_busy hb (busyInv_next h hp rfl rfl rfl rfl rfl hh.1 hh.2 rfl rfl) hl
  | rstRelease => exact inv_of_busy hb (busyInv_next h hp rfl rfl rfl rfl rfl hh.1 hh.2 rfl rfl) hl
  | dwell t =>
    simp only [Block.run]
    rcases Block.dwell_cases c t b.pulsesFall with ⟨h1, h2⟩ | ⟨h1, h2⟩
    · rw [h2]; exact inv_of_busy hb (busyInv_next h hp rfl rfl rfl rfl rfl rfl hh.1 rfl rfl) hl
    · rw [h2]
      refine inv_of_busy hb (busyInv_stay h hp rfl rfl rfl rfl ⟨hh.1, fun _ => ?_⟩ (by simp) rfl) hl
      have h1' : b.dwellLeft c t ≠ 1 := h1
      show 1 ≤ b.dwellLeft c t - 1 ∧ b.dwellLeft c t - 1 < _
      have := Dwell.one_le_ticks c t
      unfold Block.dwellLeft at h1' ⊢
      have h3 := hh.2
      revert h1' h3
      cases b.sub <;> simp <;> omega
  | xferConst x => 
    refine xfer_inv hb h hl hp rfl hh fun r =>
      inv_of_busy hb (busyInv_next h hp rfl rfl rfl rfl rfl rfl hh rfl rfl) hl
  | xferAddr x => 
    refine xfer_inv hb h hl hp rfl hh fun r =>
      inv_of_busy hb (busyInv_next h hp rfl rfl rfl rfl rfl rfl hh rfl rfl) hl
  | xferPayload => 
    refine xfer_inv hb h hl hp rfl hh fun r => ?_
    unfold Block.afterPayload
    split
    · exact inv_of_busy hb (busyInv_next h hp rfl rfl rfl rfl rfl rfl rfl rfl rfl) hl
    · rename_i hi
      refine inv_of_busy hb (busyInv_stay h hp rfl rfl rfl rfl ?_ (by simp) rfl) hl
      simp [Prim.Holds] at hh hi ⊢
      have : b.idx.toNat ≠ 511 := fun h => hi (BitVec.eq_of_toNat_eq (by simpa using h))
      omega
  | xferCapture m => 
    refine xfer_inv hb h hl hp rfl hh fun r => ?_
    unfold Block.afterCapture
    simp only
    split
    · exact inv_of_busy hb (busyInv_next h hp rfl rfl rfl rfl rfl rfl rfl rfl rfl) hl
    · rename_i hi
      refine inv_of_busy hb (busyInv_stay h hp rfl rfl rfl rfl ?_ (by simp) rfl) hl
      simp [Prim.Holds] at hh hi ⊢
      omega
  | xferStatus => 
    refine xfer_inv hb h hl hp rfl hh fun r => ?_
    unfold Block.afterStatus
    split
    · exact inv_of_busy hb (busyInv_stay h hp rfl rfl rfl rfl (by simp [Prim.Holds]) (by simp) rfl) hl
    · exact inv_of_busy hb (busyInv_next h hp rfl rfl rfl rfl rfl rfl rfl rfl rfl) hl
  | poll => 
    refine xfer_inv hb h hl hp rfl hh fun r => ?_
    rcases Block.afterPoll_cases c r { b.pulsesFall with sub := .start } with
      ⟨_, h2⟩ | ⟨_, _, h2⟩ | ⟨_, _, _, h2⟩ | ⟨_, _, hc, h2⟩ <;> rw [h2]
    · exact inv_of_busy hb (busyInv_stay h hp rfl rfl rfl rfl (by simp [Prim.Holds]) (by simp) rfl) hl
    · exact inv_of_busy hb (busyInv_next h hp rfl rfl rfl rfl rfl rfl rfl rfl rfl) hl
    · exact abort_inv hl
    · refine inv_of_busy hb
        (busyInv_stay h hp rfl rfl rfl rfl (by simp [Prim.Holds]) (by simp) rfl) ⟨hl.1, fun h0 => ?_⟩
      simp [pollLimitReached, h0] at hc
      simpa using hc
  | finish q => 
    have ok := seqOk_all c b.running b.pos _ hp
    exact inv_of_idle rfl ⟨rfl, hh.1, hh.2, h.2.2.1.trans (ok.1 rfl), rfl⟩ hl

theorem paged_commandOf (o : OpCode) (n : PageNo) : Instr.paged (commandOf o n) = (o == 6 || o == 7) := by
  rcases opcode_cases o with rfl | rfl | rfl | rfl | rfl | rfl | rfl | rfl | rfl | rfl | rfl | rfl | rfl | rfl |
    rfl | rfl <;> rfl

/-- A rejection keeps the invariant. -/
theorem reject_inv {c : Cfg} {b : Block} {e : Err} (hb : b.busy = false) (h : b.Inv c) :
    (b.pulsesFall.reject e).Inv c := by
  obtain ⟨h1, _, h3⟩ := h
  obtain ⟨a1, a2, a3, a4, a5⟩ := h1 hb
  exact inv_of_idle hb ⟨a1, a2, a3, a4, rfl⟩ h3

/-- Acceptance keeps the invariant. -/
theorem present_inv {c : Cfg} {b : Block} {o : OpCode} {n : PageNo} {v : Payload} {need : PState}
    (hb : b.busy = false) (h : b.Inv c)
    (hr : requiredState (commandOf o n) = some need) :
    (b.pulsesFall.present c o need (o == 6 || o == 7) n v).Inv c := by
  rcases Block.present_cases c o need (o == 6 || o == 7) n v b.pulsesFall with
    ⟨_, h2⟩ | ⟨_, _, h2⟩ | ⟨hs, hg, h2⟩ <;> rw [h2]
  · exact reject_inv hb h
  · exact reject_inv hb h
  · obtain ⟨a1, a2, a3, a4, a5⟩ := h.1 hb
    have hrun : (b.pulsesFall.accept o n v).running = commandOf o n := Block.running_eq _
    obtain ⟨p, hp, hc⟩ := sequence_head c hr
    refine inv_of_busy rfl ⟨?_, ?_, ?_, p, ?_, ?_, ?_⟩
      ⟨fun h => Nat.pos_of_ne_zero h, fun h => Nat.pos_of_ne_zero h⟩
    · rw [hrun, hr, ← hs]; rfl
    · rw [hrun, paged_commandOf]; exact hg
    · rw [hrun]; exact a4
    · rw [hrun]; exact hp
    · exact holds_start rfl rfl hc
    · simp

end Sys2Proof.Machine
end

