-- ==== Sys2Proof/Laws/Memory.lean ====
section
/-! SUPPORT. The laws of the flash page array: read after write, what a write leaves alone, and that every
write keeps the canonical form; and the same for the sets of pages. -/

namespace Sys2Proof.Machine

namespace Memory

/-! ### One byte -/

@[simp] theorem get_nil (d : Byte) (a : Nat) : get d [] a = d := rfl

theorem get_cons (d : Byte) (a a' : Nat) (b' : Byte) (m : List Host.Cell) :
    get d ((a', b') :: m) a = if a = a' then b' else get d m a := rfl

theorem rising_mono {lo lo' : Nat} (h : lo' ≤ lo) {m : List Host.Cell} (hm : rising lo m = true) :
    rising lo' m = true := by
  cases m with
  | nil => rfl
  | cons cell m =>
    obtain ⟨a, b⟩ := cell
    simp only [rising, Bool.and_eq_true, decide_eq_true_eq] at hm ⊢
    exact ⟨by omega, hm.2⟩

/-- Below its first address a rising list lists nothing. -/
theorem get_of_lt {d : Byte} {lo a : Nat} (h : a < lo) {m : List Host.Cell} (hm : rising lo m = true) :
    get d m a = d := by
  induction m generalizing lo with
  | nil => rfl
  | cons cell m ih =>
    obtain ⟨a', b'⟩ := cell
    simp only [rising, Bool.and_eq_true, decide_eq_true_eq] at hm
    rw [get_cons, if_neg (by omega)]
    exact ih (lo := a' + 1) (by omega) hm.2

/-- Reading back the byte just put. -/
theorem get_put_same {d : Byte} (a : Nat) (b : Byte) {lo : Nat} {m : List Host.Cell}
    (hm : rising lo m = true) : get d (put d a b m) a = b := by
  induction m generalizing lo with
  | nil =>
    unfold put
    split
    · simp_all
    · simp [get]
  | cons cell m ih =>
    obtain ⟨a', b'⟩ := cell
    simp only [rising, Bool.and_eq_true, decide_eq_true_eq] at hm
    unfold put
    split
    · rename_i hlt
      split
      · rename_i hb
        rw [get_cons, if_neg (by omega), hb]
        exact get_of_lt (lo := a' + 1) (by omega) hm.2
      · simp [get]
    · split
      · rename_i heq
        subst heq
        split
        · rename_i hb
          rw [hb]
          exact get_of_lt (lo := a + 1) (by omega) hm.2
        · simp [get]
      · rename_i hne
        rw [get_cons, if_neg hne]
        exact ih hm.2

/-- Every other address reads as before. -/
theorem get_put_other {d : Byte} {a x : Nat} (hx : x ≠ a) (b : Byte) (m : List Host.Cell) :
    get d (put d a b m) x = get d m x := by
  induction m with
  | nil =>
    unfold put
    split <;> simp [get, hx]
  | cons cell m ih =>
    obtain ⟨a', b'⟩ := cell
    unfold put
    split
    · split <;> simp [get, hx]
    · split
      · rename_i heq
        subst heq
        split <;> simp [get, hx]
      · simp only [get_cons, ih]

theorem rising_put {d : Byte} {a lo : Nat} (h : lo ≤ a) (b : Byte) {m : List Host.Cell}
    (hm : rising lo m = true) : rising lo (put d a b m) = true := by
  induction m generalizing lo with
  | nil =>
    unfold put
    split <;> simp [rising, h]
  | cons cell m ih =>
    obtain ⟨a', b'⟩ := cell
    have hm' := hm
    simp only [rising, Bool.and_eq_true, decide_eq_true_eq] at hm'
    unfold put
    split
    · split
      · exact hm
      · simp only [rising, Bool.and_eq_true, decide_eq_true_eq]
        exact ⟨h, by omega, hm'.2⟩
    · split
      · rename_i heq
        subst heq
        split
        · exact rising_mono (by omega) hm'.2
        · simp only [rising, Bool.and_eq_true, decide_eq_true_eq]
          exact ⟨h, hm'.2⟩
      · simp only [rising, Bool.and_eq_true, decide_eq_true_eq]
        exact ⟨hm'.1, ih (by omega) hm'.2⟩

theorem all_put {d : Byte} {a : Nat} (ha : a < arrayBytes) (b : Byte) {m : List Host.Cell}
    (hm : (m.all fun cell => decide (cell.1 < arrayBytes) && cell.2 != d) = true) :
    ((put d a b m).all fun cell => decide (cell.1 < arrayBytes) && cell.2 != d) = true := by
  induction m with
  | nil =>
    unfold put
    split <;> simp_all
  | cons cell m ih =>
    obtain ⟨a', b'⟩ := cell
    have hm' := hm
    rw [List.all_cons, Bool.and_eq_true] at hm'
    unfold put
    split
    · split
      · exact hm
      · rename_i hb
        rw [List.all_cons, Bool.and_eq_true]
        exact ⟨by simp [ha, hb], hm⟩
    · split
      · split
        · exact hm'.2
        · rename_i hb
          rw [List.all_cons, Bool.and_eq_true]
          exact ⟨by simp [ha, hb], hm'.2⟩
      · rw [List.all_cons, Bool.and_eq_true]
        exact ⟨hm'.1, ih hm'.2⟩

/-- Putting a byte keeps the canonical form. -/
theorem wf_put {d : Byte} {a : Nat} (ha : a < arrayBytes) (b : Byte) {m : List Host.Cell}
    (hm : wf d m = true) : wf d (put d a b m) = true := by
  simp only [wf, Bool.and_eq_true] at hm ⊢
  exact ⟨rising_put (Nat.zero_le _) b hm.1, all_put ha b hm.2⟩

theorem rising_of_wf {d : Byte} {m : List Host.Cell} (hm : wf d m = true) : rising 0 m = true := by
  simp only [wf, Bool.and_eq_true] at hm
  exact hm.1

/-! ### Consecutive bytes -/

theorem wf_putList {d : Byte} {bs : List Byte} {a : Nat} (ha : a + bs.length ≤ arrayBytes)
    {m : List Host.Cell} (hm : wf d m = true) : wf d (putList d a bs m) = true := by
  induction bs generalizing a m with
  | nil => exact hm
  | cons b bs ih =>
    rw [List.length_cons] at ha
    exact ih (by omega) (wf_put (by omega) b hm)

theorem get_putList_other {d : Byte} {bs : List Byte} {a x : Nat} (hx : x < a ∨ a + bs.length ≤ x)
    (m : List Host.Cell) : get d (putList d a bs m) x = get d m x := by
  induction bs generalizing a m with
  | nil => rfl
  | cons b bs ih =>
    rw [List.length_cons] at hx
    rw [putList, ih (by omega)]
    exact get_put_other (by omega) b m

theorem rising_putList {d : Byte} {bs : List Byte} {a : Nat} {m : List Host.Cell}
    (hm : rising 0 m = true) : rising 0 (putList d a bs m) = true := by
  induction bs generalizing a m with
  | nil => exact hm
  | cons b bs ih => exact ih (rising_put (Nat.zero_le _) b hm)

theorem get_putList_same {d : Byte} {bs : List Byte} {a i : Nat} (hi : i < bs.length)
    {m : List Host.Cell} (hm : rising 0 m = true) :
    get d (putList d a bs m) (a + i) = bs.getD i 0 := by
  induction bs generalizing a i m with
  | nil => simp at hi
  | cons b bs ih =>
    rw [putList]
    cases i with
    | zero =>
      rw [get_putList_other (by omega)]
      simpa using get_put_same a b hm
    | succ i =>
      have h := ih (a := a + 1) (i := i) (m := put d a b m) (by simpa using hi)
        (rising_put (d := d) (Nat.zero_le a) b hm)
      rw [show a + (i + 1) = a + 1 + i by omega, h]
      simp

/-! ### Pages -/

theorem cellAddress_lt (p : BitVec 13) {i : Nat} (hi : i < 512) : cellAddress p i < arrayBytes := by
  have hp := p.isLt
  unfold cellAddress arrayBytes pageBytes nPages
  omega

/-- Writing a page keeps the canonical form. -/
theorem wf_writePage {d : Byte} (p : BitVec 13) (v : Payload) {m : List Host.Cell}
    (hm : wf d m = true) : wf d (writePage d p v m) = true := by
  refine wf_putList ?_ hm
  have hp := p.isLt
  rw [v.size]
  unfold cellAddress arrayBytes pageBytes nPages
  omega

/-- The page reads back as it was written. -/
theorem get_writePage_same {d : Byte} (p : BitVec 13) (v : Payload) {i : Nat} (hi : i < 512)
    {m : List Host.Cell} (hm : rising 0 m = true) :
    get d (writePage d p v m) (cellAddress p i) = v.bytes.getD i 0 := by
  have h := get_putList_same (d := d) (bs := v.bytes) (a := cellAddress p 0) (i := i)
    (by rw [v.size]; exact hi) hm
  rw [show cellAddress p i = cellAddress p 0 + i by unfold cellAddress; omega]
  exact h

/-- Every byte outside the page reads as before. -/
theorem get_writePage_other {d : Byte} (p : BitVec 13) (v : Payload) {x : Nat}
    (hx : x < cellAddress p 0 ∨ cellAddress p 0 + 512 ≤ x) (m : List Host.Cell) :
    get d (writePage d p v m) x = get d m x :=
  get_putList_other (by rw [v.size]; exact hx) m

theorem wf_nil (d : Byte) : wf d [] = true := rfl

end Memory

/-! ### Sets of pages -/

namespace PageSet

theorem mem_listed (p q : Nat) (l : List Nat) : q ∈ listed p l ↔ q = p ∨ q ∈ l := by
  induction l with
  | nil => simp [listed]
  | cons r l ih =>
    unfold listed
    split
    · simp
    · split
      · rename_i h; subst h; simp
      · simp only [List.mem_cons, ih]; tauto

theorem mem_unlisted (p q : Nat) (l : List Nat) : q ∈ unlisted p l ↔ q ∈ l ∧ q ≠ p := by
  simp [unlisted]

/-- A page put into the set is in it, and the others stay as they were. -/
theorem mem_insert (u : PageSet) (p q : BitVec 13) :
    (u.insert p).mem q = (decide (q = p) || u.mem q) := by
  obtain ⟨v, l⟩ := u
  have hpq : q.toNat = p.toNat ↔ q = p := BitVec.toNat_inj
  cases v <;> by_cases h : q = p <;> by_cases h' : q.toNat ∈ l <;>
    simp_all [insert, mem, mem_listed, mem_unlisted]

/-- A page taken out of the set is not in it, and the others stay as they were. -/
theorem mem_remove (u : PageSet) (p q : BitVec 13) :
    (u.remove p).mem q = (!decide (q = p) && u.mem q) := by
  obtain ⟨v, l⟩ := u
  have hpq : q.toNat = p.toNat ↔ q = p := BitVec.toNat_inj
  cases v <;> by_cases h : q = p <;> by_cases h' : q.toNat ∈ l <;>
    simp_all [remove, mem, mem_listed, mem_unlisted]

@[simp] theorem mem_none (p : BitVec 13) : none.mem p = false := rfl
@[simp] theorem mem_all (p : BitVec 13) : all.mem p = true := rfl

theorem pairwise_listed (p : Nat) {l : List Nat} (h : l.Pairwise (· < ·)) :
    (listed p l).Pairwise (· < ·) := by
  induction l with
  | nil => simp [listed]
  | cons q l ih =>
    rw [List.pairwise_cons] at h
    unfold listed
    split
    · rename_i hlt
      refine List.pairwise_cons.2 ⟨fun r hr => ?_, List.pairwise_cons.2 h⟩
      rcases List.mem_cons.1 hr with rfl | hr
      · exact hlt
      · exact lt_trans hlt (h.1 r hr)
    · split
      · exact List.pairwise_cons.2 h
      · refine List.pairwise_cons.2 ⟨fun r hr => ?_, ih h.2⟩
        rcases (mem_listed p r l).1 hr with rfl | hr
        · omega
        · exact h.1 r hr

theorem pairwise_unlisted (p : Nat) {l : List Nat} (h : l.Pairwise (· < ·)) :
    (unlisted p l).Pairwise (· < ·) := h.filter _

end PageSet

end Sys2Proof.Machine
end

