-- ==== Sys2Proof/Laws/Device.lean ====
section
/-! SUPPORT. What each operation of the reference device keeps of its invariant, and the frames that leave a
device as it is. -/

namespace Sys2Proof.Machine

/-! ### Sets of pages -/

namespace PageSet

theorem wf_none : PageSet.none.Wf := ⟨List.Pairwise.nil, fun _ h => by simp [PageSet.none] at h⟩
theorem wf_all : PageSet.all.Wf := ⟨List.Pairwise.nil, fun _ h => by simp [PageSet.all] at h⟩

theorem wf_listed {v w : Bool} {l : List Nat} (h : PageSet.Wf ⟨v, l⟩) (p : BitVec 13) :
    PageSet.Wf ⟨w, listed p.toNat l⟩ := by
  refine ⟨pairwise_listed _ h.1, fun q hq => ?_⟩
  rcases (mem_listed _ _ _).1 hq with rfl | hq
  · exact p.isLt
  · exact h.2 q hq

theorem wf_unlisted {v w : Bool} {l : List Nat} (h : PageSet.Wf ⟨v, l⟩) (p : BitVec 13) :
    PageSet.Wf ⟨w, unlisted p.toNat l⟩ :=
  ⟨pairwise_unlisted _ h.1, fun q hq => h.2 q ((mem_unlisted _ _ _).1 hq).1⟩

theorem wf_insert {u : PageSet} (h : u.Wf) (p : BitVec 13) : (u.insert p).Wf := by
  unfold insert
  split
  · exact wf_unlisted h p
  · exact wf_listed h p

theorem wf_remove {u : PageSet} (h : u.Wf) (p : BitVec 13) : (u.remove p).Wf := by
  unfold remove
  split
  · exact wf_listed h p
  · exact wf_unlisted h p

end PageSet

/-! ### The invariant of the device -/

namespace RefDev

/-- The invariant reads five fields only. -/
theorem inv_congr {d d' : RefDev} (h : d.Inv) (h1 : d'.mem = d.mem) (h2 : d'.erasedByte = d.erasedByte)
    (h3 : d'.indet = d.indet) (h4 : d'.pending = d.pending) (h5 : d'.busyLeft = d.busyLeft) : d'.Inv := by
  unfold RefDev.Inv
  rw [h1, h2, h3, h4, h5]
  exact h

/-- A commit ends the pending cycle; it is done only when no busy poll is left. -/
theorem inv_commit {c : Cfg} {d : RefDev} (h : d.Inv) (hb : d.busyLeft = 0) : (d.commit c).Inv := by
  obtain ⟨h1, h2, h3, h4, h5⟩ := h
  unfold commit
  split
  · exact ⟨h1, h2, h3, h4, h5⟩
  · rename_i p data hp
    refine ⟨Memory.wf_writePage p data h1, ?_, fun _ => hb, by simp [commitProg], by simp [commitProg]⟩
    simp only [commitProg]
    split
    · exact PageSet.wf_remove h2 p
    · exact h2
  · exact ⟨rfl, PageSet.wf_none, fun _ => hb, by simp [commitErase], by simp [commitErase]⟩
  · exact ⟨h1, h2, fun _ => hb, by simp [commitSetPs], by simp [commitSetPs]⟩
  · exact ⟨h1, h2, fun _ => hb, by simp, by simp⟩

@[simp] theorem commit_pending (c : Cfg) (d : RefDev) : (d.commit c).pending = none := by
  unfold commit
  split <;> simp_all [commitProg, commitErase, commitSetPs]

/-- What abandoning a wait can do: nothing, or replace what is pending and forget the page size. -/
theorem abandon_cases (d : RefDev) : d.abandon = d ∨
    (d.lateCommit = false ∧ ∃ q, d.pending = some q ∧
      d.abandon = { d with pending := some .abandoned, pszKnown := d.pszKnown && q.keepsPageSize }) := by
  unfold abandon
  split
  · exact .inl rfl
  · rename_i hl
    rcases hp : d.pending with _ | q
    · exact .inl rfl
    · exact .inr ⟨by simpa using hl, q, rfl, rfl⟩

theorem inv_abandon {d : RefDev} (h : d.Inv) : d.abandon.Inv := by
  rcases abandon_cases d with e | ⟨_, q, hq, e⟩ <;> rw [e]
  · exact h
  · exact ⟨h.1, h.2.1, by simp, by simp, by simp⟩

theorem inv_unlessBusy {effect : RefDev → RefDev} {d : RefDev} (h : d.Inv)
    (he : d.ready = true → (effect d).Inv) : (d.unlessBusy effect).Inv := by
  unfold unlessBusy
  split
  · exact he ‹_›
  · exact inv_congr h rfl rfl rfl rfl rfl

/-- A cycle may begin on a ready device whose set of indeterminate pages has been marked for it. -/
theorem inv_begin {c : Cfg} {q : Pending} {d : RefDev} (hm : Memory.wf d.erasedByte d.mem = true)
    (hi : d.indet.Wf) (hp : ∀ p data, q = .prog p data → d.indet.mem p = true)
    (he : q = .eraseAll → d.indet = PageSet.all) : (d.begin c q).Inv := by
  have h : RefDev.Inv { d with
      pending := some q, busyLeft := d.busyPlan.headD 0, busyPlan := d.busyPlan.tail } :=
    ⟨hm, hi, by simp, fun p data hq => hp p data (by simpa using hq), fun hq => he (by simpa using hq)⟩
  unfold begin
  simp only
  split
  · rename_i hb
    exact inv_commit h hb
  · exact h

theorem inv_beginUnless {c : Cfg} {gated wpN : Bool} {q : Pending} {mark : RefDev → RefDev} {d : RefDev}
    (h : d.Inv) (hb : d.ready = true → ((mark d).begin c q).Inv) :
    (d.beginUnless c gated wpN q mark).Inv := by
  refine inv_unlessBusy h fun hr => ?_
  split
  · exact h
  · exact hb hr

theorem inv_endFrame {c : Cfg} {resume : Bool} {effect : RefDev → RefDev} {d : RefDev} (h : d.Inv)
    (he : ∀ d', d'.Inv → (effect d').Inv) : (d.endFrame c resume effect).Inv := by
  have h0 : RefDev.Inv { d with atEnd := false } := inv_congr h rfl rfl rfl rfl rfl
  unfold endFrame wakePulse
  simp only
  split
  · exact h0
  · split
    · split
      · exact inv_congr h rfl rfl rfl rfl rfl
      · exact inv_congr h rfl rfl rfl rfl rfl
    · split
      · exact inv_congr h rfl rfl rfl rfl rfl
      · exact h0
    · split
      · exact he _ h0
      · exact h0

theorem inv_answerStatus0 {c : Cfg} {free : Byte} {d : RefDev} (h : d.Inv) :
    (d.answerStatus0 c free).2.Inv := by
  unfold answerStatus0
  split
  · rename_i hb
    obtain ⟨h1, h2, h3, h4, h5⟩ := h
    exact ⟨h1, h2, fun hp => absurd (h3 hp) (by omega), h4, h5⟩
  · exact inv_commit h (by omega)

theorem inv_answerAwake {c : Cfg} {free : Byte} {d : RefDev} (h : d.Inv) :
    (d.answerAwake c free).2.Inv := by
  unfold answerAwake
  split
  · exact h
  · simp only
    split
    · split
      · exact inv_answerStatus0 h
      · exact h
    · split
      · exact h
      · split <;> exact h

theorem inv_exchange {c : Cfg} {csN : Bool} {x free : Byte} {d : RefDev} (h : d.Inv) :
    (d.exchange c csN x free).2.Inv := by
  unfold exchange
  split
  · exact h
  · simp only
    split
    · exact inv_congr h rfl rfl rfl rfl rfl
    · exact inv_congr (inv_answerAwake h) rfl rfl rfl rfl rfl

theorem inv_seeTick {c : Cfg} {b b' : Block} {inFlight : Bool} {d : RefDev} (h : d.Inv) :
    (d.seeTick c b b' inFlight).Inv := by
  have hc : ∀ (old new : Bool) (d : RefDev), d.Inv → (d.seeCs old new inFlight).Inv := by
    intro old new d h
    unfold seeCs
    split
    · exact inv_congr h rfl rfl rfl rfl rfl
    · split
      · exact inv_congr h rfl rfl rfl rfl rfl
      · exact h
  have hr : ∀ (old new : Bool) (d : RefDev), d.Inv → (d.seeRst c old new).Inv := by
    intro old new d h
    unfold seeRst
    split
    · exact inv_congr h rfl rfl rfl rfl rfl
    · split
      · unfold rstRise
        split
        · exact h
        · split <;> exact inv_congr h rfl rfl rfl rfl rfl
      · exact h
  exact hr _ _ _ (hc _ _ _ (inv_congr h rfl rfl rfl rfl rfl))

end RefDev

/-- Nothing around the controller breaks the device's invariant. -/
theorem State.inv_settle_dev {s : State} (b : Block) (h : s.dev.Inv) : (s.settle b).dev.Inv := by
  rw [State.settle, State.hostMoves_dev]
  unfold State.busMoves
  split
  · rwa [State.hearWire_dev]
  · have h0 : (s.setDev (s.dev.seeTick s.cfg b s.blk (!s.inFlight.isEmpty))).launch.dev.Inv := by
      rw [State.launch_dev]
      exact RefDev.inv_seeTick h
    rcases State.deliver_dev
      (s.setDev (s.dev.seeTick s.cfg b s.blk (!s.inFlight.isEmpty))).launch with hd | ⟨x, free, hd⟩
    · rw [hd]; exact h0
    · rw [hd]; exact RefDev.inv_exchange h0

/-! ### The effects of the frames -/

theorem inv_sleepEffect (k : SleepOpcode) {d : RefDev} (h : d.Inv) : (sleepEffect k d).Inv := by
  cases k
  · exact RefDev.inv_unlessBusy h fun _ => RefDev.inv_congr h rfl rfl rfl rfl rfl
  · exact RefDev.inv_congr h rfl rfl rfl rfl rfl
  · exact RefDev.inv_unlessBusy h fun _ => RefDev.inv_congr h rfl rfl rfl rfl rfl

theorem inv_readEffect (r : ResponseOpcode) {d : RefDev} (h : d.Inv) : (readEffect r d).Inv := by
  cases r
  · exact RefDev.inv_unlessBusy h fun _ => h
  · exact RefDev.inv_abandon h

theorem inv_magicEffect (c : Cfg) (wpN : Bool) (q : MagicName) {d : RefDev} (h : d.Inv) :
    (magicEffect c wpN q d).Inv := by
  cases q
  · exact RefDev.inv_beginUnless h fun _ =>
      RefDev.inv_begin h.1 PageSet.wf_all (by simp) (fun _ => rfl)
  · exact RefDev.inv_beginUnless h fun _ => RefDev.inv_begin h.1 h.2.1 (by simp) (by simp)
  · exact RefDev.inv_beginUnless h fun _ => RefDev.inv_begin h.1 h.2.1 (by simp) (by simp)

theorem inv_programEffect (c : Cfg) (wpN : Bool) (a : BitVec 13) (data : Payload) {d : RefDev}
    (h : d.Inv) : (programEffect c wpN a data d).Inv := by
  refine RefDev.inv_beginUnless h fun _ =>
    RefDev.inv_begin h.1 (PageSet.wf_insert h.2.1 a) (fun p data' hq => ?_) (by simp)
  simp only [Pending.prog.injEq] at hq
  rw [← hq.1]
  simp [PageSet.mem_insert]

/-! ### What one operation of the device does, situation by situation -/

namespace RefDev

/-- A device that responds takes the effect of the frame. -/
theorem endFrame_awake {c : Cfg} {resume : Bool} {effect : RefDev → RefDev} {d : RefDev}
    (hl : d.lost = false) (ha : d.awake = true) :
    d.endFrame c resume effect = effect { d with atEnd := false } := by
  simp only [awake, Bool.and_eq_true, beq_iff_eq, decide_eq_true_eq] at ha
  unfold endFrame
  simp only [hl, ha.1, ha.2, if_true]
  rfl

/-- A device in deep power-down takes no notice of a frame other than the resume frame. -/
theorem endFrame_dpd {c : Cfg} {effect : RefDev → RefDev} {d : RefDev} (h : d.dps = .dpd) :
    d.endFrame c false effect = { d with atEnd := false } := by
  unfold endFrame
  simp [h]

/-- A device that still wakes takes no notice of a frame. -/
theorem endFrame_deaf {c : Cfg} {resume : Bool} {effect : RefDev → RefDev} {d : RefDev}
    (h : d.dps = .active) (hd : d.now < d.deafUntil) :
    d.endFrame c resume effect = { d with atEnd := false } := by
  unfold endFrame
  simp only [h]
  split
  · rfl
  · exact if_neg (by omega)

/-- A frame that ends at a device in ultra-deep power-down wakes it, whatever it is, when chip-select was low
long enough. -/
theorem endFrame_udpd {c : Cfg} {resume : Bool} {effect : RefDev → RefDev} {d : RefDev}
    (hl : d.lost = false) (h : d.dps = .udpd) (ht : d.tCsLow + c.tCsluNs ≤ d.now) :
    d.endFrame c resume effect =
      { d with atEnd := false, dps := .active, deafUntil := d.now + c.tXudpdNs } := by
  simp [endFrame, hl, h, wakePulse, ht, wake]

/-- After a shorter pulse nothing is known of it. -/
theorem endFrame_udpd_short {c : Cfg} {resume : Bool} {effect : RefDev → RefDev} {d : RefDev}
    (hl : d.lost = false) (h : d.dps = .udpd) (ht : d.now < d.tCsLow + c.tCsluNs) :
    d.endFrame c resume effect = { d with atEnd := false, lost := true } := by
  simp [endFrame, hl, h, wakePulse, Nat.not_le.2 ht, lose]

/-- Of a device of which nothing is known no frame makes anything known. -/
theorem endFrame_lost {c : Cfg} {resume : Bool} {effect : RefDev → RefDev} {d : RefDev}
    (hl : d.lost = true) : d.endFrame c resume effect = { d with atEnd := false } := by
  simp [endFrame, hl]

/-- A ready device takes the effect of the frame. -/
theorem unlessBusy_ready {effect : RefDev → RefDev} {d : RefDev} (h : d.ready = true) :
    d.unlessBusy effect = effect d := by
  simp [unlessBusy, h]

/-- Of a busy device nothing is known afterwards. -/
theorem unlessBusy_busy {effect : RefDev → RefDev} {d : RefDev} (h : d.ready = false) :
    d.unlessBusy effect = d.lose := by
  simp [unlessBusy, h]

/-- A device with nothing pending has no wait to abandon. -/
theorem abandon_of_none {d : RefDev} (h : d.pending = none) : d.abandon = d := by
  simp [abandon, h]

/-- A ready device that the write-protect line does not stop begins the cycle. -/
theorem beginUnless_begins {c : Cfg} {gated wpN : Bool} {q : Pending} {mark : RefDev → RefDev}
    {d : RefDev} (hr : d.ready = true) (hg : (gated && !wpN) = false) :
    d.beginUnless c gated wpN q mark = (mark d).begin c q := by
  simp [beginUnless, unlessBusy, hr, hg]

/-- A ready device takes no notice of a gated frame under write-protect. -/
theorem beginUnless_protected {c : Cfg} {q : Pending} {mark : RefDev → RefDev} {d : RefDev}
    (hr : d.ready = true) : d.beginUnless c true false q mark = d := by
  simp [beginUnless, unlessBusy, hr]

/-- Of a busy device nothing is known after such a frame, write-protected or not. -/
theorem beginUnless_busy {c : Cfg} {gated wpN : Bool} {q : Pending} {mark : RefDev → RefDev} {d : RefDev}
    (hr : d.ready = false) : d.beginUnless c gated wpN q mark = d.lose :=
  unlessBusy_busy hr

/-- A busy length other than 0 leaves the cycle pending. -/
theorem begin_later {c : Cfg} {q : Pending} {d : RefDev} {k : Nat} {rest : List Nat}
    (hp : d.busyPlan = k :: rest) (hk : k ≠ 0) :
    d.begin c q = { d with pending := some q, busyLeft := k, busyPlan := rest } := by
  simp [begin, hp, hk]

/-- A busy length of 0 commits at once. -/
theorem begin_at_once {c : Cfg} {q : Pending} {d : RefDev} {rest : List Nat}
    (hp : d.busyPlan = 0 :: rest) :
    d.begin c q = commit c { d with pending := some q, busyLeft := 0, busyPlan := rest } := by
  simp [begin, hp]

/-- Committing touches only the array, the indeterminate pages, the page size and what is pending. -/
theorem commit_keeps (c : Cfg) (d : RefDev) : (d.commit c).frame = d.frame ∧ (d.commit c).lost = d.lost ∧
    (d.commit c).dps = d.dps ∧ (d.commit c).deafUntil = d.deafUntil ∧ (d.commit c).now = d.now ∧
    (d.commit c).busyLeft = d.busyLeft ∧ (d.commit c).u0 = d.u0 ∧ (d.commit c).u1 = d.u1 ∧
    (d.commit c).erasedByte = d.erasedByte ∧ (d.commit c).atEnd = d.atEnd ∧
    (d.commit c).busyPlan = d.busyPlan := by
  unfold commit
  split <;> simp [commitProg, commitErase, commitSetPs]

/-- With nothing pending there is nothing to commit. -/
theorem commit_of_none {c : Cfg} {d : RefDev} (h : d.pending = none) : d.commit c = d := by
  simp [commit, h]

/-- Answering a transfer changes at most what a commit changes and the count of busy polls. -/
theorem exchange_keeps (c : Cfg) (csN : Bool) (x free : Byte) (d : RefDev) :
    (d.exchange c csN x free).2.now = d.now ∧ (d.exchange c csN x free).2.dps = d.dps ∧
    (d.exchange c csN x free).2.deafUntil = d.deafUntil ∧ (d.exchange c csN x free).2.lost = d.lost ∧
    (d.exchange c csN x free).2.tCsLow = d.tCsLow ∧ (d.exchange c csN x free).2.tRstLow = d.tRstLow ∧
    (d.exchange c csN x free).2.atEnd = d.atEnd := by
  have hc : ∀ d : RefDev, (d.commit c).tCsLow = d.tCsLow ∧ (d.commit c).tRstLow = d.tRstLow := by
    intro d
    unfold commit
    split <;> simp [commitProg, commitErase, commitSetPs]
  obtain ⟨-, k2, k3, k4, k5, -, -, -, -, k10, -⟩ := commit_keeps c d
  unfold exchange
  split
  · simp
  · simp only
    split
    · simp
    · unfold answerAwake answerStatus0
      split
      · simp
      · simp only
        (repeat' split) <;> simp [hc, k2, k3, k4, k5, k10]

/-- The reset line leaves the device's frame and array alone, and never makes anything known of a device. -/
theorem seeRst_keeps (c : Cfg) (old new : Bool) (d : RefDev) :
    (d.seeRst c old new).now = d.now ∧ (d.seeRst c old new).tCsLow = d.tCsLow ∧
    (d.seeRst c old new).frame = d.frame ∧ (d.seeRst c old new).mem = d.mem ∧
    (d.seeRst c old new).atEnd = d.atEnd ∧ (d.lost = true → (d.seeRst c old new).lost = true) := by
  unfold seeRst rstFall rstRise
  split
  · simp
  · split
    · split
      · simp_all
      · split <;> simp_all [wake, lose]
    · simp

/-- The reset line: its fall is timed; its rise wakes the device after a pulse that is described, and after
any other leaves nothing known of it. -/
theorem seeRst_spec (c : Cfg) (old new : Bool) (d : RefDev) :
    (old = true → new = false → (d.seeRst c old new).tRstLow = d.now) ∧
    (old = false → new = true →
      (d.lost = false → d.resetDescribed c = true →
        d.seeRst c old new = { d with dps := .active, deafUntil := d.now + c.tRecNs }) ∧
      (d.resetDescribed c = false → (d.seeRst c old new).lost = true)) := by
  unfold seeRst rstFall rstRise
  refine ⟨?_, ?_⟩
  · rintro rfl rfl
    rfl
  · rintro rfl rfl
    refine ⟨fun hl hr => by simp [hl, hr, wake], fun hr => ?_⟩
    by_cases hl : d.lost = true <;> simp [hl, hr, lose]

/-- What the lines of one tick do to the device (rules R76 and R83), besides letting time pass. -/
theorem seeTick_spec (c : Cfg) (b b' : Block) (x : Bool) (d : RefDev) :
    (d.seeTick c b b' x).now = d.now + c.tClkNs ∧
    (b.csN = true → b'.csN = false →
      (d.seeTick c b b' x).tCsLow = d.now + c.tClkNs ∧ (d.seeTick c b b' x).frame = []) ∧
    (b.csN = false → b'.csN = true → (d.seeTick c b b' x).atEnd = true ∧
      (d.seeTick c b b' x).frame = d.frame ∧ (x = true → (d.seeTick c b b' x).lost = true)) ∧
    (b.rstN = true → b'.rstN = false → (d.seeTick c b b' x).tRstLow = d.now + c.tClkNs) ∧
    (b.rstN = false → b'.rstN = true →
      (d.lost = false → b'.csN = b.csN → resetDescribed c { d with now := d.now + c.tClkNs } = true →
        (d.seeTick c b b' x).dps = .active ∧ (d.seeTick c b b' x).lost = false ∧
        (d.seeTick c b b' x).deafUntil = d.now + c.tClkNs + c.tRecNs) ∧
      (resetDescribed c { d with now := d.now + c.tClkNs } = false →
        (d.seeTick c b b' x).lost = true)) := by
  generalize hd : ({ d with now := d.now + c.tClkNs } : RefDev) = d0
  have hn : d0.now = d.now + c.tClkNs := by rw [← hd]
  have hfr : d0.frame = d.frame := by rw [← hd]
  have hlo : d0.lost = d.lost := by rw [← hd]
  have he : d.seeTick c b b' x = (d0.seeCs b.csN b'.csN x).seeRst c b.rstN b'.rstN := by
    rw [← hd]
    rfl
  rw [he, ← hn, ← hfr, ← hlo]
  obtain ⟨k1, k2, k3, -, k5, k6⟩ := seeRst_keeps c b.rstN b'.rstN (d0.seeCs b.csN b'.csN x)
  obtain ⟨r1, r2⟩ := seeRst_spec c b.rstN b'.rstN (d0.seeCs b.csN b'.csN x)
  have hc : (d0.seeCs b.csN b'.csN x).now = d0.now ∧
      (d0.seeCs b.csN b'.csN x).resetDescribed c = d0.resetDescribed c := by
    unfold seeCs csFall csRise
    split
    · exact ⟨rfl, rfl⟩
    · split <;> exact ⟨rfl, rfl⟩
  rw [k1, k2, k3, k5]
  refine ⟨hc.1, fun h1 h2 => ?_, fun h1 h2 => ⟨?_, ?_, fun hx => k6 ?_⟩, fun h1 h2 => (r1 h1 h2).trans hc.1,
    fun h1 h2 => ⟨fun hl hcs hr => ?_, fun hr => (r2 h1 h2).2 (hc.2.trans hr)⟩⟩
  · simp [h1, h2, seeCs, csFall]
  · simp [h1, h2, seeCs, csRise]
  · simp [h1, h2, seeCs, csRise]
  · simp [h1, h2, seeCs, csRise, hx]
  · have hs : d0.seeCs b.csN b'.csN x = d0 := by
      unfold seeCs
      rw [hcs]
      cases b.csN <;> rfl
    rw [hs] at r2 ⊢
    rw [(r2 h1 h2).1 hl hr]
    exact ⟨rfl, hl, rfl⟩

/-- A commit does not look at the frame. -/
theorem commit_frame (c : Cfg) (d : RefDev) (l : List Byte) :
    commit c { d with frame := l } = { d.commit c with frame := l } := by
  obtain ⟨m, u, ps, du, bl, pending, rest⟩ := d
  rcases pending with _ | q
  · rfl
  · cases q <;> rfl

/-- Whether the device responds depends on three of its registers. -/
theorem awake_congr {d d' : RefDev} (h1 : d'.dps = d.dps) (h2 : d'.deafUntil = d.deafUntil)
    (h3 : d'.now = d.now) : d'.awake = d.awake := by
  simp [awake, h1, h2, h3]

/-- A transfer to a device that does not respond, or of which nothing is known, is only recorded. -/
theorem exchange_deaf {c : Cfg} {x free : Byte} {d : RefDev} (h : d.lost = true ∨ d.awake = false) :
    d.exchange c false x free = (free, { d with frame := d.frame ++ [x] }) := by
  rcases h with h | h <;> simp [exchange, h]

/-- A transfer to a device that responds is answered, then recorded. -/
theorem exchange_awake {c : Cfg} {x free : Byte} {d : RefDev} (hl : d.lost = false)
    (ha : d.awake = true) :
    d.exchange c false x free = ((d.answerAwake c free).1,
      { (d.answerAwake c free).2 with frame := (d.answerAwake c free).2.frame ++ [x] }) := by
  simp [exchange, hl, ha]

/-- A busy device reports busy and counts one poll down. -/
theorem answerStatus0_busy {c : Cfg} {free : Byte} {d : RefDev} (h : 0 < d.busyLeft) :
    d.answerStatus0 c free =
      (statusByte0 false d.u0 (d.pszBit free), { d with busyLeft := d.busyLeft - 1 }) := by
  simp [answerStatus0, h]

/-- A device with no busy poll left commits what is pending and reports ready. -/
theorem answerStatus0_ready {c : Cfg} {free : Byte} {d : RefDev} (h : d.busyLeft = 0) :
    d.answerStatus0 c free =
      (statusByte0 true d.u0 ((d.commit c).pszBit free), d.commit c) := by
  simp [answerStatus0, h, (commit_keeps c d).2.2.2.2.2.2.1]

/-- The first transfer of a frame is answered with any value. -/
theorem answerAwake_first {c : Cfg} {free : Byte} {d : RefDev} (hf : d.frame = []) :
    d.answerAwake c free = (free, d) := by
  simp [answerAwake, hf]

/-- In a status frame, byte 0 after an odd number of bytes and byte 1 after an even number. -/
theorem answerAwake_status {c : Cfg} {free : Byte} {d : RefDev} {l : List Byte}
    (hf : d.frame = c.opcStatus :: l) :
    d.answerAwake c free = if l.length % 2 = 0 then d.answerStatus0 c free else (d.u1, d) := by
  simp only [answerAwake, hf, if_true, List.length_cons]
  split <;> split <;> first | rfl | omega

/-- One status poll: the two transfers of a pair. -/
theorem exchange_pair {c : Cfg} {x y f g : Byte} {d : RefDev} {l : List Byte} (hl : d.lost = false)
    (ha : d.awake = true) (hf : d.frame = c.opcStatus :: l) (he : l.length % 2 = 0) :
    ((d.exchange c false x f).2.exchange c false y g).2 =
      if d.busyLeft = 0 then { d.commit c with frame := d.frame ++ [x, y] }
      else { d with busyLeft := d.busyLeft - 1, frame := d.frame ++ [x, y] } := by
  obtain ⟨k1, k2, k3, k4, k5, -⟩ := commit_keeps c d
  rw [exchange_awake hl ha, answerAwake_status hf, if_pos he]
  split
  · rename_i hb
    rw [answerStatus0_ready hb, exchange_awake (by simp [k2, hl])
      (by rw [awake_congr (d := d) (by simp [k3]) (by simp [k4]) (by simp [k5]), ha]),
      answerAwake_status (l := l ++ [x]) (by simp [k1, hf]), if_neg (by simp; omega)]
    simp [k1]
  · rw [answerStatus0_busy (by omega), exchange_awake (by simp [hl]) (by simpa [awake] using ha),
      answerAwake_status (l := l ++ [x]) (by simp [hf]), if_neg (by simp; omega)]
    simp

/-- The answers of an identification frame. -/
theorem answerAwake_id {c : Cfg} {free : Byte} {d : RefDev} {l : List Byte}
    (hf : d.frame = c.opcId :: l) (hne : c.opcId ≠ c.opcStatus) (hl : l.length < 5) :
    d.answerAwake c free = (idByte d.idrec l.length, d) := by
  have h : l.length + 1 ≤ 5 := hl
  simp [answerAwake, hf, hne, idBytes, h]

/-- The answers of a read frame. -/
theorem answerAwake_read {c : Cfg} {free : Byte} {d : RefDev} {l : List Byte}
    (hf : d.frame = c.opcReadLf :: l) (h1 : c.opcReadLf ≠ c.opcStatus) (h2 : c.opcReadLf ≠ c.opcId) :
    d.answerAwake c free = (d.answerRead c (l.length + 1) free, d) := by
  simp [answerAwake, hf, h1, h2]

/-- A frame of any other opcode is answered with any value. -/
theorem answerAwake_other {c : Cfg} {free o : Byte} {d : RefDev} {l : List Byte} (hf : d.frame = o :: l)
    (h1 : o ≠ c.opcStatus) (h2 : o ≠ c.opcId) (h3 : o ≠ c.opcReadLf) :
    d.answerAwake c free = (free, d) := by
  simp [answerAwake, hf, h1, h2, h3]

/-- A byte of a page that can be read is answered from the array. -/
theorem answerRead_data {c : Cfg} {free a0 a1 : Byte} {d : RefDev} {o : Byte} {l : List Byte} {i : Nat}
    (hf : d.frame = o :: a0 :: a1 :: l) (hi : i < 512)
    (hr : d.readable c (BitVec.ofNat 13 (unpackAddr a0 a1)) = true) :
    d.answerRead c (4 + i) free =
      Memory.get d.erasedByte d.mem (cellAddress (BitVec.ofNat 13 (unpackAddr a0 a1)) i) := by
  have h : ¬ 516 ≤ 4 + i := by omega
  simp [answerRead, hf, pageBytes, hr, h]

/-- Outside the 512 data bytes, and of a page that cannot be read, any value is answered. -/
theorem answerRead_free {c : Cfg} {free a0 a1 : Byte} {d : RefDev} {o : Byte} {l : List Byte} {k : Nat}
    (hf : d.frame = o :: a0 :: a1 :: l)
    (h : k < 4 ∨ 516 ≤ k ∨ d.readable c (BitVec.ofNat 13 (unpackAddr a0 a1)) = false) :
    d.answerRead c k free = free := by
  simp only [answerRead, hf, pageBytes]
  rw [if_neg]
  rintro ⟨h1, h2, h3⟩
  rcases h with h | h | h
  · omega
  · omega
  · exact absurd h3 (by simpa using h)

/-! ### Whole frames, transfer by transfer -/

/-- `2 * m` fillers after the opcode of a status frame count busy down `m` times, or commit what is pending
when that is more than the polls left. -/
theorem exchanges_polls {c : Cfg} (f : Nat → Byte) (m : Nat) {d : RefDev} {l : List Byte}
    (hl : d.lost = false) (ha : d.awake = true) (hf : d.frame = c.opcStatus :: l)
    (he : l.length % 2 = 0) :
    (exchanges c f (fillers (2 * m)) d).2 =
      if m ≤ d.busyLeft then
        { d with busyLeft := d.busyLeft - m, frame := d.frame ++ fillers (2 * m) }
      else
        { commit c { d with busyLeft := 0 } with frame := d.frame ++ fillers (2 * m) } := by
  induction m generalizing d l with
  | zero => simp [exchanges, fillers]
  | succ m ih =>
    have e : fillers (2 * (m + 1)) = filler :: filler :: fillers (2 * m) := by
      simp [fillers, show 2 * (m + 1) = 2 * m + 1 + 1 by omega, List.replicate_succ]
    obtain ⟨-, k2, k3, k4, k5, k6, -⟩ := commit_keeps c d
    rw [e]
    simp only [exchanges]
    rw [exchange_pair hl ha hf he]
    by_cases hb : d.busyLeft = 0
    · rw [if_pos hb, ih (l := l ++ [filler, filler]) (by simp [k2, hl])
        (by rw [awake_congr (d := d)] <;> simp [k3, k4, k5, ha]) (by simp [hf]) (by simp; omega)]
      simp only [k6, hb]
      have hd : ({ d with busyLeft := 0 } : RefDev) = d := by rw [← hb]
      rw [hd, if_neg (by omega : ¬ m + 1 ≤ 0)]
      split
      · simp only [List.append_assoc, List.cons_append, List.nil_append]; rw [Nat.zero_sub, ← hb, ← k6]
      · rw [commit_of_none (by exact commit_pending c d)]
        simp only [List.append_assoc, List.cons_append, List.nil_append]; rw [← hb, ← k6]
    · rw [if_neg hb, ih (l := l ++ [filler, filler]) (by simp [hl])
        (by rw [awake_congr (d := d)] <;> simp [ha]) (by simp [hf]) (by simp; omega)]
      simp only
      by_cases hm : m + 1 ≤ d.busyLeft
      · rw [if_pos (by omega), if_pos hm, show d.busyLeft - 1 - m = d.busyLeft - (m + 1) by omega]
        simp
      · rw [if_neg (by omega), if_neg hm, commit_frame c { d with busyLeft := 0 }]; simp

/-- `m` fillers after the header of a read frame answer `m` bytes of a readable page, from the byte that
comes next. -/
theorem exchanges_read {c : Cfg} (f : Nat → Byte) (m : Nat) {a0 a1 a2 : Byte} {d : RefDev}
    {l : List Byte} (hl : d.lost = false) (ha : d.awake = true)
    (hf : d.frame = c.opcReadLf :: a0 :: a1 :: a2 :: l) (h1 : c.opcReadLf ≠ c.opcStatus)
    (h2 : c.opcReadLf ≠ c.opcId)
    (hr : d.readable c (BitVec.ofNat 13 (unpackAddr a0 a1)) = true) (hm : l.length + m ≤ 512) :
    (exchanges c f (fillers m) d).1 = (List.range m).map fun i =>
      Memory.get d.erasedByte d.mem
        (cellAddress (BitVec.ofNat 13 (unpackAddr a0 a1)) (l.length + i)) := by
  induction m generalizing d l with
  | zero => rfl
  | succ m ih =>
    rw [show fillers (m + 1) = filler :: fillers m by simp [fillers, List.replicate_succ]]
    simp only [exchanges]
    rw [exchange_awake hl ha, answerAwake_read hf h1 h2]
    simp only
    rw [show (a0 :: a1 :: a2 :: l).length + 1 = 4 + l.length by simp; omega,
      answerRead_data hf (by omega) hr, ih (l := l ++ [filler]) (by simp [hl])
        (by rw [awake_congr (d := d)] <;> simp [ha]) (by simp [hf])
        (by simpa [readable, ready] using hr) (by simp; omega), List.range_succ_eq_map]
    simp [Nat.add_comm, Nat.add_assoc]

/-- The header of a read frame is only recorded. -/
theorem exchanges_readHeader {c : Cfg} (f : Nat → Byte) {a0 a1 a2 : Byte} {d : RefDev} (l : List Byte)
    (hl : d.lost = false) (ha : d.awake = true) (hf : d.frame = []) (h1 : c.opcReadLf ≠ c.opcStatus)
    (h2 : c.opcReadLf ≠ c.opcId) :
    (exchanges c f (c.opcReadLf :: a0 :: a1 :: a2 :: l) d).1.drop 4 =
      (exchanges c f l { d with frame := [c.opcReadLf, a0, a1, a2] }).1 := by
  have step : ∀ (x free : Byte) (fr : List Byte), fr = [] ∨ (∃ r, fr = c.opcReadLf :: r) →
      (exchange c false x free { d with frame := fr }).2 = { d with frame := fr ++ [x] } := by
    intro x free fr hfr
    rw [exchange_awake (by exact hl) (by exact (awake_congr (d := d) rfl rfl rfl).trans ha)]
    rcases hfr with rfl | ⟨r, rfl⟩
    · rw [answerAwake_first rfl]
    · rw [answerAwake_read rfl h1 h2]
  have hd : d = { d with frame := [] } := by rw [← hf]
  rw [hd]
  simp only [exchanges, List.drop_succ_cons, List.drop_zero]
  rw [step _ _ [] (.inl rfl), step a0 _ ([] ++ [c.opcReadLf]) (.inr ⟨[], rfl⟩),
    step a1 _ ([] ++ [c.opcReadLf] ++ [a0]) (.inr ⟨[a0], rfl⟩),
    step a2 _ ([] ++ [c.opcReadLf] ++ [a0] ++ [a1]) (.inr ⟨[a0, a1], rfl⟩)]
  rfl

/-- The first byte of a frame is only recorded. -/
theorem exchange_first {c : Cfg} {x free : Byte} {d : RefDev} (hf : d.frame = []) :
    (d.exchange c false x free).2 = { d with frame := [x] } := by
  by_cases h : d.lost = true ∨ d.awake = false
  · rw [exchange_deaf h]; simp [hf]
  · simp only [not_or, Bool.not_eq_true, Bool.not_eq_false] at h
    rw [exchange_awake h.1 h.2, answerAwake_first hf]; simp [hf]

end RefDev

/-- The bits of status byte 0. -/
theorem statusByte0_bits (ready psz : Bool) (u0 : Byte) :
    (statusByte0 ready u0 psz).getLsbD 7 = ready ∧ (statusByte0 ready u0 psz).getLsbD 0 = psz ∧
    ∀ j, 1 ≤ j → j ≤ 6 → (statusByte0 ready u0 psz).getLsbD j = u0.getLsbD j := by
  refine ⟨?_, ?_, fun j h1 h2 => ?_⟩
  · revert u0; cases ready <;> cases psz <;> decide
  · revert u0; cases ready <;> cases psz <;> decide
  · interval_cases j <;> revert u0 <;> cases ready <;> cases psz <;> decide

/-! ### The device's step -/

/-- What every frame is to the device: the end of a frame, as the resume frame or not, with an effect that
keeps the invariant and that leaves nothing known of a busy device unless the frame is a status read. -/
theorem exec_frame {i : Instr} (h : i.isFrame = true) (s : State) :
    ∃ effect, exec i s = .next (s.endFrame (decide (i = .frameB0 .resumeDpd)) effect) ∧
      (∀ d, d.Inv → (effect d).Inv) ∧
      (i ≠ .frameB2 .status → (∀ q, i ≠ .frameB3 q) → ∀ d, d.ready = false → effect d = d.lose) := by
  cases i with
  | frameB0 k =>
    refine ⟨sleepEffect k, ?_, fun d hd => inv_sleepEffect k hd, fun _ _ d hr => ?_⟩
    · cases k <;> rfl
    · cases k <;> simp [sleepEffect, RefDev.unlessBusy_busy hr]
  | frameB1 q =>
    refine ⟨magicEffect s.cfg s.blk.wpN q, by simp [exec, execFrameB1],
      fun d hd => inv_magicEffect _ _ q hd, fun _ _ d hr => ?_⟩
    cases q <;> exact RefDev.beginUnless_busy hr
  | frameB2 r =>
    refine ⟨readEffect r, by simp [exec, execFrameB2], fun d hd => inv_readEffect r hd,
      fun hn _ d hr => ?_⟩
    cases r
    · exact RefDev.unlessBusy_busy hr
    · exact absurd rfl hn
  | frameB3 q =>
    exact ⟨RefDev.abandon, by simp [exec, execFrameB3], fun d hd => RefDev.inv_abandon hd,
      fun _ hn => absurd rfl (hn q)⟩
  | frameB4 a b =>
    exact ⟨RefDev.unlessBusy id, by simp [exec, execFrameB4],
      fun d hd => RefDev.inv_unlessBusy hd fun _ => hd, fun _ _ d hr => RefDev.unlessBusy_busy hr⟩
  | frameB5 a b data =>
    exact ⟨programEffect s.cfg s.blk.wpN a data, by simp [exec, execFrameB5],
      fun d hd => inv_programEffect _ _ _ data hd, fun _ _ d hr => RefDev.beginUnless_busy hr⟩
  | frameB6 =>
    exact ⟨RefDev.lose, by simp [exec, execFrameB6],
      fun d hd => RefDev.inv_congr hd rfl rfl rfl rfl rfl, fun _ _ _ _ => rfl⟩
  | _ n => exact absurd h (by simp [Instr.isFrame])

/-- At its turn the device takes the frame it has heard. -/
theorem step_heard {s : State} {i : Instr} (hd : s.deviceTurn = true)
    (h : heardFrame s.cfg s.dev.frame = .ok i) : step s = exec i s := by
  simp only [step, State.fetch, hd, if_true, h, Except.toOption, State.around]
  cases exec i s <;> rfl

/-- At its turn the device takes the end of bytes that are no frame. -/
theorem step_foreign {s : State} {e : DecodeError} (hd : s.deviceTurn = true)
    (h : heardFrame s.cfg s.dev.frame = .error e) : step s = .next s.endForeignFrame := by
  simp [step, State.fetch, hd, h, Except.toOption, State.withoutInstr]

/-- The step at the device's turn is the end of a frame, whatever was heard. -/
theorem step_device {s : State} (hd : s.deviceTurn = true) :
    ∃ resume effect, step s = .next (s.endFrame resume effect) ∧ ∀ d, d.Inv → (effect d).Inv := by
  cases hf : heardFrame s.cfg s.dev.frame with
  | error e =>
    exact ⟨false, RefDev.lose, step_foreign hd hf, fun d hd => RefDev.inv_congr hd rfl rfl rfl rfl rfl⟩
  | ok i =>
    obtain ⟨effect, h1, h2, -⟩ := exec_frame (heard_isFrame hf) s
    exact ⟨_, effect, (step_heard hd hf).trans h1, h2⟩

end Sys2Proof.Machine
end

