-- ==== Sys2Proof/Laws/Operands.lean ====
section
/-! SUPPORT. The packed page address as slices of the page number (30_encoding.md rule R101, rule R102). -/

namespace Sys2Proof.Machine

theorem testBit_63 (i : Nat) : Nat.testBit 0x3F i = decide (i < 6) := by
  rw [show 0x3F = 2 ^ 6 - 1 from rfl, Nat.testBit_two_pow_sub_one]

theorem testBit_255 (i : Nat) : Nat.testBit 0xFF i = decide (i < 8) := by
  rw [show 0xFF = 2 ^ 8 - 1 from rfl, Nat.testBit_two_pow_sub_one]

/-- Bit `i` of a page number, read off the natural number. -/
theorem testBit_page (n : PageNo) (i : Nat) : n.toNat.testBit i = n.getLsbD i := rfl

/-- `a0`: two zeros, then `n[12:7]`. -/
theorem address0_eq (n : PageNo) : address0 n = 0#2 ++ n.extractLsb' 7 6 := by
  refine BitVec.eq_of_getLsbD_eq fun i hi => ?_
  rw [BitVec.getLsbD_append]
  unfold address0
  rw [BitVec.getLsbD_ofNat, Nat.testBit_and, Nat.testBit_shiftRight, testBit_63, testBit_page,
    BitVec.getLsbD_extractLsb']
  by_cases h : i < 6 <;> simp [h, hi]

/-- `a1`: `n[6:0]`, then a zero. -/
theorem address1_eq (n : PageNo) : address1 n = n.extractLsb' 0 7 ++ 0#1 := by
  refine BitVec.eq_of_getLsbD_eq fun i hi => ?_
  rw [BitVec.getLsbD_append]
  unfold address1
  rw [BitVec.getLsbD_ofNat, Nat.testBit_and, Nat.testBit_shiftLeft, testBit_page,
    BitVec.getLsbD_extractLsb']
  interval_cases i <;> simp <;> exact fun _ => by decide

/-- `a2`: `n[7:0]`. -/
theorem address2_eq (n : PageNo) : address2 n = n.extractLsb' 0 8 := by
  refine BitVec.eq_of_getLsbD_eq fun i hi => ?_
  unfold address2
  rw [BitVec.getLsbD_ofNat, Nat.testBit_and, testBit_255, testBit_page, BitVec.getLsbD_extractLsb']
  simp [hi]

/-- The page bits of the first two address bytes are `n[12:0]`. -/
theorem pageBits_address (n : PageNo) : pageBits (address0 n) (address1 n) = n.extractLsb' 0 13 := by
  rw [address0_eq, address1_eq]
  unfold pageBits
  refine BitVec.eq_of_getLsbD_eq fun i hi => ?_
  rw [BitVec.getLsbD_append]
  simp only [BitVec.getLsbD_extractLsb', BitVec.getLsbD_append]
  by_cases h : i < 7
  · simp [h, hi]
  · simp [h, hi, show i - 7 < 6 by omega, show 7 + (i - 7) = i by omega]

theorem unpack_eq (a0 a1 : Byte) : unpackAddr a0 a1 = (pageBits a0 a1).toNat := by
  refine Nat.eq_of_testBit_eq fun i => ?_
  unfold unpackAddr pageBits
  rw [Nat.testBit_or, Nat.testBit_shiftLeft, Nat.testBit_and, testBit_63, Nat.testBit_shiftRight]
  simp only [BitVec.testBit_toNat, BitVec.getLsbD_append, BitVec.getLsbD_extractLsb']
  by_cases h : i < 7
  · simp [h, show ¬ 7 ≤ i by omega]
  · simp [h, show 7 ≤ i by omega, BitVec.getLsbD_of_ge a1 (1 + i) (by omega), Bool.and_comm]

/-- The page a device decodes is the page number modulo 8192. -/
theorem unpack_address (n : PageNo) : unpackAddr (address0 n) (address1 n) = n.toNat % 8192 := by
  rw [unpack_eq, pageBits_address]
  simp [BitVec.extractLsb'_toNat]

/-- The header of an addressed frame of page `n` is the opcode and the packed address. -/
theorem headerBytes_address (o : Byte) (n : PageNo) :
    headerBytes (headerWord o (n.extractLsb' 0 13) (n.extractLsb' 0 8)) =
      [o, address0 n, address1 n, address2 n] := by
  simp only [headerBytes, headerWord, address0_eq, address1_eq, address2_eq]
  refine List.cons_eq_cons.2 ⟨?_, List.cons_eq_cons.2 ⟨?_, List.cons_eq_cons.2 ⟨?_,
    List.cons_eq_cons.2 ⟨?_, rfl⟩⟩⟩⟩ <;>
  · refine BitVec.eq_of_getLsbD_eq fun i hi => ?_
    simp only [BitVec.getLsbD_extractLsb', BitVec.getLsbD_append]
    interval_cases i <;> simp

end Sys2Proof.Machine
end

