-- ==== Sys2Proof/Laws/PerInstr.lean ====
section
/-! SUPPORT. One lemma per instruction about its encoding: a command is a 20-bit word of its page field
(30_encoding.md rule R90), a frame is as many bytes as rule R94's table says, first byte first. -/

namespace Sys2Proof.Laws.EncodedLength

/-- The length of the instruction's frame, in bytes (rule R94); a command is no frame. -/
def frameLength : Instr → Option Nat
  | .frameB0 _ => some 1
  | .frameB1 _ => some 4
  | .frameB2 .id => some 6
  | .frameB2 .status => some 3
  | .frameB3 q => some (1 + 2 * q)
  | .frameB4 _ _ => some 516
  | .frameB5 _ _ _ => some 516
  | .frameB6 => some 0
  | .init _ | .waitReady _ | .getStatus _ | .getId _ | .setPagesize512 _ | .setPagesize528 _
  | .readPage _ | .writePage _ | .eraseChip _ | .enterDpd _ | .resumeDpd _ | .enterUdpd _
  | .resumeUdpd _ | .getPagesize _ | .reserved14 _ | .reserved15 _ => none

/-- The page field of a command (rule R91). -/
def pageField : Instr → Option PageNo
  | .init n | .waitReady n | .getStatus n | .getId n | .setPagesize512 n | .setPagesize528 n
  | .readPage n | .writePage n | .eraseChip n | .enterDpd n | .resumeDpd n | .enterUdpd n
  | .resumeUdpd n | .getPagesize n | .reserved14 n | .reserved15 n => some n
  | .frameB0 _ | .frameB1 _ | .frameB2 _ | .frameB3 _ | .frameB4 _ _ | .frameB5 _ _ _ | .frameB6 => none

/-- With every catalog, the encoding is a command word with the instruction's page field, or a frame of the
instruction's length. -/
def Statement (i : Instr) : Prop :=
  ∀ c : Cfg, match encode c i with
    | .command w => frameLength i = none ∧ pageField i = some (w.extractLsb' 0 16)
    | .frame bytes => frameLength i = some bytes.length ∧ pageField i = none

/-- The statement of a command with the code `o`. -/
theorem of_commandWord {i : Instr} {n : PageNo} (o : OpCode) (he : ∀ c, encode c i = .command (commandWord o n))
    (hf : frameLength i = none) (hp : pageField i = some n) : Statement i := fun c => by
  rw [he c]
  exact ⟨hf, by rw [hp, commandWord_page]⟩

/-- A header and 512 bytes. -/
theorem addressed_length (w : BitVec 32) {l : List Byte} (h : l.length = 512) :
    (headerBytes w ++ l).length = 516 := by rw [List.length_append, h]; rfl

theorem init (n : PageNo) : Statement (.init n) := of_commandWord 0 (fun _ => rfl) rfl rfl
theorem waitReady (n : PageNo) : Statement (.waitReady n) := of_commandWord 1 (fun _ => rfl) rfl rfl
theorem getStatus (n : PageNo) : Statement (.getStatus n) := of_commandWord 2 (fun _ => rfl) rfl rfl
theorem getId (n : PageNo) : Statement (.getId n) := of_commandWord 3 (fun _ => rfl) rfl rfl
theorem setPagesize512 (n : PageNo) : Statement (.setPagesize512 n) :=
  of_commandWord 4 (fun _ => rfl) rfl rfl
theorem setPagesize528 (n : PageNo) : Statement (.setPagesize528 n) :=
  of_commandWord 5 (fun _ => rfl) rfl rfl
theorem readPage (n : PageNo) : Statement (.readPage n) := of_commandWord 6 (fun _ => rfl) rfl rfl
theorem writePage (n : PageNo) : Statement (.writePage n) := of_commandWord 7 (fun _ => rfl) rfl rfl
theorem eraseChip (n : PageNo) : Statement (.eraseChip n) := of_commandWord 8 (fun _ => rfl) rfl rfl
theorem enterDpd (n : PageNo) : Statement (.enterDpd n) := of_commandWord 9 (fun _ => rfl) rfl rfl
theorem resumeDpd (n : PageNo) : Statement (.resumeDpd n) := of_commandWord 10 (fun _ => rfl) rfl rfl
theorem enterUdpd (n : PageNo) : Statement (.enterUdpd n) := of_commandWord 11 (fun _ => rfl) rfl rfl
theorem resumeUdpd (n : PageNo) : Statement (.resumeUdpd n) := of_commandWord 12 (fun _ => rfl) rfl rfl
theorem getPagesize (n : PageNo) : Statement (.getPagesize n) := of_commandWord 13 (fun _ => rfl) rfl rfl
theorem reserved14 (n : PageNo) : Statement (.reserved14 n) := of_commandWord 14 (fun _ => rfl) rfl rfl
theorem reserved15 (n : PageNo) : Statement (.reserved15 n) := of_commandWord 15 (fun _ => rfl) rfl rfl

theorem frameB0 (k : SleepOpcode) : Statement (.frameB0 k) := fun _ => ⟨rfl, rfl⟩
theorem frameB1 (q : MagicName) : Statement (.frameB1 q) := fun _ => ⟨rfl, rfl⟩
theorem frameB2 (r : ResponseOpcode) : Statement (.frameB2 r) := fun _ => by
  cases r <;> exact ⟨rfl, rfl⟩
theorem frameB3 (q : Nat) : Statement (.frameB3 q) := fun c => by
  simp [encode, frameLength, pageField, fillers, Nat.add_comm]
theorem frameB4 (a : BitVec 13) (b : Byte) : Statement (.frameB4 a b) := fun _ =>
  ⟨congrArg some (addressed_length _ (List.length_replicate (n := pageBytes))).symm, rfl⟩
theorem frameB5 (a : BitVec 13) (b : Byte) (data : Payload) : Statement (.frameB5 a b data) := fun _ =>
  ⟨congrArg some (addressed_length _ data.size).symm, rfl⟩
theorem frameB6 : Statement .frameB6 := fun _ => ⟨rfl, rfl⟩

end Sys2Proof.Laws.EncodedLength
end

