-- ==== Sys2Proof/Laws/Run.lean ====
section
/-! SUPPORT. Runs behind an unconstrained transport: how one more tick extends a run, and what a transfer whose
answer comes at its first `WAIT` tick does in its two ticks. -/

namespace Sys2Proof.Machine

/-! ### Runs and traces, one step longer -/

theorem run_snoc {k : Nat} {s u v : State} (h : Sys2Proof.core.run k s = .next u)
    (hv : step u = .next v) : Sys2Proof.core.run (k + 1) s = .next v := by
  induction k generalizing s with
  | zero =>
    have hs : s = u := Host.Outcome.next.inj h
    subst hs
    rw [run_succ 0 hv]; rfl
  | succ k ih =>
    cases hst : step s with
    | next t => rw [run_succ k hst] at h; rw [run_succ (k + 1) hst]; exact ih h
    | fault f => have h' : Sys2Proof.core.step s = .fault f := hst; simp only [Host.Core.run, h'] at h; cases h
    | refused f =>
      have h' : Sys2Proof.core.step s = .refused f := hst
      simp only [Host.Core.run, h'] at h; cases h

theorem trace_snoc {k : Nat} {s u v : State} (h : Sys2Proof.core.run k s = .next u)
    (hv : step u = .next v) : trace (k + 1) s = trace k s ++ pinEvents u v := by
  induction k generalizing s with
  | zero =>
    have hs : s = u := Host.Outcome.next.inj h
    subst hs
    rw [trace_succ 0 hv]; simp [trace]
  | succ k ih =>
    cases hst : step s with
    | next t =>
      rw [run_succ k hst] at h
      rw [trace_succ (k + 1) hst, trace_succ k hst, ih h, List.append_assoc]
    | fault f => have h' : Sys2Proof.core.step s = .fault f := hst; simp only [Host.Core.run, h'] at h; cases h
    | refused f =>
      have h' : Sys2Proof.core.step s = .refused f := hst
      simp only [Host.Core.run, h'] at h; cases h

/-! ### A run behind an unconstrained transport -/

/-- `u` is reached from `s` in `k` steps with an oracle behind the transport port and no reset; `ev` are the
pin events on the way and `cap` the bytes captured. -/
structure Reaches (s : State) (k : Nat) (u : State) (ev : List PinEvent)
    (cap : List (BitVec 9 × Byte)) : Prop where
  run : Sys2Proof.core.run k s = .next u
  events : trace k s = ev
  undisturbed : u.Undisturbed
  cfg : u.cfg = s.cfg
  dev : u.dev = s.dev
  captured : u.captured = s.captured ++ cap
  wire : u.wire = s.wire.drop k
  answered : ∀ r, s.AnswersAt k r → u.port.txDone = true ∧ u.port.rxData = r
  silent : 1 ≤ k → (∀ r, ¬ s.AnswersAt k r) → u.port.txDone = false

theorem Reaches.refl {s : State} (h : s.Undisturbed) : Reaches s 0 s [] [] where
  run := rfl
  events := rfl
  undisturbed := h
  cfg := rfl
  dev := rfl
  captured := by simp
  wire := by simp
  answered := fun r hr => absurd hr.1 (by omega)
  silent := fun h => absurd h (by omega)

/-- One more clock tick, whatever it is, that replaces the controller's registers by `b`. -/
theorem Reaches.snoc {s u : State} {k : Nat} {ev : List PinEvent} {cap : List (BitVec 9 × Byte)}
    (h : Reaches s k u ev cap) {b : Block} (hst : step u = .next ((u.setBlk b).settle u.blk)) :
    ∃ v, v.blk = b ∧ Reaches s (k + 1) v (ev ++ pinEvents u v)
      (cap ++ if b.rdValid then [(b.rdIdx, b.rdData)] else []) := by
  have hl : (u.setBlk b).link = .unconstrained := h.undisturbed.1
  have hw : (u.setBlk b).wire = s.wire.drop k := h.wire
  refine ⟨_, by simp [State.setBlk], run_snoc h.run hst, by rw [trace_snoc h.run hst, h.events], ?_, ?_, ?_,
    ?_, ?_, fun r hr => ?_, fun _ hn => ?_⟩
  · have hb := State.hostMoves_no_reset (s := (u.setBlk b).hearWire) u.blk
      (by rw [State.hearWire_resets]; exact h.undisturbed.2.2)
    have he : (u.setBlk b).settle u.blk = (u.setBlk b).hearWire.hostMoves u.blk := by
      simp only [State.settle, State.busMoves, hl]
    rw [he]
    exact ⟨by simp only [State.hostMoves_link, State.hearWire_link]; exact hl, hb⟩
  · rw [State.settle_cfg]; exact h.cfg
  · rw [State.settle_dev_unconstrained _ hl]; exact h.dev
  · rw [State.settle_captured_unconstrained _ hl]
    show (if b.rdValid then u.captured ++ [(b.rdIdx, b.rdData)] else u.captured) = _
    rw [h.captured]
    split <;> simp
  · rw [State.settle_wire_unconstrained _ hl, hw, List.tail_drop]
  · have hg : (u.setBlk b).wire[0]? = some (true, r) := by
      rw [hw, List.getElem?_drop]; simpa using hr.2
    cases hc : (u.setBlk b).wire with
    | nil => rw [hc] at hg; simp at hg
    | cons e rest =>
      rw [hc] at hg
      obtain rfl : e = (true, r) := by simpa using hg
      exact State.settle_tx_unconstrained _ hl hc
  · cases hc : (u.setBlk b).wire with
    | nil => exact State.settle_txDone_nil _ hl hc
    | cons e rest =>
      obtain ⟨x, r⟩ := e
      rw [(State.settle_tx_unconstrained u.blk hl hc).1]
      cases x
      · rfl
      · refine absurd ⟨by omega, ?_⟩ (hn r)
        have hg := congrArg (fun l => l[0]?) hc
        simp only [hw, List.getElem?_drop] at hg
        simpa using hg

/-- One tick of the primitive at `pos`. -/
theorem Reaches.tick {s u : State} {k : Nat} {ev : List PinEvent} {cap : List (BitVec 9 × Byte)}
    (h : Reaches s k u ev cap) {p : Prim} (hp : u.At u.blk.running p) :
    ∃ v, v.blk = u.blk.pulsesFall.run u.cfg u.port p ∧ Reaches s (k + 1) v (ev ++ pinEvents u v)
      (cap ++ if v.blk.rdValid then [(v.blk.rdIdx, v.blk.rdData)] else []) := by
  obtain ⟨v, hv, hr⟩ := h.snoc (step_busy (State.deviceTurn_unconstrained h.undisturbed.1)
    h.undisturbed.2.1 hp.1 hp.2)
  exact ⟨v, hv, hv ▸ hr⟩

/-- No transfer completes at a tick whose primitive is none, or that starts one, or that sees no answer. -/
theorem pinEvents_quiet {u v : State} (h : u.completesTransfer = false) (hl : v.blk.lines = u.blk.lines) :
    pinEvents u v = [] := by
  simp only [Block.lines, Lines.mk.injEq] at hl
  simp [pinEvents, h, hl, lineEvent]

/-- The event of a tick that completes a transfer and moves no line. -/
theorem pinEvents_transfer {u v : State} (h : u.completesTransfer = true)
    (hl : v.blk.lines = u.blk.lines) :
    pinEvents u v = [.xfer u.blk.txData u.port.rxData] := by
  simp only [Block.lines, Lines.mk.injEq] at hl
  simp [pinEvents, h, hl, lineEvent]

/-- The registers of a transfer of `x` at its answer, before the primitive acts on the byte. -/
def Block.sent (x : Byte) (b : Block) : Block :=
  { b with done := false, txStart := false, rdValid := false, txData := x, busCnt := 0, sub := .start }

/-- A transfer answered at its first `WAIT` tick: two ticks, one event, and the primitive acts on the byte. -/
theorem Reaches.transfer {s u : State} {k : Nat} {ev : List PinEvent} {cap : List (BitVec 9 × Byte)}
    (h : Reaches s k u ev cap) {p : Prim} {x r : Byte} (hp : u.At u.blk.running p)
    (hx : u.blk.byteToSend p = some x) (hs : u.blk.sub = .start) (ha : s.AnswersAt (k + 1) r)
    (hl : (p.answer u.cfg r (u.blk.sent x)).lines = u.blk.lines) :
    ∃ v, v.blk = p.answer u.cfg r (u.blk.sent x) ∧ Reaches s (k + 2) v (ev ++ [.xfer x r])
      (cap ++ if v.blk.rdValid then [(v.blk.rdIdx, v.blk.rdData)] else []) := by
  obtain ⟨m, hm, hr⟩ := h.tick hp
  rw [Block.run_transfer (x := x) (by simpa [Block.byteToSend] using hx),
    Block.xfer_start (by exact hs)] at hm
  have hc : m.cfg = u.cfg := hr.cfg.trans h.cfg.symm
  have hpm : m.At m.blk.running p := by
    refine ⟨by rw [hm]; exact hp.1, ?_⟩
    rw [hc, hm]; exact hp.2
  have hxm : m.blk.byteToSend p = some x := by rw [hm]; exact hx
  obtain ⟨ht, hd⟩ := hr.answered r ha
  have hq : pinEvents u m = [] := by
    refine pinEvents_quiet ?_ (by rw [hm]; rfl)
    simp [State.completesTransfer, hs]
  have hq' : m.blk.rdValid = false := by rw [hm]; rfl
  rw [hq, hq'] at hr
  simp only [List.append_nil, Bool.false_eq_true, if_false] at hr
  obtain ⟨v, hv, hr'⟩ := hr.tick hpm
  rw [Block.run_transfer (x := x) (by simpa [Block.byteToSend] using hxm),
    Block.xfer_answered (by rw [hm]; rfl) ht, hd, hc] at hv
  have he : ({ m.blk.pulsesFall with sub := Sub.start } : Block) = u.blk.sent x := by rw [hm]; rfl
  rw [he] at hv
  have hq2 : pinEvents m v = [.xfer x r] := by
    have hcomp : m.completesTransfer = true := by
      simp only [State.completesTransfer, State.currentPrim, hpm.1, hpm.2, if_true, ht,
        State.deviceTurn_unconstrained hr.undisturbed.1, hr.undisturbed.2.1]
      rw [hm]
      simp [Block.startTransfer, Prim.isTransfer_of_send hx]
    rw [pinEvents_transfer hcomp (by rw [hv, hl, hm]; rfl), hd, hm]
    rfl
  rw [hq2] at hr'
  exact ⟨v, hv, hr'⟩

/-- The tick that accepts the command at the port. -/
theorem Reaches.accept {s : State} {o : OpCode} {n : PageNo} {need : PState} (hu : s.Undisturbed)
    (hp : s.Presents o n) (hn : requiredState (commandOf o n) = some need) (hs : s.blk.pstate = need)
    (hg : ((o == 6 || o == 7) && pageOutOfRange s.cfg n) = false) :
    ∃ v, v.blk = s.blk.pulsesFall.accept o n s.port.cmdPayload ∧ Reaches s 1 v [] [] := by
  obtain ⟨hb, hi, hv, rfl, rfl⟩ := hp
  obtain ⟨v, h1, h2⟩ := (Reaches.refl hu).snoc
    (step_presented (State.deviceTurn_unconstrained hu.1) hu.2.1 hb hv hn)
  rcases Block.present_cases s.cfg s.port.cmdOp need (s.port.cmdOp == 6 || s.port.cmdOp == 7)
    s.port.cmdPage s.port.cmdPayload s.blk.pulsesFall with ⟨h, _⟩ | ⟨_, h, _⟩ | ⟨_, _, h⟩
  · exact absurd hs h
  · rw [hg] at h; cases h
  · rw [h] at h1 h2
    refine ⟨v, h1, ?_⟩
    have hq : pinEvents s v = [] := by
      refine pinEvents_quiet ?_ (by rw [h1]; rfl)
      simp [State.completesTransfer, State.currentPrim, hb]
    simpa [hq] using h2

/-! ### The primitives in a run -/

/-- The primitive that acts next, seen through the latches. -/
theorem Reaches.atPrim {s u : State} {k : Nat} {ev : List PinEvent} {cap : List (BitVec 9 × Byte)}
    (h : Reaches s k u ev cap) {o : OpCode} {n : PageNo} {p : Prim} (hb : u.blk.busy = true)
    (ho : u.blk.op = o) (hn : u.blk.page = n)
    (hp : (sequenceOf s.cfg (commandOf o n))[u.blk.pos]? = some p) : u.At u.blk.running p := by
  subst ho hn
  refine ⟨hb, ?_⟩
  rw [Block.running_eq, h.cfg]
  exact hp

/-- A tick of a primitive that is no transfer, all it does being to replace the registers by `b`. -/
theorem Reaches.plain {s u : State} {k : Nat} {ev : List PinEvent} {cap : List (BitVec 9 × Byte)}
    (h : Reaches s k u ev cap) {p : Prim} {b : Block} (hp : u.At u.blk.running p)
    (ht : p.isTransfer = false) (hb : u.blk.pulsesFall.run u.cfg u.port p = b)
    (hr : b.rdValid = false) :
    ∃ v, v.blk = b ∧ Reaches s (k + 1) v (ev ++ lineEvent u.blk.csN b.csN .csFall .csRise ++
      lineEvent u.blk.wpN b.wpN .wpFall .wpRise ++ lineEvent u.blk.rstN b.rstN .rstFall .rstRise)
      cap := by
  obtain ⟨v, hv, hreach⟩ := h.tick hp
  rw [hb] at hv
  refine ⟨v, hv, ?_⟩
  have hq : u.completesTransfer = false := by
    simp [State.completesTransfer, State.currentPrim, hp.1, hp.2, ht]
  simpa [pinEvents, hq, hv, hr, List.append_assoc] using hreach

theorem Reaches.csAssert {s u : State} {k : Nat} {ev : List PinEvent} {cap : List (BitVec 9 × Byte)}
    (h : Reaches s k u ev cap) (hp : u.At u.blk.running .csAssert) (hl : u.blk.csN = true) :
    ∃ v, v.blk = { u.blk.pulsesFall with csN := false, pos := u.blk.pos + 1 } ∧
      Reaches s (k + 1) v (ev ++ [.csFall]) cap := by
  obtain ⟨v, h1, h2⟩ := h.plain hp rfl rfl rfl
  exact ⟨v, h1, by simpa [Block.run, Block.csAssert, lineEvent, hl] using h2⟩

theorem Reaches.csRelease {s u : State} {k : Nat} {ev : List PinEvent} {cap : List (BitVec 9 × Byte)}
    (h : Reaches s k u ev cap) (hp : u.At u.blk.running .csRelease) (hl : u.blk.csN = false) :
    ∃ v, v.blk = { u.blk.pulsesFall with csN := true, pos := u.blk.pos + 1 } ∧
      Reaches s (k + 1) v (ev ++ [.csRise]) cap := by
  obtain ⟨v, h1, h2⟩ := h.plain hp rfl rfl rfl
  exact ⟨v, h1, by simpa [Block.run, Block.csRelease, lineEvent, hl] using h2⟩

theorem Reaches.wpRelease {s u : State} {k : Nat} {ev : List PinEvent} {cap : List (BitVec 9 × Byte)}
    (h : Reaches s k u ev cap) (hp : u.At u.blk.running .wpRelease) (hl : u.blk.wpN = false) :
    ∃ v, v.blk = { u.blk.pulsesFall with wpN := true, pos := u.blk.pos + 1 } ∧
      Reaches s (k + 1) v (ev ++ [.wpRise]) cap := by
  obtain ⟨v, h1, h2⟩ := h.plain hp rfl rfl rfl
  exact ⟨v, h1, by simpa [Block.run, Block.wpRelease, lineEvent, hl] using h2⟩

theorem Reaches.wpAssert {s u : State} {k : Nat} {ev : List PinEvent} {cap : List (BitVec 9 × Byte)}
    (h : Reaches s k u ev cap) (hp : u.At u.blk.running .wpAssert) (hl : u.blk.wpN = true) :
    ∃ v, v.blk = { u.blk.pulsesFall with wpN := false, pos := u.blk.pos + 1 } ∧
      Reaches s (k + 1) v (ev ++ [.wpFall]) cap := by
  obtain ⟨v, h1, h2⟩ := h.plain hp rfl rfl rfl
  exact ⟨v, h1, by simpa [Block.run, Block.wpAssert, lineEvent, hl] using h2⟩

theorem Reaches.rstAssert {s u : State} {k : Nat} {ev : List PinEvent} {cap : List (BitVec 9 × Byte)}
    (h : Reaches s k u ev cap) (hp : u.At u.blk.running .rstAssert) (hl : u.blk.rstN = true) :
    ∃ v, v.blk = { u.blk.pulsesFall with rstN := false, pos := u.blk.pos + 1 } ∧
      Reaches s (k + 1) v (ev ++ [.rstFall]) cap := by
  obtain ⟨v, h1, h2⟩ := h.plain hp rfl rfl rfl
  exact ⟨v, h1, by simpa [Block.run, Block.rstAssert, lineEvent, hl] using h2⟩

theorem Reaches.rstRelease {s u : State} {k : Nat} {ev : List PinEvent} {cap : List (BitVec 9 × Byte)}
    (h : Reaches s k u ev cap) (hp : u.At u.blk.running .rstRelease) (hl : u.blk.rstN = false) :
    ∃ v, v.blk = { u.blk.pulsesFall with rstN := true, pos := u.blk.pos + 1 } ∧
      Reaches s (k + 1) v (ev ++ [.rstRise]) cap := by
  obtain ⟨v, h1, h2⟩ := h.plain hp rfl rfl rfl
  exact ⟨v, h1, by simpa [Block.run, Block.rstRelease, lineEvent, hl] using h2⟩

theorem Reaches.finish {s u : State} {k : Nat} {ev : List PinEvent} {cap : List (BitVec 9 × Byte)}
    (h : Reaches s k u ev cap) {q : Option PState} (hp : u.At u.blk.running (.finish q)) :
    ∃ v, v.blk = u.blk.pulsesFall.finish q ∧ Reaches s (k + 1) v ev cap := by
  obtain ⟨v, h1, h2⟩ := h.plain hp rfl rfl rfl
  exact ⟨v, h1, by simpa [Block.run, Block.finish, lineEvent] using h2⟩

/-- A dwell under way: after `j` of its ticks, `timer` holds what is left. -/
theorem Reaches.dwellTicks {s u : State} {k : Nat} {ev : List PinEvent} {cap : List (BitVec 9 × Byte)}
    (h : Reaches s k u ev cap) {t : Dwell} (hp : u.At u.blk.running (.dwell t))
    (hs : u.blk.sub = .start) {j : Nat} (h1 : 1 ≤ j) (hj : j < t.ticks u.cfg) :
    ∃ v, v.blk = { u.blk.pulsesFall with timer := t.ticks u.cfg - j, sub := .wait } ∧
      Reaches s (k + j) v ev cap := by
  induction j with
  | zero => omega
  | succ j ih =>
    by_cases h0 : j = 0
    · subst h0
      have hrun : u.blk.pulsesFall.run u.cfg u.port (.dwell t) =
          { u.blk.pulsesFall with timer := t.ticks u.cfg - 1, sub := .wait } := by
        have hd : u.blk.pulsesFall.dwellLeft u.cfg t = t.ticks u.cfg := by
          simp [Block.dwellLeft, hs]
        rcases Block.dwell_cases u.cfg t u.blk.pulsesFall with ⟨a, b⟩ | ⟨a, b⟩
        · rw [hd] at a; omega
        · rw [hd] at b; exact b
      obtain ⟨v, a, b⟩ := h.plain hp rfl hrun rfl
      exact ⟨v, a, by simpa [lineEvent] using b⟩
    · obtain ⟨w, hw, hreach⟩ := ih (by omega) (by omega)
      have hc : w.cfg = u.cfg := hreach.cfg.trans h.cfg.symm
      have hpw : w.At w.blk.running (.dwell t) := by
        refine ⟨by rw [hw]; exact hp.1, ?_⟩
        rw [hc, hw]; exact hp.2
      have hrun : w.blk.pulsesFall.run w.cfg w.port (.dwell t) =
          { u.blk.pulsesFall with timer := t.ticks u.cfg - (j + 1), sub := .wait } := by
        have hd : w.blk.pulsesFall.dwellLeft w.cfg t = t.ticks u.cfg - j := by
          simp [Block.dwellLeft, hw]
        rcases Block.dwell_cases w.cfg t w.blk.pulsesFall with ⟨a, b⟩ | ⟨a, b⟩
        · rw [hd] at a; omega
        · rw [hd, show t.ticks u.cfg - j - 1 = t.ticks u.cfg - (j + 1) by omega] at b
          refine Eq.trans b ?_
          rw [hw]; rfl
      obtain ⟨v, a, b⟩ := hreach.plain hpw rfl hrun rfl
      refine ⟨v, a, ?_⟩
      rw [← Nat.add_assoc]
      simpa [lineEvent, hw] using b

/-- A whole dwell: `N(T)` ticks. -/
theorem Reaches.dwell {s u : State} {k : Nat} {ev : List PinEvent} {cap : List (BitVec 9 × Byte)}
    (h : Reaches s k u ev cap) {t : Dwell} (hp : u.At u.blk.running (.dwell t))
    (hs : u.blk.sub = .start) :
    ∃ v, v.blk = { u.blk.pulsesFall with timer := 0, pos := u.blk.pos + 1 } ∧
      Reaches s (k + t.ticks u.cfg) v ev cap := by
  have hN := Dwell.one_le_ticks u.cfg t
  have last : ∀ {j : Nat} {w : State}, Reaches s j w ev cap → w.At w.blk.running (.dwell t) →
      w.blk.pulsesFall.dwellLeft w.cfg t = 1 →
      ∃ v, v.blk = { w.blk.pulsesFall with timer := 0, sub := .start, pos := w.blk.pos + 1 } ∧
        Reaches s (j + 1) v ev cap := by
    intro j w hw hpw hd
    have hrun : w.blk.pulsesFall.run w.cfg w.port (.dwell t) =
        { w.blk.pulsesFall with timer := 0, sub := .start, pos := w.blk.pos + 1 } := by
      rcases Block.dwell_cases w.cfg t w.blk.pulsesFall with ⟨_, b⟩ | ⟨a, _⟩
      · exact b
      · exact absurd hd a
    obtain ⟨v, a, b⟩ := hw.plain hpw rfl hrun rfl
    exact ⟨v, a, by simpa [lineEvent] using b⟩
  by_cases h1 : t.ticks u.cfg = 1
  · obtain ⟨v, a, b⟩ := last h hp (by simpa [Block.dwellLeft, hs] using h1)
    refine ⟨v, ?_, by rw [h1]; exact b⟩
    rw [a]; simp [Block.pulsesFall, hs]
  · obtain ⟨w, hw, hreach⟩ := h.dwellTicks hp hs (j := t.ticks u.cfg - 1) (by omega) (by omega)
    have hc : w.cfg = u.cfg := hreach.cfg.trans h.cfg.symm
    have hpw : w.At w.blk.running (.dwell t) := by
      refine ⟨by rw [hw]; exact hp.1, ?_⟩
      rw [hc, hw]; exact hp.2
    obtain ⟨v, a, b⟩ := last hreach hpw (by simp [Block.dwellLeft, hw]; omega)
    rw [show k + (t.ticks u.cfg - 1) + 1 = k + t.ticks u.cfg by omega] at b
    refine ⟨v, ?_, b⟩
    rw [a, hw]; simp [Block.pulsesFall, hs]

/-! ### The byte loops in a run -/

/-- The registers that a byte loop of fillers leaves alone, the others set to fixed values. -/
def Block.loopBase (b : Block) : Block :=
  { b.sent filler with idx := 0, rdIdx := 0, rdData := 0, st0 := 0, st1 := 0, pollCnt := 0 }

/-- Registers that agree apart from a byte loop run the same primitive. -/
theorem Block.at_of_loopBase {u w : State} {p : Prim} (h : w.blk.loopBase = u.blk.loopBase)
    (hc : w.cfg = u.cfg) (hp : u.At u.blk.running p) : w.At w.blk.running p := by
  have h1 : w.blk.busy = u.blk.busy := by have := congrArg Block.busy h; exact this
  have h2 : w.blk.pos = u.blk.pos := by have := congrArg Block.pos h; exact this
  have h3 : w.blk.op = u.blk.op := by have := congrArg Block.op h; exact this
  have h4 : w.blk.page = u.blk.page := by have := congrArg Block.page h; exact this
  refine ⟨h1.trans hp.1, ?_⟩
  rw [hc, h2, Block.running_eq, h3, h4, ← Block.running_eq]
  exact hp.2

/-- Registers that agree apart from a byte loop have the same lines. -/
theorem Block.lines_of_loopBase {b b' : Block} (h : b'.loopBase = b.loopBase) : b'.lines = b.lines := by
  have := congrArg Block.lines h
  exact this

/-- The first `j` bytes of `XFER_CAPTURE(m)`, each answered at its first `WAIT` tick, `j` short of `m`. -/
theorem Reaches.captures {s u : State} {k : Nat} {ev : List PinEvent} {cap : List (BitVec 9 × Byte)}
    (h : Reaches s k u ev cap) {m : Nat} {d : Nat → Byte} (hp : u.At u.blk.running (.xferCapture m))
    (hs : u.blk.sub = .start) (hi : u.blk.idx = 0) (hm : m ≤ 512) {j : Nat} (hj : j < m)
    (ha : ∀ i < j, s.AnswersAt (k + 1 + 2 * i) (d i)) :
    ∃ v, v.blk.sub = .start ∧ v.blk.idx = BitVec.ofNat 10 j ∧ v.blk.st0 = u.blk.st0 ∧
      v.blk.st1 = u.blk.st1 ∧ v.blk.pollCnt = u.blk.pollCnt ∧
      v.blk.loopBase = u.blk.loopBase ∧
      Reaches s (k + 2 * j) v (ev ++ (List.range j).map fun i => .xfer filler (d i))
        (cap ++ (List.range j).map fun i => (BitVec.ofNat 9 i, d i)) := by
  induction j with
  | zero => exact ⟨u, hs, hi, rfl, rfl, rfl, rfl, by simpa using h⟩
  | succ j ih =>
    obtain ⟨w, w1, w2, w3, w4, w5, w6, w7⟩ := ih (by omega) (fun i hi => ha i (by omega))
    have hc : w.cfg = u.cfg := w7.cfg.trans h.cfg.symm
    have hpw := Block.at_of_loopBase w6 hc hp
    have hidx : (w.blk.sent filler).idx = BitVec.ofNat 10 j := w2
    have hans : (Prim.xferCapture m).answer w.cfg (d j) (w.blk.sent filler) =
        { w.blk.sent filler with
          rdValid := true, rdIdx := BitVec.ofNat 9 j, rdData := d j, idx := BitVec.ofNat 10 (j + 1) } := by
      rcases Block.afterCapture_cases m (d j) (w.blk.sent filler) with ⟨a, _⟩ | ⟨_, b⟩
      · rw [hidx] at a; simp at a; omega
      · refine Eq.trans b ?_
        rw [hidx]
        congr 1
        · apply BitVec.eq_of_toNat_eq; simp
        · apply BitVec.eq_of_toNat_eq; simp
    obtain ⟨v, a, b⟩ := w7.transfer (x := filler) (r := d j) hpw rfl w1
      (by rw [show k + 2 * j + 1 = k + 1 + 2 * j by omega]; exact ha j (by omega))
      (by rw [hans]; rfl)
    rw [hans] at a
    refine ⟨v, by rw [a]; rfl, by rw [a], ?_, ?_, ?_, ?_, ?_⟩
    · rw [a]; exact w3
    · rw [a]; exact w4
    · rw [a]; exact w5
    · rw [a]; exact w6
    · have hv : (if v.blk.rdValid then [(v.blk.rdIdx, v.blk.rdData)] else []) =
          [(BitVec.ofNat 9 j, d j)] := by rw [a]; rfl
      rw [hv] at b
      rw [show k + 2 * (j + 1) = k + 2 * j + 2 by omega, List.range_succ]
      simpa [List.append_assoc] using b

/-- The whole of `XFER_CAPTURE(m)`. -/
theorem Reaches.capture {s u : State} {k : Nat} {ev : List PinEvent} {cap : List (BitVec 9 × Byte)}
    (h : Reaches s k u ev cap) {m : Nat} {d : Nat → Byte}
    (hp : u.At u.blk.running (.xferCapture (m + 1))) (hs : u.blk.sub = .start) (hi : u.blk.idx = 0)
    (hm : m < 512) (ha : ∀ i < m + 1, s.AnswersAt (k + 1 + 2 * i) (d i)) :
    ∃ v, v.blk = { u.blk.sent filler with
        rdValid := true, rdIdx := BitVec.ofNat 9 m, rdData := d m, pos := u.blk.pos + 1 } ∧
      Reaches s (k + 2 * (m + 1)) v (ev ++ (List.range (m + 1)).map fun i => .xfer filler (d i))
        (cap ++ (List.range (m + 1)).map fun i => (BitVec.ofNat 9 i, d i)) := by
  obtain ⟨w, w1, w2, w3, w4, w5, w6, w7⟩ := h.captures hp hs hi (by omega) (Nat.lt_succ_self m)
    (fun i hi => ha i (by omega))
  have hc : w.cfg = u.cfg := w7.cfg.trans h.cfg.symm
  have hpw := Block.at_of_loopBase w6 hc hp
  have hidx : (w.blk.sent filler).idx = BitVec.ofNat 10 m := w2
  have hans : (Prim.xferCapture (m + 1)).answer w.cfg (d m) (w.blk.sent filler) =
      { u.blk.sent filler with
        rdValid := true, rdIdx := BitVec.ofNat 9 m, rdData := d m, pos := u.blk.pos + 1 } := by
    rcases Block.afterCapture_cases (m + 1) (d m) (w.blk.sent filler) with ⟨_, b⟩ | ⟨a, _⟩
    · refine Eq.trans b ?_
      have hx : (w.blk.sent filler).idx.setWidth 9 = BitVec.ofNat 9 m := by
        rw [hidx]; apply BitVec.eq_of_toNat_eq; simp
      rw [hx]
      have e := congrArg (fun b : Block => { b with
        rdValid := true, rdIdx := BitVec.ofNat 9 m, rdData := d m, pos := b.pos + 1
        st0 := w.blk.st0, st1 := w.blk.st1, pollCnt := w.blk.pollCnt }) w6
      simp only [Block.loopBase, Block.sent] at e ⊢
      rw [e, w3, w4, w5, hi]
    · rw [hidx] at a; simp at a; omega
  obtain ⟨v, a, b⟩ := w7.transfer (x := filler) (r := d m) hpw rfl w1
    (by rw [show k + 2 * m + 1 = k + 1 + 2 * m by omega]; exact ha m (by omega))
    (by rw [hans]; exact (Block.lines_of_loopBase w6).symm)
  rw [hans] at a
  refine ⟨v, a, ?_⟩
  have hv : (if v.blk.rdValid then [(v.blk.rdIdx, v.blk.rdData)] else []) =
      [(BitVec.ofNat 9 m, d m)] := by rw [a]; rfl
  rw [hv] at b
  rw [show k + 2 * (m + 1) = k + 2 * m + 2 by omega, List.range_succ]
  simpa [List.append_assoc] using b

/-- The first `j` bytes of `XFER_PAYLOAD`. -/
theorem Reaches.payloads {s u : State} {k : Nat} {ev : List PinEvent} {cap : List (BitVec 9 × Byte)}
    (h : Reaches s k u ev cap) {d : Nat → Byte} (hp : u.At u.blk.running .xferPayload)
    (hs : u.blk.sub = .start) (hi : u.blk.idx = 0) {j : Nat} (hj : j < 512)
    (ha : ∀ i < j, s.AnswersAt (k + 1 + 2 * i) (d i)) :
    ∃ v, v.blk.sub = .start ∧ v.blk.idx = BitVec.ofNat 10 j ∧ v.blk.st0 = u.blk.st0 ∧
      v.blk.st1 = u.blk.st1 ∧ v.blk.pollCnt = u.blk.pollCnt ∧ v.blk.rdIdx = u.blk.rdIdx ∧
      v.blk.rdData = u.blk.rdData ∧ v.blk.loopBase = u.blk.loopBase ∧
      Reaches s (k + 2 * j) v
        (ev ++ (List.range j).map fun i => .xfer (u.blk.payload.bytes.getD i 0) (d i)) cap := by
  induction j with
  | zero => exact ⟨u, hs, hi, rfl, rfl, rfl, rfl, rfl, rfl, by simpa using h⟩
  | succ j ih =>
    obtain ⟨w, w1, w2, w3, w4, w5, w6, w7, w8, w9⟩ := ih (by omega) (fun i hi => ha i (by omega))
    have hc : w.cfg = u.cfg := w9.cfg.trans h.cfg.symm
    have hpw := Block.at_of_loopBase w8 hc hp
    have hpay : w.blk.payload = u.blk.payload := by have := congrArg Block.payload w8; exact this
    have hx : w.blk.byteToSend .xferPayload = some (u.blk.payload.bytes.getD j 0) := by
      simp only [Block.byteToSend, payloadByte, hpay, w2]
      rw [BitVec.toNat_ofNat, Nat.mod_eq_of_lt (by omega)]
    have hans : Prim.xferPayload.answer w.cfg (d j) (w.blk.sent (u.blk.payload.bytes.getD j 0)) =
        { w.blk.sent (u.blk.payload.bytes.getD j 0) with idx := BitVec.ofNat 10 (j + 1) } := by
      rcases Block.afterPayload_cases (d j) (w.blk.sent (u.blk.payload.bytes.getD j 0)) with
        ⟨a, _⟩ | ⟨_, b⟩
      · have := congrArg BitVec.toNat (w2.symm.trans a)
        simp at this; omega
      · refine Eq.trans b ?_
        rw [show (w.blk.sent (u.blk.payload.bytes.getD j 0)).idx = BitVec.ofNat 10 j from w2]
        congr 1
        apply BitVec.eq_of_toNat_eq; simp
    obtain ⟨v, a, b⟩ := w9.transfer (r := d j) hpw hx w1
      (by rw [show k + 2 * j + 1 = k + 1 + 2 * j by omega]; exact ha j (by omega))
      (by rw [hans]; rfl)
    rw [hans] at a
    refine ⟨v, by rw [a]; rfl, by rw [a], ?_, ?_, ?_, ?_, ?_, ?_, ?_⟩
    · rw [a]; exact w3
    · rw [a]; exact w4
    · rw [a]; exact w5
    · rw [a]; exact w6
    · rw [a]; exact w7
    · rw [a]; exact w8
    · have hv : (if v.blk.rdValid then [(v.blk.rdIdx, v.blk.rdData)] else []) = [] := by rw [a]; rfl
      rw [hv] at b
      rw [show k + 2 * (j + 1) = k + 2 * j + 2 by omega, List.range_succ]
      simpa [List.append_assoc] using b

/-- The whole of `XFER_PAYLOAD`. -/
theorem Reaches.payload {s u : State} {k : Nat} {ev : List PinEvent} {cap : List (BitVec 9 × Byte)}
    (h : Reaches s k u ev cap) {d : Nat → Byte} (hp : u.At u.blk.running .xferPayload)
    (hs : u.blk.sub = .start) (hi : u.blk.idx = 0)
    (ha : ∀ i < 512, s.AnswersAt (k + 1 + 2 * i) (d i)) :
    ∃ v, v.blk = { u.blk.sent (u.blk.payload.bytes.getD 511 0) with pos := u.blk.pos + 1 } ∧
      Reaches s (k + 1024) v
        (ev ++ (List.range 512).map fun i => .xfer (u.blk.payload.bytes.getD i 0) (d i)) cap := by
  obtain ⟨w, w1, w2, w3, w4, w5, w6, w7, w8, w9⟩ := h.payloads hp hs hi (j := 511) (by omega)
    (fun i hi => ha i (by omega))
  have hc : w.cfg = u.cfg := w9.cfg.trans h.cfg.symm
  have hpw := Block.at_of_loopBase w8 hc hp
  have hpay : w.blk.payload = u.blk.payload := by have := congrArg Block.payload w8; exact this
  have hx : w.blk.byteToSend .xferPayload = some (u.blk.payload.bytes.getD 511 0) := by
    simp only [Block.byteToSend, payloadByte, hpay, w2]
    rfl
  have hans : Prim.xferPayload.answer w.cfg (d 511) (w.blk.sent (u.blk.payload.bytes.getD 511 0)) =
      { u.blk.sent (u.blk.payload.bytes.getD 511 0) with pos := u.blk.pos + 1 } := by
    rcases Block.afterPayload_cases (d 511) (w.blk.sent (u.blk.payload.bytes.getD 511 0)) with
      ⟨_, b⟩ | ⟨a, _⟩
    · refine Eq.trans b ?_
      have e := congrArg (fun b : Block => { b with
        pos := b.pos + 1, txData := u.blk.payload.bytes.getD 511 0
        rdIdx := w.blk.rdIdx, rdData := w.blk.rdData
        st0 := w.blk.st0, st1 := w.blk.st1, pollCnt := w.blk.pollCnt }) w8
      simp only [Block.loopBase, Block.sent] at e ⊢
      rw [e, w3, w4, w5, w6, w7, hi]
    · exact absurd w2 a
  obtain ⟨v, a, b⟩ := w9.transfer (r := d 511) hpw hx w1 (ha 511 (by omega))
    (by rw [hans]; exact (Block.lines_of_loopBase w8).symm)
  rw [hans] at a
  refine ⟨v, a, ?_⟩
  have hv : (if v.blk.rdValid then [(v.blk.rdIdx, v.blk.rdData)] else []) = [] := by rw [a]; rfl
  rw [hv] at b
  rw [List.range_succ]
  simpa [List.append_assoc] using b

/-- One pair of a status poll, its two bytes answered at their first `WAIT` ticks. -/
theorem Reaches.pollPair {s u : State} {k : Nat} {ev : List PinEvent} {cap : List (BitVec 9 × Byte)}
    (h : Reaches s k u ev cap) {x y : Byte} (hp : u.At u.blk.running .poll)
    (hs : u.blk.sub = .start) (hi : u.blk.idx = 0) (hx : s.AnswersAt (k + 1) x)
    (hy : s.AnswersAt (k + 3) y) (hl : readyBit x = false → pollLimitReached u.cfg u.blk.pollCnt = false) :
    ∃ v, v.blk = (if readyBit x then
        { u.blk.sent filler with st0 := x, st1 := y, pos := u.blk.pos + 1 }
      else { u.blk.sent filler with st0 := x, st1 := y, pollCnt := u.blk.pollCnt + 1 }) ∧
      Reaches s (k + 4) v (ev ++ [.xfer filler x, .xfer filler y]) cap := by
  have hans : Prim.poll.answer u.cfg x (u.blk.sent filler) =
      { u.blk.sent filler with st0 := x, idx := 1 } := by
    rcases Block.afterPoll_cases u.cfg x (u.blk.sent filler) with ⟨_, b⟩ | ⟨a, _⟩ | ⟨a, _⟩ | ⟨a, _⟩
    · exact b
    all_goals exact absurd hi a
  obtain ⟨w, hw, hr⟩ := h.transfer (x := filler) (r := x) hp rfl hs hx (by rw [hans]; rfl)
  rw [hans] at hw
  have hv : (if w.blk.rdValid then [(w.blk.rdIdx, w.blk.rdData)] else []) = [] := by rw [hw]; rfl
  rw [hv, List.append_nil] at hr
  have hc : w.cfg = u.cfg := hr.cfg.trans h.cfg.symm
  have hpw : w.At w.blk.running .poll := by
    refine ⟨by rw [hw]; exact hp.1, ?_⟩
    rw [hc, hw]; exact hp.2
  have hans2 : Prim.poll.answer w.cfg y (w.blk.sent filler) = (if readyBit x then
      { u.blk.sent filler with st0 := x, st1 := y, pos := u.blk.pos + 1 }
      else { u.blk.sent filler with st0 := x, st1 := y, pollCnt := u.blk.pollCnt + 1 }) := by
    have e : w.blk.sent filler = { u.blk.sent filler with st0 := x, idx := 1 } := by rw [hw]; rfl
    have hz : (0 : BitVec 10) = u.blk.idx := hi.symm
    rw [e, hc]
    rcases Block.afterPoll_cases u.cfg y { u.blk.sent filler with st0 := x, idx := 1 } with
      ⟨a, _⟩ | ⟨_, a, b⟩ | ⟨_, a, a', _⟩ | ⟨_, a, _, b⟩
    · exact absurd a (show (1 : BitVec 10) ≠ 0 by decide)
    · have a' : readyBit x = true := a
      rw [if_pos a']; refine Eq.trans b ?_
      rw [hz]; rfl
    · exact absurd (hl a) (by rw [show pollLimitReached u.cfg u.blk.pollCnt = true from a']; simp)
    · have a' : readyBit x = false := a
      rw [if_neg (by simp [a'])]; refine Eq.trans b ?_
      rw [hz]; rfl
  obtain ⟨v, a, b⟩ := hr.transfer (x := filler) (r := y) hpw rfl (by rw [hw]; rfl)
    (by simpa [Nat.add_assoc] using hy) (by rw [hans2, hw]; split <;> rfl)
  rw [hans2] at a
  refine ⟨v, a, ?_⟩
  have hv' : (if v.blk.rdValid then [(v.blk.rdIdx, v.blk.rdData)] else []) = [] := by
    rw [a]; split <;> rfl
  rw [hv', List.append_nil] at b
  simpa [List.append_assoc, Nat.add_assoc] using b

/-- `j` busy pairs of a status poll, the limit not reached. -/
theorem Reaches.polls {s u : State} {k : Nat} {ev : List PinEvent} {cap : List (BitVec 9 × Byte)}
    (h : Reaches s k u ev cap) {a b : Nat → Byte} (hp : u.At u.blk.running .poll)
    (hs : u.blk.sub = .start) (hi : u.blk.idx = 0) {j : Nat}
    (ha : ∀ i < j, s.AnswersAt (k + 1 + 4 * i) (a i) ∧ s.AnswersAt (k + 3 + 4 * i) (b i))
    (hr : ∀ i < j, readyBit (a i) = false)
    (hl : u.cfg.pollLimit = 0 ∨ u.blk.pollCnt + j < u.cfg.pollLimit) :
    ∃ v, v.blk.sub = .start ∧ v.blk.idx = 0 ∧ v.blk.rdIdx = u.blk.rdIdx ∧
      v.blk.rdData = u.blk.rdData ∧ v.blk.pollCnt = u.blk.pollCnt + j ∧
      v.blk.loopBase = u.blk.loopBase ∧
      Reaches s (k + 4 * j) v (ev ++ (List.range j).flatMap fun i =>
        [.xfer filler (a i), .xfer filler (b i)]) cap := by
  induction j with
  | zero => exact ⟨u, hs, hi, rfl, rfl, rfl, rfl, by simpa using h⟩
  | succ j ih =>
    obtain ⟨w, w1, w2, w3, w4, w5, w6, w7⟩ := ih (fun i hi => ha i (by omega))
      (fun i hi => hr i (by omega)) (by omega)
    have hc : w.cfg = u.cfg := w7.cfg.trans h.cfg.symm
    have hpw := Block.at_of_loopBase w6 hc hp
    have hlim : pollLimitReached w.cfg w.blk.pollCnt = false := by
      rw [hc, w5, pollLimitReached]
      rcases hl with hl | hl
      · simp [hl]
      · simp only [Bool.and_eq_false_iff, decide_eq_false_iff_not]; right; omega
    obtain ⟨v, e, f⟩ := w7.pollPair (x := a j) (y := b j) hpw w1 w2
      (by rw [show k + 4 * j + 1 = k + 1 + 4 * j by omega]; exact (ha j (by omega)).1)
      (by rw [show k + 4 * j + 3 = k + 3 + 4 * j by omega]; exact (ha j (by omega)).2)
      (fun _ => hlim)
    rw [if_neg (by simp [hr j (by omega)])] at e
    refine ⟨v, by rw [e]; rfl, by rw [e]; exact w2, by rw [e]; exact w3, by rw [e]; exact w4, ?_, ?_, ?_⟩
    · rw [e]; show w.blk.pollCnt + 1 = _; omega
    · rw [e]; exact w6
    · rw [show k + 4 * (j + 1) = k + 4 * j + 4 by omega, List.range_succ]
      simpa [List.append_assoc] using f

/-- A whole status poll of `q + 1` pairs, the last of them ready. -/
theorem Reaches.poll {s u : State} {k : Nat} {ev : List PinEvent} {cap : List (BitVec 9 × Byte)}
    (h : Reaches s k u ev cap) {q : Nat} {a b : Nat → Byte} (hp : u.At u.blk.running .poll)
    (hs : u.blk.sub = .start) (hi : u.blk.idx = 0)
    (ha : ∀ i < q + 1, s.AnswersAt (k + 1 + 4 * i) (a i) ∧ s.AnswersAt (k + 3 + 4 * i) (b i))
    (hr : ∀ i < q, readyBit (a i) = false) (hq : readyBit (a q) = true)
    (hl : u.cfg.pollLimit = 0 ∨ u.blk.pollCnt + q < u.cfg.pollLimit) :
    ∃ v, v.blk = { u.blk.sent filler with
        st0 := a q, st1 := b q, pollCnt := u.blk.pollCnt + q, pos := u.blk.pos + 1 } ∧
      Reaches s (k + 4 * (q + 1)) v (ev ++ (List.range (q + 1)).flatMap fun i =>
        [.xfer filler (a i), .xfer filler (b i)]) cap := by
  obtain ⟨w, w1, w2, w3, w4, w5, w6, w7⟩ := h.polls hp hs hi (fun i hi => ha i (by omega)) hr hl
  have hc : w.cfg = u.cfg := w7.cfg.trans h.cfg.symm
  have hpw := Block.at_of_loopBase w6 hc hp
  obtain ⟨v, e, f⟩ := w7.pollPair (x := a q) (y := b q) hpw w1 w2
    (by rw [show k + 4 * q + 1 = k + 1 + 4 * q by omega]; exact (ha q (by omega)).1)
    (by rw [show k + 4 * q + 3 = k + 3 + 4 * q by omega]; exact (ha q (by omega)).2)
    (fun h => by rw [hq] at h; cases h)
  rw [if_pos hq] at e
  refine ⟨v, ?_, ?_⟩
  · rw [e]
    have e' := congrArg (fun c : Block => { c with
      pos := c.pos + 1, idx := w.blk.idx, rdIdx := w.blk.rdIdx, rdData := w.blk.rdData
      st0 := a q, st1 := b q, pollCnt := w.blk.pollCnt }) w6
    simp only [Block.loopBase, Block.sent] at e' ⊢
    rw [e', w2, w3, w4, w5, hi]
  · rw [show k + 4 * (q + 1) = k + 4 * q + 4 by omega, List.range_succ]
    simpa [List.append_assoc] using f

/-! ### Waiting ticks and whole frames in a run -/

/-- `j` ticks of a transfer that waits, the timeout not reached. -/
theorem Reaches.waits {s u : State} {k : Nat} {ev : List PinEvent} {cap : List (BitVec 9 × Byte)}
    (h : Reaches s k u ev cap) {p : Prim} {x : Byte} (hp : u.At u.blk.running p)
    (hx : u.blk.byteToSend p = some x) (hs : u.blk.sub = .wait) (j : Nat)
    (h0 : u.port.txDone = false) (hn : ∀ i, 1 ≤ i → i < j → ∀ r, ¬ s.AnswersAt (k + i) r)
    (hl : u.cfg.busTimeoutTicks = 0 ∨ u.blk.busCnt + j < u.cfg.busTimeoutTicks) :
    ∃ v, v.blk = (if j = 0 then u.blk else { u.blk.pulsesFall with busCnt := u.blk.busCnt + j }) ∧
      Reaches s (k + j) v ev cap := by
  induction j with
  | zero => exact ⟨u, rfl, h⟩
  | succ j ih =>
    obtain ⟨w, hw, hr⟩ := ih (fun i a b => hn i a (by omega)) (by omega)
    have hc : w.cfg = u.cfg := hr.cfg.trans h.cfg.symm
    have hpw : w.At w.blk.running p := by
      refine ⟨by rw [hw]; split <;> exact hp.1, ?_⟩
      rw [hc]; split at hw <;> (rw [hw]; exact hp.2)
    have hxw : w.blk.pulsesFall.byteToSend p = some x := by
      have e : w.blk.pulsesFall.byteToSend p = u.blk.byteToSend p := by
        split at hw <;> rw [hw] <;> cases p <;> rfl
      rw [e, hx]
    have hdone : w.port.txDone = false := by
      by_cases hj : j = 0
      · subst hj
        have e := hr.run
        rw [Nat.add_zero, h.run] at e
        cases e
        exact h0
      · exact hr.silent (by omega) (hn j (by omega) (by omega))
    have hlim : busLimitReached w.cfg w.blk.pulsesFall.busCnt = false := by
      have hb : w.blk.busCnt = u.blk.busCnt + j := by rw [hw]; split <;> simp_all
      rw [hc, busLimitReached]
      rcases hl with hl | hl
      · simp [hl]
      · simp [hb]; omega
    have hsw : w.blk.sub = .wait := by rw [hw]; split <;> exact hs
    have hrun : w.blk.pulsesFall.run w.cfg w.port p =
        { u.blk.pulsesFall with busCnt := u.blk.busCnt + (j + 1) } := by
      rw [Block.run_transfer hxw]
      rcases Block.xfer_cases w.cfg w.port x (p.answer w.cfg) w.blk.pulsesFall with
        ⟨a, _⟩ | ⟨_, a, _⟩ | ⟨_, _, a, _⟩ | ⟨_, _, _, a⟩
      · exact absurd (hsw.symm.trans a) (by simp)
      · exact absurd (hdone.symm.trans a) (by simp)
      · exact absurd (hlim.symm.trans a) (by simp)
      · rw [a, hw]
        split
        · rename_i hj; subst hj; rfl
        · simp [Block.pulsesFall, Nat.add_assoc]
    obtain ⟨v, a, b⟩ := hr.tick hpw
    rw [hrun] at a
    have hq : pinEvents w v = [] := by
      refine pinEvents_quiet ?_ ?_
      · simp [State.completesTransfer, hdone]
      · rw [a, hw]; split <;> rfl
    have hv : (if v.blk.rdValid then [(v.blk.rdIdx, v.blk.rdData)] else []) = [] := by rw [a]; rfl
    rw [hq, hv] at b
    refine ⟨v, by simpa using a, ?_⟩
    simpa [Nat.add_assoc] using b

/-- The primitive that acts next, by its place in a part of the sequence. -/
theorem Reaches.atPart {s u : State} {k : Nat} {ev : List PinEvent} {cap : List (BitVec 9 × Byte)}
    (h : Reaches s k u ev cap) {o : OpCode} {n : PageNo} {pre part : List Prim} (j : Nat) {p : Prim}
    (h3 : sequenceOf s.cfg (commandOf o n) = pre ++ part) (hb : u.blk.busy = true)
    (ho : u.blk.op = o) (hn : u.blk.page = n) (hj : u.blk.pos = pre.length + j)
    (hp : part[j]? = some p) : u.At u.blk.running p := by
  refine h.atPrim hb ho hn ?_
  rw [h3, hj, List.getElem?_append_right (by omega)]
  simpa using hp

/-- A transfer whose answer is discarded (rule R125). -/
theorem Reaches.discard {s u : State} {k : Nat} {ev : List PinEvent} {cap : List (BitVec 9 × Byte)}
    (h : Reaches s k u ev cap) {p : Prim} {z r : Byte} (hp : u.At u.blk.running p)
    (hz : p = .xferConst z ∨ ∃ a, p = .xferAddr a ∧ z = packAddr u.blk.page a)
    (hs : u.blk.sub = .start) (ha : s.AnswersAt (k + 1) r) :
    ∃ v, v.blk = { u.blk.sent z with pos := u.blk.pos + 1 } ∧
      Reaches s (k + 2) v (ev ++ [.xfer z r]) cap := by
  have hx : u.blk.byteToSend p = some z := by rcases hz with rfl | ⟨a, rfl, rfl⟩ <;> rfl
  have hans : p.answer u.cfg r (u.blk.sent z) = { u.blk.sent z with pos := u.blk.pos + 1 } := by
    rcases hz with rfl | ⟨a, rfl, rfl⟩ <;> rfl
  obtain ⟨v, a, b⟩ := h.transfer hp hx hs ha (by rw [hans]; rfl)
  rw [hans] at a
  have hv : (if v.blk.rdValid then [(v.blk.rdIdx, v.blk.rdData)] else []) = [] := by rw [a]; rfl
  rw [hv] at b
  exact ⟨v, a, by simpa using b⟩

/-- The wait-ready (`wr` of rule R130), wherever it stands in a sequence. -/
theorem Reaches.waitReady {s u : State} {k : Nat} {ev : List PinEvent} {cap : List (BitVec 9 × Byte)}
    (h : Reaches s k u ev cap) {o : OpCode} {n : PageNo} {B : Block} {pre post : List Prim} {q : Nat}
    {a b : Nat → Byte} {y : Byte} (hB : u.blk = B) (hb : B.busy = true) (ho : B.op = o)
    (hn : B.page = n) (h3 : sequenceOf s.cfg (commandOf o n) = pre ++ (waitReadyFrame s.cfg ++ post))
    (hpos : B.pos = pre.length) (hs : B.sub = .start) (hi : B.idx = 0) (hcs : B.csN = true)
    (hpc : B.pollCnt = 0) (hy : s.AnswersAt (k + 2) y) (hp : s.PollAnswers (k + 4) q a b)
    (hr : ReadyAtLast s.cfg q a) :
    ∃ v, v.blk = { B.sent filler with
        st0 := a (q - 1), st1 := b (q - 1), pollCnt := q - 1, pos := pre.length + 4 } ∧
      Reaches s (k + 4 + 4 * q) v (ev ++ pollEvents s.cfg q y a b) cap := by
  subst hB
  obtain ⟨hq1, hq2, hq3, hq4⟩ := hr
  obtain ⟨q, rfl⟩ : ∃ q', q = q' + 1 := ⟨q - 1, by omega⟩
  obtain ⟨v2, a2, r2⟩ := h.csAssert (h.atPart 0 h3 hb ho hn hpos rfl) hcs
  obtain ⟨v3, a3, r3⟩ := r2.discard (z := s.cfg.opcStatus)
    (r2.atPart 1 h3 (by rw [a2]; exact hb) (by rw [a2]; exact ho) (by rw [a2]; exact hn)
      (by rw [a2]; simp [hpos]) rfl) (.inl rfl) (by rw [a2]; exact hs) hy
  rw [a2] at a3
  obtain ⟨v4, a4, r4⟩ := r3.poll (q := q) (a := a) (b := b)
    (r3.atPart 2 h3 (by rw [a3]; exact hb) (by rw [a3]; exact ho) (by rw [a3]; exact hn)
      (by rw [a3]; simp [hpos]) rfl) (by rw [a3]; rfl) (by rw [a3]; exact hi)
    (fun i hi => ⟨(hp i hi).1, by have e := (hp i hi).2; exact e⟩) (fun i hi => hq3 i (by omega)) hq4
    (by rw [r3.cfg, show v3.blk.pollCnt = 0 by rw [a3]; exact hpc]; omega)
  rw [a3] at a4
  obtain ⟨v5, a5, r5⟩ := r4.csRelease
    (r4.atPart 3 h3 (by rw [a4]; exact hb) (by rw [a4]; exact ho) (by rw [a4]; exact hn)
      (by rw [a4]; simp [hpos]) rfl) (by rw [a4]; rfl)
  rw [a4] at a5
  refine ⟨v5, ?_, ?_⟩
  · rw [a5]
    simp [hpos, Block.sent, Block.pulsesFall, hcs, hpc]
  · rw [show k + 1 + 2 + 4 * (q + 1) + 1 = k + 4 + 4 * (q + 1) by omega] at r5
    simpa [pollEvents, List.append_assoc] using r5

/-- A magic frame (`B1`), wherever it stands in a sequence. -/
theorem Reaches.magicFrame {s u : State} {k : Nat} {ev : List PinEvent} {cap : List (BitVec 9 × Byte)}
    (h : Reaches s k u ev cap) {o : OpCode} {n : PageNo} {B : Block} {pre post : List Prim}
    {m : Magic} {x : Nat → Byte} (hB : u.blk = B) (hb : B.busy = true) (ho : B.op = o)
    (hn : B.page = n) (h3 : sequenceOf s.cfg (commandOf o n) =
      pre ++ ([.csAssert] ++ magicTransfers m ++ [.csRelease] ++ post))
    (hpos : B.pos = pre.length) (hs : B.sub = .start) (hcs : B.csN = true)
    (hx : ∀ i < 4, s.AnswersAt (k + 2 + 2 * i) (x i)) :
    ∃ v, v.blk = { B.sent m.b3 with pos := pre.length + 6 } ∧
      Reaches s (k + 10) v (ev ++ magicEvents m x) cap := by
  subst hB
  obtain ⟨v2, a2, r2⟩ := h.csAssert (h.atPart 0 h3 hb ho hn hpos rfl) hcs
  obtain ⟨w0, c0, t0⟩ := r2.discard (z := m.b0)
    (r2.atPart 1 h3 (by rw [a2]; exact hb) (by rw [a2]; exact ho) (by rw [a2]; exact hn)
      (by rw [a2]; simp [hpos]) rfl) (.inl rfl) (by rw [a2]; exact hs) (hx 0 (by omega))
  rw [a2] at c0
  obtain ⟨w1, c1, t1⟩ := t0.discard (z := m.b1)
    (t0.atPart 2 h3 (by rw [c0]; exact hb) (by rw [c0]; exact ho) (by rw [c0]; exact hn)
      (by rw [c0]; simp [hpos]) rfl) (.inl rfl) (by rw [c0]; rfl) (hx 1 (by omega))
  rw [c0] at c1
  obtain ⟨w2, c2, t2⟩ := t1.discard (z := m.b2)
    (t1.atPart 3 h3 (by rw [c1]; exact hb) (by rw [c1]; exact ho) (by rw [c1]; exact hn)
      (by rw [c1]; simp [hpos]) rfl) (.inl rfl) (by rw [c1]; rfl) (hx 2 (by omega))
  rw [c1] at c2
  obtain ⟨w3, c3, t3⟩ := t2.discard (z := m.b3)
    (t2.atPart 4 h3 (by rw [c2]; exact hb) (by rw [c2]; exact ho) (by rw [c2]; exact hn)
      (by rw [c2]; simp [hpos]) rfl) (.inl rfl) (by rw [c2]; rfl) (hx 3 (by omega))
  rw [c2] at c3
  obtain ⟨v5, a5, r5⟩ := t3.csRelease
    (t3.atPart 5 h3 (by rw [c3]; exact hb) (by rw [c3]; exact ho) (by rw [c3]; exact hn)
      (by rw [c3]; simp [hpos]) rfl) (by rw [c3]; rfl)
  rw [c3] at a5
  refine ⟨v5, ?_, ?_⟩
  · rw [a5]
    simp [hpos, Block.sent, Block.pulsesFall, hcs]
  · simpa [magicEvents, List.append_assoc] using r5

/-- The head of an addressed frame (`B4`, `B5`), wherever it stands in a sequence. -/
theorem Reaches.header {s u : State} {k : Nat} {ev : List PinEvent} {cap : List (BitVec 9 × Byte)}
    (h : Reaches s k u ev cap) {o : OpCode} {n : PageNo} {B : Block} {pre post : List Prim}
    {oc : Byte} {x : Nat → Byte} (hB : u.blk = B) (hb : B.busy = true) (ho : B.op = o)
    (hn : B.page = n) (h3 : sequenceOf s.cfg (commandOf o n) =
      pre ++ ([.csAssert, .xferConst oc] ++ addressTransfers ++ post))
    (hpos : B.pos = pre.length) (hs : B.sub = .start) (hcs : B.csN = true)
    (hx : ∀ i < 4, s.AnswersAt (k + 2 + 2 * i) (x i)) :
    ∃ v, v.blk = { B.sent (packAddr n .a2) with csN := false, pos := pre.length + 5 } ∧
      Reaches s (k + 9) v (ev ++ headerEvents oc n x) cap := by
  subst hB
  subst hn
  obtain ⟨v2, a2, r2⟩ := h.csAssert (h.atPart 0 h3 hb ho rfl hpos rfl) hcs
  obtain ⟨w0, c0, t0⟩ := r2.discard (z := oc)
    (r2.atPart 1 h3 (by rw [a2]; exact hb) (by rw [a2]; exact ho) (by rw [a2]; rfl)
      (by rw [a2]; simp [hpos]) rfl) (.inl rfl) (by rw [a2]; exact hs) (hx 0 (by omega))
  rw [a2] at c0
  obtain ⟨w1, c1, t1⟩ := t0.discard (z := packAddr u.blk.page .a0)
    (t0.atPart 2 h3 (by rw [c0]; exact hb) (by rw [c0]; exact ho) (by rw [c0]; rfl)
      (by rw [c0]; simp [hpos]) rfl) (.inr ⟨_, rfl, by rw [c0]; rfl⟩) (by rw [c0]; rfl)
    (hx 1 (by omega))
  rw [c0] at c1
  obtain ⟨w2, c2, t2⟩ := t1.discard (z := packAddr u.blk.page .a1)
    (t1.atPart 3 h3 (by rw [c1]; exact hb) (by rw [c1]; exact ho) (by rw [c1]; rfl)
      (by rw [c1]; simp [hpos]) rfl) (.inr ⟨_, rfl, by rw [c1]; rfl⟩) (by rw [c1]; rfl)
    (hx 2 (by omega))
  rw [c1] at c2
  obtain ⟨w3, c3, t3⟩ := t2.discard (z := packAddr u.blk.page .a2)
    (t2.atPart 4 h3 (by rw [c2]; exact hb) (by rw [c2]; exact ho) (by rw [c2]; rfl)
      (by rw [c2]; simp [hpos]) rfl) (.inr ⟨_, rfl, by rw [c2]; rfl⟩) (by rw [c2]; rfl)
    (hx 3 (by omega))
  rw [c2] at c3
  refine ⟨w3, ?_, ?_⟩
  · rw [c3]
    simp [hpos, Block.sent, Block.pulsesFall]
  · simpa [headerEvents, List.append_assoc] using t3

end Sys2Proof.Machine
end

