-- ==== Sys2Proof/Tests/Slice0.lean ====
section
/-! SUPPORT. Tests. Expected results are the spec's own: the vectors V1 to V9 of 95_test_vectors.md and the
examples of the operation rules. After them, for every statement of Certificates/Slice0/Obligations.lean
that has hypotheses, a witness: a concrete state and operands that meet them together, clause by clause. -/

namespace Sys2Proof.Tests

open Sys2Proof.Machine

/-! ## The check of instructions (30_encoding.md rule R94, rule R101) -/

theorem test_wf_refuses_empty_poll : (Instr.frameB3 0).wellFormed = false := by decide
theorem test_wf_refuses_read_address : (Instr.frameB4 0 1).wellFormed = false := by decide
theorem test_wf_refuses_write_address :
    (Instr.frameB5 0x1FFF 0xFE (Payload.replicate 0)).wellFormed = false := by decide
theorem test_wf_accepts : (Instr.frameB3 1).wellFormed = true ∧ (Instr.frameB4 8000 0x40).wellFormed = true ∧
    (Instr.frameB5 0x1FFF 0xFF (Payload.replicate 0)).wellFormed = true := by decide

/-! ## Decoding: words written out from the spec's encodings (V2; rule R92, rule R94, rule R96, rule R12) -/

/-- Rule R92 and rule R93: every code, in bits 19:16, over the page field of all ones. -/
theorem test_decode_commands :
    [0x0FFFF, 0x1FFFF, 0x2FFFF, 0x3FFFF, 0x4FFFF, 0x5FFFF, 0x6FFFF, 0x7FFFF, 0x8FFFF, 0x9FFFF, 0xAFFFF,
      0xBFFFF, 0xCFFFF, 0xDFFFF, 0xEFFFF, 0xFFFFF].map decodeCommand =
    [.init 0xFFFF, .waitReady 0xFFFF, .getStatus 0xFFFF, .getId 0xFFFF, .setPagesize512 0xFFFF,
      .setPagesize528 0xFFFF, .readPage 0xFFFF, .writePage 0xFFFF, .eraseChip 0xFFFF, .enterDpd 0xFFFF,
      .resumeDpd 0xFFFF, .enterUdpd 0xFFFF, .resumeUdpd 0xFFFF, .getPagesize 0xFFFF, .reserved14 0xFFFF,
      .reserved15 0xFFFF] := by decide

/-- The word of READ_PAGE 8191, bit by bit: `0110` and the page number. -/
theorem test_decode_readPage_bits :
    decodeCommand 0b01100001111111111111 = .readPage 8191 := by decide

/-- `B0`, the frames of V4d, V5c and V5e. -/
theorem test_decode_frameB0 :
    decodeFrame Cfg.default [0b10111001] = .ok (.frameB0 .dpd) ∧
    decodeFrame Cfg.default [0b10101011] = .ok (.frameB0 .resumeDpd) ∧
    decodeFrame Cfg.default [0b01111001] = .ok (.frameB0 .udpd) := by decide

/-- `B1`, the frames of V4e and V4h. -/
theorem test_decode_frameB1 :
    decodeFrame Cfg.default [0xC7, 0x94, 0x80, 0x9A] = .ok (.frameB1 .chipErase) ∧
    decodeFrame Cfg.default [0x3D, 0x2A, 0x80, 0xA6] = .ok (.frameB1 .pagesize512) ∧
    decodeFrame Cfg.default [0x3D, 0x2A, 0x80, 0xA7] = .ok (.frameB1 .pagesize528) := by decide

/-- `B2`, the frames of V4a and V4c. -/
theorem test_decode_frameB2 :
    decodeFrame Cfg.default [0x9F, 0xFF, 0xFF, 0xFF, 0xFF, 0xFF] = .ok (.frameB2 .id) ∧
    decodeFrame Cfg.default [0xD7, 0xFF, 0xFF] = .ok (.frameB2 .status) := by decide

/-- `B3`, the frame of V7b. -/
theorem test_decode_frameB3 :
    decodeFrame Cfg.default [0xD7, 0xFF, 0xFF, 0xFF, 0xFF, 0xFF, 0xFF] = .ok (.frameB3 3) := by decide

/-- `B4`, the frame of V4f: 8000 is `1111101000000`, in the bits 21:9 of the header. -/
theorem test_decode_frameB4 :
    decodeFrame Cfg.default ([0b00000011, 0b00111110, 0b10000000, 0b01000000] ++ List.replicate 512 0xFF) =
      .ok (.frameB4 8000 0x40) := by decide +kernel

/-- `B5`, with the row 8191 of V1. -/
theorem test_decode_frameB5 :
    decodeFrame Cfg.default ([0b10000010, 0b00111111, 0b11111110, 0b11111111] ++ List.replicate 512 0x5A) =
      .ok (.frameB5 8191 0xFF (Payload.replicate 0x5A)) := by decide +kernel

/-- `B6`: no byte. -/
theorem test_decode_frameB6 : decodeFrame Cfg.default [] = .ok .frameB6 := by decide

/-- What no rule gives is no frame: an opcode not in the catalog, half a poll, a fixed address bit set, a
program frame one byte short. -/
theorem test_decode_refuses :
    decodeFrame Cfg.default [0x00] = .error .notASleepOpcode ∧
    decodeFrame Cfg.default [0xD7, 0xFF] = .error .notACatalogFrame ∧
    decodeFrame Cfg.default [0xD7, 0xFF, 0xFF, 0xFF] = .error .notAMagicSequence ∧
    decodeFrame Cfg.default ([0x03, 0x40, 0x00, 0x00] ++ List.replicate 512 0xFF) =
      .error .fixedAddressBitSet ∧
    decodeFrame Cfg.default ([0x82, 0x00, 0x00, 0x00] ++ List.replicate 511 0x00) =
      .error .payloadLength := by decide +kernel

/-- Rule R79: the device ignores the fixed bits of an address; page 8190 with a0[7] and a1[0] set. -/
theorem test_heard_ignores_fixed_bits :
    heardFrame Cfg.default ([0x82, 0xBF, 0xFD, 0xFE] ++ List.replicate 512 0x5A) =
      .ok (.frameB5 8190 0xFE (Payload.replicate 0x5A)) ∧
    heardFrame Cfg.default [0xC7, 0x94, 0x80] = .error .notACatalogFrame := by decide +kernel

/-- The rows of the opcode table. -/
theorem test_decodeTableWord :
    decodeTableWord 24 0x61F40 = some (.readPage 8000) ∧ decodeTableWord 24 0x100000 = none ∧
    decodeTableWord 8 0xAB = some (.frameB0 .resumeDpd) ∧ decodeTableWord 8 0x9F = some (.frameB2 .id) ∧
    decodeTableWord 32 0xC794809A = some (.frameB1 .chipErase) ∧
    decodeTableWord 32 0x033E8040 = some (.frameB4 8000 0x40) ∧
    decodeTableWord 0 0 = some .frameB6 := by decide +kernel

/-! ## Operands and flags -/

/-- V1, the address bytes. -/
theorem test_packAddr :
    [0, 1, 127, 128, 4096, 8000, 8190, 8191, 8192, 0xFFFF].map
      (fun n : PageNo => [AddressByte.a0, .a1, .a2].map (packAddr n)) =
    [[0x00, 0x00, 0x00], [0x00, 0x02, 0x01], [0x00, 0xFE, 0x7F], [0x01, 0x00, 0x80], [0x20, 0x00, 0x00],
      [0x3E, 0x80, 0x40], [0x3F, 0xFC, 0xFE], [0x3F, 0xFE, 0xFF], [0x00, 0x00, 0x00],
      [0x3F, 0xFE, 0xFF]] := by decide

/-- V5: a period of 7 ns and one of 40000 ns. -/
theorem test_ticks :
    [Dwell.rst, .settle, .rdpd, .cslu, .xudpd].map (Dwell.ticks { Cfg.default with tClkNs := 7 }) =
      [1429, 5000, 5000, 3, 25715] ∧
    [Dwell.rst, .settle, .rdpd, .cslu, .xudpd].map (Dwell.ticks { Cfg.default with tClkNs := 40000 }) =
      [1, 1, 1, 1, 5] := by decide

/-- V7d and program A: byte 0 as the device answers it, and the host's reading of it. -/
theorem test_status_bits :
    statusByte0 true 0x2C true = 0xAD ∧ pagesIs512 Cfg.default 0xAD = true ∧
    pagesIs512 Cfg.default 0xAC = false ∧ readyBit 0x2D = false ∧ readyBit 0x81 = true := by decide

/-! ## States for the tests -/

/-- The controller as it stands idle in the power state `p`. -/
def idleIn (p : PState) : State :=
  { State.reset with link := .unconstrained, blk := { Block.reset with pstate := p } }

/-- The controller running the operation `o` at its position `k`, in `ACTIVE`, chip-select low. -/
def runs (o : OpCode) (k : Nat) : State :=
  { State.reset with
    link := .unconstrained
    blk := { Block.reset with pstate := .active, busy := true, op := o, pos := k, csN := false } }

/-- A state with a change to the controller. -/
def on (s : State) (f : Block → Block) : State := { s with blk := f s.blk }

/-- A state whose transport presents `tx_done` with `r`, in the `WAIT` sub-phase. -/
def answered (r : Byte) (s : State) : State :=
  { s with
    blk := { s.blk with sub := .wait }
    port := { s.port with txDone := true, rxData := r } }

/-- A state that presents the command `(o, n)`. -/
def presents (o : OpCode) (n : PageNo) (s : State) : State :=
  { s with port := { s.port with cmdValid := true, cmdOp := o, cmdPage := n } }

/-- A state with another configuration. -/
def withCfg (f : Cfg → Cfg) (s : State) : State := { s with cfg := f s.cfg }

/-- The wire on which the transport answers a run of transfers at the first `WAIT` tick each, the first of
them at the tick `first`, or, behind another such wire, `first` ticks after its end. -/
def wireFrom (first : Nat) (answers : List Byte) : List (Bool × Byte) :=
  List.replicate (first - 2) (false, 0) ++ answers.flatMap fun r => [(false, 0), (true, r)]

/-- A state with a change to the device, the device linked. -/
def atDevice (f : RefDev → RefDev) (s : State) : State := { s with link := .refDev, dev := f s.dev }

/-- What a step or an instruction shows of its next state. -/
def shows {α : Type} (x : Outcome) (f : State → α) : Option α :=
  match x with
  | .next t => some (f t)
  | .fault _ => none
  | .refused _ => none

/-- `busy`, `done` and `err` after a step (V3). -/
def verdict (s : State) : Option (Bool × Bool × BitVec 3) :=
  shows (step s) fun t => (t.blk.busy, t.blk.done, t.blk.err.code)

/-! ## One step -/

/-- V3: INIT is accepted in `UNINIT`, and rejected with 3 in `ACTIVE`. -/
theorem test_init_accepted : verdict (presents 0 0 (idleIn .uninit)) = some (true, false, 0) := by decide
theorem test_init_rejected : verdict (presents 0 0 (idleIn .active)) = some (false, true, 3) := by decide

/-- V3: nothing but INIT in `UNINIT`. -/
theorem test_uninit_rejects :
    ([1, 2, 3, 4, 5, 6, 7, 8, 9, 10, 11, 12, 13] : List OpCode).map
      (fun o => verdict (presents o 0 (idleIn .uninit))) =
    List.replicate 13 (some (false, true, 3)) := by decide

/-- V3: nothing but RESUME_DPD in `DPD`, nothing but RESUME_UDPD in `UDPD`; state before operand. -/
theorem test_dpd_rejects :
    ([0, 1, 2, 3, 4, 5, 6, 7, 8, 9, 11, 12, 13] : List OpCode).map
      (fun o => verdict (presents o 9000 (idleIn .dpd))) =
    List.replicate 13 (some (false, true, 3)) := by decide
theorem test_udpd_rejects :
    ([0, 1, 2, 3, 4, 5, 6, 7, 8, 9, 10, 11, 13] : List OpCode).map
      (fun o => verdict (presents o 0 (idleIn .udpd))) =
    List.replicate 13 (some (false, true, 3)) := by decide
theorem test_resumes_accepted :
    verdict (presents 10 0 (idleIn .dpd)) = some (true, false, 0) ∧
    verdict (presents 12 0 (idleIn .udpd)) = some (true, false, 0) := by decide

/-- V3: the other eleven are accepted in `ACTIVE`. -/
theorem test_active_accepts :
    ([1, 2, 3, 4, 5, 6, 7, 8, 9, 11, 13] : List OpCode).map
      (fun o => verdict (presents o 8191 (idleIn .active))) =
    List.replicate 11 (some (true, false, 0)) := by decide

/-- V3: the page numbers 8192 and 65535. -/
theorem test_readPage_range : verdict (presents 6 8192 (idleIn .active)) = some (false, true, 4) := by decide
theorem test_writePage_range :
    verdict (presents 7 65535 (idleIn .active)) = some (false, true, 4) := by decide
theorem test_readPage_unchecked :
    verdict (presents 6 8192 (withCfg (fun c => { c with rangeCheck := false }) (idleIn .active))) =
      some (true, false, 0) := by decide

/-- V3: code 14 in `DPD`, code 15 in `UNINIT`. -/
theorem test_reserved14 : verdict (presents 14 0 (idleIn .dpd)) = some (false, true, 5) := by decide
theorem test_reserved15 : verdict (presents 15 0 (idleIn .uninit)) = some (false, true, 5) := by decide

/-- V4d: `FINISH(DPD)` at the position 3 of ENTER_DPD. -/
theorem test_enterDpd_finish :
    shows (step (on (runs 9 3) fun b => { b with csN := true })) (fun t => (t.blk.pstate, t.blk.done)) =
      some (.dpd, true) := by decide

/-- V5c: the resume opcode goes out at tick 2. -/
theorem test_resumeDpd_sends :
    shows (step (on (runs 10 1) fun b => { b with pstate := .dpd })) (fun t => (t.blk.txStart, t.blk.txData)) =
      some (true, 0xAB) := by decide

/-- V5e: the opcode of ENTER_UDPD. -/
theorem test_enterUdpd_sends :
    shows (step (runs 11 1)) (fun t => (t.blk.txStart, t.blk.txData)) = some (true, 0x79) := by decide

/-- V4i: the wake pulse's dwell of one tick ends at once, and the long one begins with 1800. -/
theorem test_resumeUdpd_pulse :
    shows (step (runs 12 1)) (fun t => (t.blk.pos, t.blk.timer)) = some (2, 0) := by decide
theorem test_resumeUdpd_dwell :
    shows (step (runs 12 3)) (fun t => (t.blk.pos, t.blk.timer)) = some (3, 1799) := by decide

/-- V5a: the reset line falls, and its dwell has 100 ticks. -/
theorem test_init_dwell :
    shows (step (runs 0 1)) (fun t => (t.blk.pos, t.blk.timer)) = some (1, 99) := by decide

/-- V4a: status byte 0 and 1 of GET_STATUS. -/
theorem test_getStatus_byte0 :
    shows (step (answered 0xAC (runs 2 2))) (fun t => (t.blk.st0, t.blk.idx, t.blk.pos)) =
      some (0xAC, 1, 2) := by decide
theorem test_getPagesize_byte1 :
    shows (step (answered 0x88 (on (runs 13 2) fun b => { b with idx := 1 })))
      (fun t => (t.blk.st1, t.blk.idx, t.blk.pos)) = some (0x88, 0, 3) := by decide

/-- V4c: the last byte of the identification record. -/
theorem test_getId_last :
    shows (step (answered 0x00 (on (runs 3 2) fun b => { b with idx := 4 })))
      (fun t => (t.blk.rdValid, t.blk.rdIdx, t.blk.rdData, t.blk.pos)) = some (true, 4, 0x00, 3) := by decide

/-- V4f: the second address byte of page 8000; the byte 511. -/
theorem test_readPage_address :
    shows (step (on (runs 6 3) fun b => { b with page := 8000 })) (fun t => t.blk.txData) =
      some 0x80 := by decide
theorem test_readPage_last :
    shows (step (answered 0x77 (on (runs 6 5) fun b => { b with idx := 511 })))
      (fun t => (t.blk.rdIdx, t.blk.rdData, t.blk.idx, t.blk.pos)) = some (511, 0x77, 0, 6) := by decide

/-- V4g: the payload byte at `idx`; write-protect is released first. -/
theorem test_writePage_payload :
    shows (step (on (runs 7 6) fun b => { b with idx := 511, payload := Payload.replicate 0x1F }))
      (fun t => t.blk.txData) = some 0x1F := by decide +kernel
theorem test_writePage_wp :
    shows (step (on (runs 7 0) fun b => { b with csN := true })) (fun t => (t.blk.wpN, t.blk.csN)) =
      some (true, true) := by decide

/-- V8a, V8b: the third not-ready pair aborts, the third ready pair does not. -/
theorem test_waitReady_limit :
    shows (step (answered 0x03 (withCfg (fun c => { c with pollLimit := 3 })
      (on (runs 1 2) fun b => { b with idx := 1, st0 := 0x2D, pollCnt := 2 }))))
      (fun t => (t.blk.csN, t.blk.busy, t.blk.err.code, t.blk.st1, t.blk.pollCnt)) =
      some (true, false, 2, 0x03, 2) := by decide
theorem test_waitReady_ready :
    shows (step (answered 0x03 (withCfg (fun c => { c with pollLimit := 3 })
      (on (runs 1 2) fun b => { b with idx := 1, st0 := 0xAD, pollCnt := 2 }))))
      (fun t => (t.blk.csN, t.blk.busy, t.blk.err.code, t.blk.pos)) = some (false, true, 0, 3) := by decide

/-- V8d: an abort of ERASE_CHIP moves both lines. -/
theorem test_eraseChip_abort :
    shows (step (answered 0x00 (withCfg (fun c => { c with pollLimit := 2 })
      (on (runs 8 9) fun b => { b with idx := 1, st0 := 0x2C, pollCnt := 1, wpN := true }))))
      (fun t => (t.blk.csN, t.blk.wpN, t.blk.err.code, t.blk.pos)) = some (true, false, 2, 0) := by decide

/-- V8e: the fourth `WAIT` tick without an answer. -/
theorem test_bus_timeout :
    shows (step (withCfg (fun c => { c with busTimeoutTicks := 4 })
      (on (runs 2 2) fun b => { b with sub := .wait, busCnt := 3 })))
      (fun t => (t.blk.csN, t.blk.err.code, t.blk.done)) = some (true, 1, true) := by decide

/-- V4e: the last byte of the two page-size sequences. -/
theorem test_setPagesize512_sends :
    shows (step (runs 4 4)) (fun t => t.blk.txData) = some 0xA6 := by decide
theorem test_setPagesize528_sends :
    shows (step (runs 5 4)) (fun t => t.blk.txData) = some 0xA7 := by decide

/-- V9b, V9c: a reset inside WRITE_PAGE, a command standing at the port. -/
theorem test_reset_wins :
    shows (step (presents 9 0 { on (runs 7 3) (fun b => { b with wpN := true }) with
      port := { Inputs.quiet with reset := true } }))
      (fun t => (t.blk.busy, t.blk.done, t.blk.csN, t.blk.wpN, t.blk.pstate)) =
      some (false, false, true, false, .uninit) := by decide

/-- Rule R40, rule R42: a command held to a busy controller stands through a block reset, which comes when it
comes; a command only offered is gone. -/
theorem test_host_holds :
    let s (h : Bool) : State := { presents 9 5 (runs 2 0) with holds := h, resets := [true] }
    shows (step (s true)) (fun t => (t.port.reset, t.port.cmdValid, t.port.cmdOp)) = some (true, true, 9) ∧
    shows (step (s false)) (fun t => (t.port.reset, t.port.cmdValid)) = some (true, false) := by decide
theorem test_host_moves :
    let s : State := { idleIn .active with host := [.offer 6 8000 (Payload.replicate 0), .quiet] }
    shows (step s) (fun t => (t.port.cmdValid, t.port.cmdOp, t.port.cmdPage, t.holds, t.host)) =
      some (true, 6, 8000, false, [.quiet]) := by decide

/-- Program D: a chip erase begun with `B = [5]`; under write-protect it has no effect (rule R81). -/
theorem test_frameB1_erase :
    shows (exec (.frameB1 .chipErase) (atDevice (fun d => { d with busyPlan := [5] })
      (on (idleIn .active) fun b => { b with wpN := true })))
      (fun t => (t.dev.busyLeft, t.dev.pending, t.dev.indet.mem 8191)) = some (5, some .eraseAll, true) := by
  decide
theorem test_frameB1_gated :
    shows (exec (.frameB1 .chipErase) (atDevice (fun d => { d with busyPlan := [5] }) (idleIn .active)))
      (fun t => (t.dev.busyLeft, t.dev.indet.mem 8191)) = some (0, false) := by decide

/-- Program D, the last row: the poll that follows an abandoned wait finds the erase committed. Under the
second reading of log 27 (93_implementation_defined.md U4) the pages stay indeterminate. -/
theorem test_abandoned_erase :
    let d (late : Bool) : RefDev := { RefDev.start with
      lateCommit := late, busyLeft := 1, pending := some .eraseAll, indet := PageSet.all }
    let after (late : Bool) : RefDev :=
      (RefDev.exchanges Cfg.default (fun _ => 0) (0xD7 :: fillers 4)
        (d late).abandon.csFall).2
    ((after true).pending, (after true).indet.mem 8191) = (none, false) ∧
    ((after false).pending, (after false).indet.mem 8191) = (none, true) := by decide

/-- 93_implementation_defined.md U4: the page-size bit after an abandoned SET_PAGESIZE_528 is any value. -/
theorem test_abandoned_pagesize (free : Byte) :
    (RefDev.abandon { RefDev.start with lateCommit := false, busyLeft := 1, pending := some (.setPs false) }
      |>.pszBit free) = free.getLsbD 0 := rfl

/-- 93_implementation_defined.md U16: nothing is known of a busy device after a sleep frame. -/
theorem test_busy_sleep :
    shows (exec (.frameB0 .dpd) (atDevice (fun d => { d with busyLeft := 1, pending := some .eraseAll })
      (idleIn .active))) (fun t => t.dev.lost) = some true := by decide

/-- 70_reset_and_hazards.md rule R262: a reset pulse on a device whose recovery of 180 us was cut short. -/
theorem test_reset_of_waking :
    (RefDev.rstRise Cfg.default { RefDev.start with
      deafUntil := 180000, tRstLow := 1000, now := 20000 }).lost = true := by decide

/-- Rule R83: the sleep and resume frames, and the wake pulse of 20 ns. -/
theorem test_frameB0_sleeps :
    shows (exec (.frameB0 .dpd) (idleIn .active)) (fun t => t.dev.dps) = some .dpd := by decide
theorem test_frameB6_wakes :
    shows (exec .frameB6 (atDevice (fun d => { d with dps := .udpd, now := 20 }) (idleIn .active)))
      (fun t => (t.dev.dps, t.dev.deafUntil)) = some (.active, 180020) := by decide

/-- Rule R80, program B: page 8000 waits for two polls, indeterminate. -/
theorem test_frameB5_begins :
    shows (exec (.frameB5 8000 0x40 (Payload.replicate 0x5A)) (atDevice (fun d => { d with busyPlan := [2] })
      (on (idleIn .active) fun b => { b with wpN := true })))
      (fun t => (t.dev.busyLeft, t.dev.indet.mem 8000, t.dev.indet.mem 8001)) = some (2, true, false) := by
  decide +kernel

/-- Rule R67: a read frame leaves the device as it was. -/
theorem test_frameB4_pure :
    shows (exec (.frameB4 8000 0x40) (idleIn .active)) (fun t => t.dev == (idleIn .active).dev) =
      some true := by decide +kernel
theorem test_frameB3_pure :
    shows (exec (.frameB3 3) (idleIn .active)) (fun t => (t.dev.busyLeft, t.dev.dps)) =
      some (0, .active) := by decide
theorem test_frameB2_pure :
    shows (exec (.frameB2 .id) (idleIn .active)) (fun t => (t.dev.busyLeft, t.dev.lost)) =
      some (0, false) := by decide

/-- Rule R77, rule R78, program A: the answers of the start device. -/
theorem test_device_answers :
    (RefDev.exchanges Cfg.default (fun _ => 0) [0xD7, 0xFF, 0xFF]
      { RefDev.start with u0 := 0x2C, u1 := 0x88 }).1.drop 1 = [0xAD, 0x88] ∧
    (RefDev.exchanges Cfg.default (fun _ => 0) [0x9F, 0xFF, 0xFF, 0xFF, 0xFF, 0xFF] RefDev.start).1.drop 1 =
      [0x1F, 0x27, 0x01, 0x01, 0x00] := by decide

/-! ## Witnesses: the hypotheses of each statement, met together -/

/-- A step or an instruction that shows `y` has a next state that does. -/
theorem of_shows {α : Type} {x : Outcome} {f : State → α} {y : α} (h : shows x f = some y) :
    ∃ t, x = .next t ∧ f t = y := by
  cases x with
  | next t => exact ⟨t, rfl, Option.some.inj h⟩
  | fault _ => cases h
  | refused _ => cases h

/-- The start device meets its invariant. -/
theorem start_inv : RefDev.start.Inv :=
  ⟨rfl, ⟨List.Pairwise.nil, fun _ h => (nomatch h)⟩, fun _ => rfl, fun _ _ h => (nomatch h),
    fun h => (nomatch h)⟩

/-- The idle controller in any power state meets the invariant. -/
theorem idleIn_inv (p : PState) : (idleIn p).Inv :=
  ⟨⟨fun _ => ⟨rfl, rfl, rfl, rfl, rfl⟩, fun h => (nomatch h),
    ⟨fun h => absurd rfl h, fun h => absurd rfl h⟩⟩, start_inv⟩

/-- A state whose controller runs the operation `o` at `k` in the power state `q`, the lines at the levels
`cs`, `wp`, `rst`. -/
def within (q : PState) (o : OpCode) (k : Nat) (cs wp rst : Bool) : State :=
  on (idleIn q) fun b => { b with busy := true, op := o, pos := k, csN := cs, wpN := wp, rstN := rst }

/-- When the lines are where the sequence has put them, the invariant holds at the first tick of any
primitive but a dwell's later ones. -/
theorem within_inv {q : PState} {o : OpCode} {k : Nat} {cs wp rst : Bool}
    (hq : requiredState (within q o k cs wp rst).blk.running = some q)
    (hp : (Instr.paged (within q o k cs wp rst).blk.running && pageOutOfRange Cfg.default 0) = false)
    (hl : (⟨cs, wp, rst⟩ : Lines) = linesAt (sequenceOf Cfg.default (within q o k cs wp rst).blk.running) k)
    {p : Prim} (hk : (sequenceOf Cfg.default (within q o k cs wp rst).blk.running)[k]? = some p)
    (hh : p.Holds Cfg.default (within q o k cs wp rst).blk) : (within q o k cs wp rst).Inv :=
  ⟨⟨fun h => (nomatch h), fun _ => ⟨hq, hp, hl, p, hk, hh, fun h => (nomatch h)⟩,
    ⟨fun h => absurd rfl h, fun h => absurd rfl h⟩⟩, start_inv⟩

/-! ### Encodings -/

/-- `DecodeOfEncode`: the default catalog, and the instructions at the ends of their fields. -/
theorem witness_decodeOfEncode : Cfg.default.CatalogDistinct ∧ (Instr.frameB3 1).WellFormed ∧
    (Instr.frameB4 0x1FFF 0xFF).WellFormed ∧ (Instr.readPage 0xFFFF).WellFormed := by decide

/-- `EncodeOfDecodedFrame`, `PlacedInstructionIsFetched`: a frame that decodes. -/
theorem witness_decodedFrame : decodeFrame (idleIn .active).cfg [0xD7, 0xFF, 0xFF] = .ok (.frameB2 .status) := by
  decide

/-- `PackedAddressAliases`, `AddressOutOfRangeRejected`: page 8192 in `ACTIVE`, checked and unchecked. -/
theorem witness_outOfRange :
    (idleIn .active).blk.busy = false ∧ (idleIn .active).blk.pstate = .active ∧
    8192 ≤ (8192 : PageNo).toNat ∧ (idleIn .active).cfg.rangeCheck = true ∧
    (withCfg (fun c => { c with rangeCheck := false }) (idleIn .active)).cfg.rangeCheck = false := by decide

/-- `AddressOutOfRangeRejected`: an operation of the table that takes no page number, in its state. -/
theorem witness_notPaged : (Instr.eraseChip 9000, (8 : OpCode), PState.active) ∈ guardTable 9000 ∧
    (8 : OpCode) ≠ 6 ∧ (8 : OpCode) ≠ 7 ∧ (idleIn .active).blk.pstate = .active := by decide

/-- `TickCountIsLeast`: a period, and a count that is enough. -/
theorem witness_ticks : 1 ≤ Cfg.default.tClkNs ∧ 1 ≤ 100 ∧ 10000 ≤ 100 * Cfg.default.tClkNs := by decide

/-! ### The machine as a whole -/

/-- `ResetTick`: a reset inside WRITE_PAGE. -/
theorem witness_resetTick :
    let s : State := { within .active 7 3 false true true with port := { Inputs.quiet with reset := true } }
    s.deviceTurn = false ∧ s.port.reset = true := by decide

/-- `StepKeepsInvariant`, `StepNeverStops`: WRITE_PAGE at the first address byte, a step that goes on. -/
theorem witness_invariant : (within .active 7 3 false true true).Inv ∧
    ∃ t, step (within .active 7 3 false true true) = .next t ∧ t.blk.txStart = true :=
  ⟨within_inv rfl (by decide) (by decide) (p := .xferAddr .a0) rfl rfl, of_shows (by decide)⟩

/-- `IdleRegisters`: the `FINISH` of WAIT_READY leaves the controller idle. -/
theorem witness_idleRegisters : (within .active 1 4 true false true).Inv ∧
    ∃ t, step (within .active 1 4 true false true) = .next t ∧ t.blk.busy = false :=
  ⟨within_inv rfl (by decide) (by decide) (p := .finish none) rfl ⟨rfl, rfl⟩, of_shows (by decide)⟩

/-- `StepRunsDecodedInstruction`: a frame whose address has a fixed bit set, and bytes that are no frame. -/
theorem witness_stepRunsHeard :
    (let s := atDevice (fun d => { d with
       atEnd := true, frame := [0x82, 0xBF, 0xFD, 0xFE] ++ List.replicate 512 0x5A }) (idleIn .active)
     s.deviceTurn = true ∧ decodeFrame s.cfg s.dev.frame = .error .fixedAddressBitSet ∧
       decodeFrame s.cfg (clearFixedBits s.cfg s.dev.frame) =
         .ok (.frameB5 8190 0xFE (Payload.replicate 0x5A))) ∧
    (let s := atDevice (fun d => { d with atEnd := true, frame := [0xC7, 0x94, 0x80] }) (idleIn .active)
     s.deviceTurn = true ∧ decodeFrame s.cfg s.dev.frame = .error .notACatalogFrame ∧
       decodeFrame s.cfg (clearFixedBits s.cfg s.dev.frame) = .error .notACatalogFrame) := by
  decide +kernel

/-- `StepRunsDecodedInstruction`: the device's turn; an operation in progress, and one whose position is
past its sequence; a command at the port. -/
theorem witness_stepRuns :
    (let s := atDevice (fun d => { d with atEnd := true, frame := [0xB9] }) (idleIn .active)
     s.deviceTurn = true ∧ decodeFrame s.cfg s.dev.frame = .ok (.frameB0 .dpd)) ∧
    (let s := within .active 2 0 true false true
     s.deviceTurn = false ∧ s.port.reset = false ∧ s.blk.busy = true ∧
       decodeCommand (commandWord s.blk.op s.blk.page) = .getStatus 0 ∧
       shows (exec (.getStatus 0) s) (fun t => t.blk.csN) = some false) ∧
    (let s := within .active 2 5 true false true
     s.deviceTurn = false ∧ s.port.reset = false ∧ s.blk.busy = true ∧
       decodeCommand (commandWord s.blk.op s.blk.page) = .getStatus 0 ∧
       exec (.getStatus 0) s = .fault .noPrimitive) ∧
    (let s := presents 6 8191 (idleIn .active)
     s.deviceTurn = false ∧ s.port.reset = false ∧ s.blk.busy = false ∧ s.port.cmdValid = true ∧
       decodeCommand (commandWord s.port.cmdOp s.port.cmdPage) = .readPage 8191 ∧
       shows (exec (.readPage 8191) s) (fun t => t.blk.busy) = some true) :=
  ⟨by decide, by decide, ⟨rfl, rfl, rfl, by decide, rfl⟩, by decide⟩

/-- `BusyControllerIgnoresCommands`: a command at the port of a busy controller, and one more port. -/
theorem witness_busyIgnores :
    let s : State := { presents 0 0 (within .active 2 0 true false true) with holds := true }
    let p : Inputs := { Inputs.quiet with cmdValid := true, cmdOp := 9 }
    s.deviceTurn = false ∧ s.blk.busy = true ∧ s.port.reset = false ∧ p.reset = false ∧
      p.txDone = s.port.txDone ∧ p.rxData = s.port.rxData ∧ s.port.cmdValid = true ∧ s.holds = true ∧
      ∃ t, step s = .next t ∧ t.blk.csN = false :=
  ⟨rfl, rfl, rfl, rfl, rfl, rfl, rfl, rfl, of_shows (by decide)⟩

/-- `IdleTick`. -/
theorem witness_idleTick : (idleIn .active).deviceTurn = false ∧ (idleIn .active).port.reset = false ∧
    (idleIn .active).blk.busy = false ∧ (idleIn .active).port.cmdValid = false := by decide

/-- `PulsesMeanEvents`: a rejection gives `done`, a transfer's start `tx_start`, a captured byte
`rd_valid`. -/
theorem witness_pulses :
    (∃ t, step (presents 14 0 (idleIn .active)) = .next t ∧ t.blk.done = true) ∧
    (∃ t, step (runs 3 1) = .next t ∧ t.blk.txStart = true) ∧
    ∃ t, step (answered 0x1F (on (runs 3 2) fun b => { b with idx := 4 })) = .next t ∧
      t.blk.rdValid = true :=
  ⟨of_shows (by decide), of_shows (by decide), of_shows (by decide)⟩

/-- `LineDiscipline`: a transfer started in `ACTIVE` with write-protect released, one started in `DPD`, and
the reset line asserted. -/
theorem witness_lines :
    ((within .active 7 3 false true true).Inv ∧ ∃ t, step (within .active 7 3 false true true) = .next t ∧
      (t.blk.txStart, t.blk.csN, t.blk.wpN) = (true, false, true)) ∧
    ((within .dpd 10 1 false false true).Inv ∧ ∃ t, step (within .dpd 10 1 false false true) = .next t ∧
      t.blk.txStart = true) ∧
    (within .uninit 0 0 true false true).Inv ∧
      ∃ t, step (within .uninit 0 0 true false true) = .next t ∧ t.blk.rstN = false :=
  ⟨⟨within_inv rfl (by decide) (by decide) (p := .xferAddr .a0) rfl rfl, of_shows (by decide)⟩,
    ⟨within_inv rfl (by decide) (by decide) (p := .xferConst 0xAB) rfl rfl, of_shows (by decide)⟩,
    within_inv rfl (by decide) (by decide) (p := .rstAssert) rfl ⟨rfl, rfl⟩, of_shows (by decide)⟩

/-- `PowerStateTransitions`: a block reset, and the end of ENTER_UDPD. -/
theorem witness_powerState :
    (let s : State := { idleIn .active with port := { Inputs.quiet with reset := true } }
     s.Inv ∧ ∃ t, step s = .next t ∧ t.blk.pstate ≠ s.blk.pstate) ∧
    (within .active 11 3 true false true).Inv ∧ ∃ t, step (within .active 11 3 true false true) = .next t ∧
      t.blk.pstate ≠ (within .active 11 3 true false true).blk.pstate := by
  refine ⟨⟨idleIn_inv .active, ?_⟩,
    within_inv rfl (by decide) (by decide) (p := .finish (some .udpd)) rfl ⟨rfl, rfl⟩, ?_⟩
  · obtain ⟨t, h, e⟩ := of_shows (f := fun t => t.blk.pstate) (y := .uninit)
      (x := step { idleIn .active with port := { Inputs.quiet with reset := true } }) (by decide)
    exact ⟨t, h, by rw [e]; decide⟩
  · obtain ⟨t, h, e⟩ := of_shows (f := fun t => t.blk.pstate) (y := .udpd)
      (x := step (within .active 11 3 true false true)) (by decide)
    exact ⟨t, h, by rw [e]; decide⟩

/-- `RegisterWriters`: a status byte latched; a command accepted; an error given. -/
theorem witness_writers :
    (∃ t, step (answered 0xAC (runs 2 2)) = .next t ∧ t.blk.st0 = 0xAC) ∧
    (∃ t, step (presents 6 8191 (idleIn .active)) = .next t ∧ t.blk.page = 8191) ∧
    ∃ t, step (presents 14 0 (idleIn .active)) = .next t ∧ t.blk.err = .illegalCommand :=
  ⟨of_shows (by decide), of_shows (by decide), of_shows (by decide)⟩

/-! ### Acceptance -/

/-- `CommandAccepted`: the last page, in `ACTIVE`; RESUME_UDPD, which takes no page, in `UDPD`. -/
theorem witness_accepted :
    (Instr.readPage 8191, (6 : OpCode), PState.active) ∈ guardTable 8191 ∧
    (idleIn .active).blk.busy = false ∧ (idleIn .active).blk.pstate = .active ∧
    (8191 : PageNo).toNat < 8192 ∧
    (Instr.resumeUdpd 0xFFFF, (12 : OpCode), PState.udpd) ∈ guardTable 0xFFFF ∧
    (idleIn .udpd).blk.busy = false ∧ (idleIn .udpd).blk.pstate = .udpd := by decide

/-- `WrongPowerStateRejected`: a page out of range in `DPD`. -/
theorem witness_wrongState :
    (Instr.readPage 9000, (6 : OpCode), PState.active) ∈ guardTable 9000 ∧
    (idleIn .dpd).blk.busy = false ∧ (idleIn .dpd).blk.pstate ≠ .active := by decide

/-- `ReservedCodesRejected`: an idle controller. -/
theorem witness_reserved : (idleIn .uninit).blk.busy = false := by decide

/-! ### The primitives -/

/-- `LinePrimitives`: each of the six, where WRITE_PAGE and INIT have it. -/
theorem witness_linePrimitives :
    (runs 7 1).At (.writePage 0) .csAssert ∧ (runs 7 7).At (.writePage 0) .csRelease ∧
    (runs 7 0).At (.writePage 0) .wpRelease ∧ (runs 7 12).At (.writePage 0) .wpAssert ∧
    (runs 0 0).At (.init 0) .rstAssert ∧ (runs 0 2).At (.init 0) .rstRelease := by decide

/-- `TransferEngine`: a start; the last tick of a limit of 4, and the one before it; no limit. -/
theorem witness_transferEngine :
    (runs 7 6).At (.writePage 0) .xferPayload ∧ (runs 7 6).blk.byteToSend .xferPayload = some 0 ∧
    (runs 7 6).blk.sub = .start ∧
    (let s := withCfg (fun c => { c with busTimeoutTicks := 4 }) (on (runs 2 2) fun b =>
        { b with sub := .wait, busCnt := 3 })
     s.At (.getStatus 0) .xferStatus ∧ s.blk.byteToSend .xferStatus = some 0xFF ∧ s.blk.sub = .wait ∧
       s.port.txDone = false ∧ s.cfg.busTimeoutTicks ≠ 0 ∧ s.cfg.busTimeoutTicks ≤ s.blk.busCnt + 1) ∧
    (let s := withCfg (fun c => { c with busTimeoutTicks := 4 }) (on (runs 2 2) fun b =>
        { b with sub := .wait, busCnt := 2 })
     s.At (.getStatus 0) .xferStatus ∧ s.blk.sub = .wait ∧ s.port.txDone = false ∧
       ¬(s.cfg.busTimeoutTicks ≠ 0 ∧ s.cfg.busTimeoutTicks ≤ s.blk.busCnt + 1)) ∧
    (let s := on (runs 2 2) fun b => { b with sub := .wait, busCnt := 99 }
     s.At (.getStatus 0) .xferStatus ∧ s.blk.sub = .wait ∧ s.port.txDone = false ∧
       ¬(s.cfg.busTimeoutTicks ≠ 0 ∧ s.cfg.busTimeoutTicks ≤ s.blk.busCnt + 1)) := by
  decide +kernel

/-- V8f: GET_STATUS at its opcode, a limit of 4 ticks, the wire answering at the fourth `WAIT` tick, or
never. -/
def limited (wire : List (Bool × Byte)) : State :=
  withCfg (fun c => { c with busTimeoutTicks := 4 }) { runs 2 1 with wire := wire }

/-- `TransferLength`: `w = L = 4`; no answer up to the tick 4; and `w = 1` with no limit. -/
theorem witness_transferLength :
    (let s := limited [(false, 0), (false, 0), (false, 0), (true, 0x11)]
     s.Undisturbed ∧ s.At s.blk.running (.xferConst 0xD7) ∧
       s.blk.byteToSend (.xferConst 0xD7) = some 0xD7 ∧ s.blk.sub = .start ∧ s.AnswersAt 4 0x11 ∧
       (∀ j < 4, ∀ r, ¬ s.AnswersAt j r) ∧ 4 ≤ s.cfg.busTimeoutTicks) ∧
    (let s := limited []
     s.Undisturbed ∧ s.At s.blk.running (.xferConst 0xD7) ∧ s.blk.sub = .start ∧
       s.cfg.busTimeoutTicks ≠ 0 ∧ ∀ j ≤ s.cfg.busTimeoutTicks, ∀ r, ¬ s.AnswersAt j r) ∧
    (let s : State := { runs 2 1 with wire := [(true, 0x11)] }
     s.Undisturbed ∧ s.At s.blk.running (.xferConst 0xD7) ∧ s.blk.sub = .start ∧ s.AnswersAt 1 0x11 ∧
       (∀ j < 1, ∀ r, ¬ s.AnswersAt j r) ∧ s.cfg.busTimeoutTicks = 0) := by
  refine ⟨⟨⟨rfl, rfl, List.not_mem_nil⟩, by decide, rfl, rfl, ⟨by decide, rfl⟩, fun j hj r h => ?_, by decide⟩,
    ⟨⟨rfl, rfl, List.not_mem_nil⟩, by decide, rfl, by decide, fun j _ r h => nomatch h.2⟩,
    ⟨rfl, rfl, List.not_mem_nil⟩, by decide, rfl, ⟨by decide, rfl⟩,
    fun j hj r h => absurd h.1 (by omega), rfl⟩
  obtain ⟨h1, h2⟩ := h
  interval_cases j <;> cases h2

/-- `DiscardedAnswers`: an opcode and the third address byte, started and answered. -/
theorem witness_discarded :
    (runs 6 1).At (.readPage 0) (.xferConst 0x03) ∧ (runs 6 1).blk.sub = .start ∧
    (answered 0x55 (runs 6 1)).At (.readPage 0) (.xferConst 0x03) ∧
    (answered 0x55 (runs 6 1)).Answered 0x55 ∧
    (runs 6 4).At (.readPage 0) (.xferAddr .a2) ∧ (runs 6 4).blk.sub = .start ∧
    (answered 0x55 (runs 6 4)).At (.readPage 0) (.xferAddr .a2) ∧
    (answered 0x55 (runs 6 4)).Answered 0x55 := by decide

/-- `ByteLoops`: the payload's first and last byte; the last byte of five and of 512, and one before. -/
theorem witness_byteLoops :
    (answered 0 (runs 7 6)).Answered 0 ∧ (answered 0 (runs 7 6)).At (.writePage 0) .xferPayload ∧
    (answered 0 (runs 7 6)).blk.idx ≠ 511 ∧
    (let s := answered 0 (on (runs 7 6) fun b => { b with idx := 511 })
     s.Answered 0 ∧ s.At (.writePage 0) .xferPayload ∧ s.blk.idx = 511) ∧
    (let s := answered 0 (on (runs 3 2) fun b => { b with idx := 4 })
     s.Answered 0 ∧ s.At (.getId 0) (.xferCapture 5) ∧ s.blk.idx.toNat = 5 - 1) ∧
    (let s := answered 0 (on (runs 6 5) fun b => { b with idx := 511 })
     s.Answered 0 ∧ s.At (.readPage 0) (.xferCapture 512) ∧ s.blk.idx.toNat = 512 - 1) ∧
    (let s := answered 0 (on (runs 6 5) fun b => { b with idx := 510 })
     s.Answered 0 ∧ s.At (.readPage 0) (.xferCapture 512) ∧ s.blk.idx.toNat ≠ 512 - 1) := by decide

/-- `StatusRead`: a start, and both bytes. -/
theorem witness_statusRead :
    (runs 13 2).At (.getPagesize 0) .xferStatus ∧ (runs 13 2).blk.sub = .start ∧
    (answered 0xAC (runs 13 2)).At (.getPagesize 0) .xferStatus ∧
    (answered 0xAC (runs 13 2)).Answered 0xAC ∧ (answered 0xAC (runs 13 2)).blk.idx = 0 ∧
    (let s := answered 0x88 (on (runs 13 2) fun b => { b with idx := 1 })
     s.At (.getPagesize 0) .xferStatus ∧ s.Answered 0x88 ∧ s.blk.idx ≠ 0) := by decide

/-- `PollLoop`: the first byte; a second byte after a ready one at the limit; after a busy one at the limit,
and below it. -/
theorem witness_pollLoop :
    let s (x : Byte) (i : BitVec 10) (k : Nat) : State :=
      answered 0x03 (withCfg (fun c => { c with pollLimit := 3 })
        (on (runs 1 2) fun b => { b with idx := i, st0 := x, pollCnt := k }))
    ((s 0 0 0).At (.waitReady 0) .poll ∧ (s 0 0 0).Answered 0x03 ∧ (s 0 0 0).blk.idx = 0) ∧
    ((s 0xAD 1 2).At (.waitReady 0) .poll ∧ (s 0xAD 1 2).Answered 0x03 ∧ (s 0xAD 1 2).blk.idx ≠ 0 ∧
      (s 0xAD 1 2).blk.st0.getLsbD 7 = true) ∧
    ((s 0x2D 1 2).At (.waitReady 0) .poll ∧ (s 0x2D 1 2).Answered 0x03 ∧ (s 0x2D 1 2).blk.idx ≠ 0 ∧
      (s 0x2D 1 2).blk.st0.getLsbD 7 = false ∧ (s 0x2D 1 2).cfg.pollLimit ≠ 0 ∧
      (s 0x2D 1 2).cfg.pollLimit ≤ (s 0x2D 1 2).blk.pollCnt + 1) ∧
    ((s 0x2D 1 1).At (.waitReady 0) .poll ∧ (s 0x2D 1 1).Answered 0x03 ∧ (s 0x2D 1 1).blk.idx ≠ 0 ∧
      (s 0x2D 1 1).blk.st0.getLsbD 7 = false ∧
      ¬((s 0x2D 1 1).cfg.pollLimit ≠ 0 ∧ (s 0x2D 1 1).cfg.pollLimit ≤ (s 0x2D 1 1).blk.pollCnt + 1)) := by
  decide

/-- `OperationFinishes`: WRITE_PAGE at its last position, under the invariant. -/
theorem witness_finishes :
    (Instr.writePage 0, 13, (none : Option PState)) ∈ finishTable 0 ∧
    (within .active 7 13 true false true).blk.busy = true ∧
    (within .active 7 13 true false true).blk.pos = 13 ∧
    (within .active 7 13 true false true).At (.writePage 0) (.finish none) ∧
    (within .active 7 13 true false true).Inv ∧
    (within .active 7 13 true false true).blk.running = .writePage 0 :=
  ⟨by decide, rfl, rfl, by decide,
    within_inv rfl (by decide) (by decide) (p := .finish none) rfl ⟨rfl, rfl⟩, by decide⟩

/-- `DwellLasts`: the reset pulse of 100 ticks, its ticks 1 and 99; the wake pulse of one tick. -/
theorem witness_dwell :
    (runs 0 1).Undisturbed ∧ (runs 0 1).At (runs 0 1).blk.running (.dwell .rst) ∧
    (runs 0 1).blk.sub = .start ∧ 1 ≤ 99 ∧ 99 < Dwell.rst.ticks (runs 0 1).cfg ∧
    1 ≤ (runs 0 1).cfg.tClkNs ∧
    (runs 12 1).Undisturbed ∧ (runs 12 1).At (runs 12 1).blk.running (.dwell .cslu) ∧
    (runs 12 1).blk.sub = .start ∧ Dwell.cslu.ticks (runs 12 1).cfg = 1 := by
  unfold State.Undisturbed
  decide

/-- `CommandFrame`: a tick of a running command that gives no `done`, and one that does. -/
theorem witness_commandFrame :
    (Instr.readPage 0, (6 : OpCode), PState.active) ∈ guardTable 0 ∧ (runs 6 1).blk.busy = true ∧
    (∃ t, exec (.readPage 0) (runs 6 1) = .next t ∧ (t.blk.done, t.blk.txStart) = (false, true)) ∧
    ∃ t, exec (.readPage 0) (runs 6 7) = .next t ∧ (t.blk.done, t.blk.txStart) = (true, false) :=
  ⟨by decide, rfl, of_shows (by decide), of_shows (by decide)⟩

/-- `CommandFrame`, the counters: a tick of RESUME_UDPD; one of ENTER_DPD that aborts; one of GET_STATUS; a
rejection. -/
theorem witness_commandFrameCounters :
    ((Instr.resumeUdpd 0, (12 : OpCode), PState.udpd) ∈ guardTable 0 ∧ (runs 12 1).blk.busy = true ∧
      ∃ t, exec (.resumeUdpd 0) (runs 12 1) = .next t ∧ t.blk.pos = 2) ∧
    ((Instr.enterDpd 0, (9 : OpCode), PState.active) ∈ guardTable 0 ∧
      ∃ t, exec (.enterDpd 0) (withCfg (fun c => { c with busTimeoutTicks := 1 })
        (on (runs 9 1) fun b => { b with sub := .wait })) = .next t ∧ t.blk.done = true) ∧
    ((Instr.getStatus 0, (2 : OpCode), PState.active) ∈ guardTable 0 ∧
      ∃ t, exec (.getStatus 0) (answered 0xAC (runs 2 2)) = .next t ∧ t.blk.st0 = 0xAC) ∧
    (idleIn .dpd).blk.busy = false ∧ ∃ t, exec (.getStatus 0) (idleIn .dpd) = .next t ∧ t.blk.busy = false :=
  ⟨⟨by decide, rfl, of_shows (by decide)⟩, ⟨by decide, of_shows (by decide)⟩,
    ⟨by decide, of_shows (by decide)⟩, rfl, of_shows (by decide)⟩

/-! ### Whole operations -/

/-- A state that presents `(o, n)` in the power state `p`, the transport answering as the wire says. -/
def begins (p : PState) (o : OpCode) (n : PageNo) (wire : List (Bool × Byte)) : State :=
  { presents o n (idleIn p) with wire := wire }

theorem witness_enterSleep (o : OpCode) :
    let s := begins .active o 0 (wireFrom 3 [0x00])
    s.Undisturbed ∧ s.blk.pstate = .active ∧ s.AnswersAt 3 0x00 ∧ s.Presents o 0 :=
  ⟨⟨rfl, rfl, List.not_mem_nil⟩, rfl, ⟨by decide, rfl⟩, rfl, ⟨rfl, rfl, rfl, rfl, rfl⟩, rfl, rfl, rfl⟩

theorem witness_resumeDpd :
    let s := begins .dpd 10 0 (wireFrom 3 [0x00])
    s.Undisturbed ∧ s.Presents 10 0 ∧ s.blk.pstate = .dpd ∧ s.AnswersAt 3 0x00 ∧ 1 ≤ s.cfg.tClkNs :=
  ⟨⟨rfl, rfl, List.not_mem_nil⟩, ⟨rfl, ⟨rfl, rfl, rfl, rfl, rfl⟩, rfl, rfl, rfl⟩, rfl, ⟨by decide, rfl⟩,
    by decide⟩

theorem witness_resumeUdpd :
    let s := begins .udpd 12 0 []
    s.Undisturbed ∧ s.Presents 12 0 ∧ s.blk.pstate = .udpd ∧ 1 ≤ s.cfg.tClkNs ∧
      2 ≤ Dwell.cslu.ticks s.cfg + 2 :=
  ⟨⟨rfl, rfl, List.not_mem_nil⟩, ⟨rfl, ⟨rfl, rfl, rfl, rfl, rfl⟩, rfl, rfl, rfl⟩, rfl, by decide, by decide⟩

theorem witness_init :
    let s := begins .uninit 0 0 []
    s.Undisturbed ∧ s.Presents 0 0 ∧ s.blk.pstate = .uninit ∧ 1 ≤ s.cfg.tClkNs :=
  ⟨⟨rfl, rfl, List.not_mem_nil⟩, ⟨rfl, ⟨rfl, rfl, rfl, rfl, rfl⟩, rfl, rfl, rfl⟩, rfl, by decide⟩

/-- V4a and V7d. -/
theorem witness_statusReadRuns (o : OpCode) (h : o = 2 ∨ o = 13) :
    let s := begins .active o 0 (wireFrom 3 [0x11, 0xAC, 0x88])
    (o = 2 ∨ o = 13) ∧ s.Undisturbed ∧ s.Presents o 0 ∧ s.blk.pstate = .active ∧ s.AnswersAt 3 0x11 ∧
      s.AnswersAt 5 0xAC ∧ s.AnswersAt 7 0x88 :=
  ⟨h, ⟨rfl, rfl, List.not_mem_nil⟩, ⟨rfl, ⟨rfl, rfl, rfl, rfl, rfl⟩, rfl, rfl, rfl⟩, rfl, ⟨by decide, rfl⟩,
    ⟨by decide, rfl⟩, ⟨by decide, rfl⟩⟩

/-- V4c. -/
theorem witness_getIdRuns :
    let d (k : Nat) : Byte := [0x1F, 0x27, 0x01, 0x01, 0x00].getD k 0
    let s := begins .active 3 0 (wireFrom 3 [0x00, 0x1F, 0x27, 0x01, 0x01, 0x00])
    s.Undisturbed ∧ s.Presents 3 0 ∧ s.blk.pstate = .active ∧ s.AnswersAt 3 0x00 ∧
      ∀ k < 5, s.AnswersAt (5 + 2 * k) (d k) := by
  unfold State.Undisturbed State.Presents Block.IdleInv State.AnswersAt
  decide

/-- The status bytes of V7b: busy, busy, ready. -/
def busyTwice (k : Nat) : Byte := [0x2D, 0x2D, 0xAD].getD k 0
/-- The second bytes of V7b. -/
def second (k : Nat) : Byte := [0x00, 0x00, 0x08].getD k 0
/-- The pairs of V7b. -/
def pairs : List Byte := [0x2D, 0x00, 0x2D, 0x00, 0xAD, 0x08]

/-- The last of the three pairs is the first that shows READY, with no limit and with the limit 3. -/
theorem busyTwice_readyAtLast {c : Cfg} (h : c.pollLimit = 0 ∨ c.pollLimit = 3) :
    ReadyAtLast c 3 busyTwice := by
  refine ⟨by decide, by omega, fun j hj => ?_, rfl⟩
  obtain rfl | rfl : j = 0 ∨ j = 1 := by omega
  all_goals rfl

/-- V7b, with no limit, and with the limit 3, which it just meets. -/
theorem witness_waitReadyRuns :
    let s := begins .active 1 0 (wireFrom 3 (0x00 :: pairs))
    (s.Undisturbed ∧ s.Presents 1 0 ∧ s.blk.pstate = .active ∧ s.AnswersAt 3 0x00 ∧
      s.PollAnswers 5 3 busyTwice second) ∧ ReadyAtLast s.cfg 3 busyTwice ∧
      ReadyAtLast { s.cfg with pollLimit := 3 } 3 busyTwice := by
  refine ⟨?_, busyTwice_readyAtLast (.inl rfl), busyTwice_readyAtLast (.inr rfl)⟩
  unfold State.Undisturbed State.Presents Block.IdleInv State.PollAnswers State.AnswersAt
  decide

/-- V4e, with the pairs of V7b. -/
theorem witness_setPagesizeRuns :
    ∀ o ∈ ([4, 5] : List OpCode),
      let s := begins .active o 0 (wireFrom 3 [0, 0, 0, 0] ++ wireFrom 4 (0 :: pairs))
      s.Undisturbed ∧ s.blk.pstate = .active ∧ (∀ k < 4, s.AnswersAt (3 + 2 * k) 0) ∧ s.AnswersAt 13 0 ∧
        s.PollAnswers 15 3 busyTwice second ∧ s.Presents o 0 := by
  unfold State.Undisturbed State.Presents Block.IdleInv State.PollAnswers State.AnswersAt
  decide

/-- V4h, with the pairs of V7b. -/
theorem witness_eraseChipRuns :
    let s := begins .active 8 9000 (wireFrom 4 [0, 0, 0, 0] ++ wireFrom 4 (0 :: pairs))
    s.Undisturbed ∧ s.Presents 8 9000 ∧ s.blk.pstate = .active ∧ (∀ k < 4, s.AnswersAt (4 + 2 * k) 0) ∧
      s.AnswersAt 14 0 ∧ s.PollAnswers 16 3 busyTwice second := by
  unfold State.Undisturbed State.Presents Block.IdleInv State.PollAnswers State.AnswersAt
  decide

/-- A run of equal answers: the answer `k` of the `m`. -/
theorem answersAt_replicate {s : State} {pre rest : List (Bool × Byte)} {first m k t : Nat} {x : Byte}
    (hw : s.wire = pre ++ (wireFrom first (List.replicate m x) ++ rest)) (hf : 2 ≤ first) (hk : k < m)
    (ht : t = pre.length + first + 2 * k) : s.AnswersAt t x := by
  have run : ∀ m k, k < m → ((List.replicate m x).flatMap fun r => [(false, 0), (true, r)])[2 * k + 1]? =
      some (true, x) := by
    intro m
    induction m with
    | zero => exact fun k h => absurd h (Nat.not_lt_zero k)
    | succ m ih =>
      intro k h
      cases k with
      | zero => rfl
      | succ k => exact ih k (Nat.lt_of_succ_lt_succ h)
  refine ⟨by omega, ?_⟩
  rw [hw, List.getElem?_append_right (by omega), wireFrom, List.append_assoc,
    List.getElem?_append_right (by simp; omega), List.getElem?_append_left (by simp; omega)]
  rw [← run m k hk]
  congr 1
  simp
  omega

/-- V4f, of the last page, every data byte answered 0x5A. -/
theorem witness_readPageRuns :
    let s := begins .active 6 8191
      (wireFrom 3 (List.replicate 4 0) ++ (wireFrom 2 (List.replicate 512 0x5A) ++ [(false, 0)]))
    s.Undisturbed ∧ s.Presents 6 8191 ∧ s.blk.pstate = .active ∧ (8191 : PageNo).toNat < 8192 ∧
      (∀ k < 4, s.AnswersAt (3 + 2 * k) 0) ∧ ∀ k < 512, s.AnswersAt (11 + 2 * k) 0x5A :=
  ⟨⟨rfl, rfl, List.not_mem_nil⟩, ⟨rfl, ⟨rfl, rfl, rfl, rfl, rfl⟩, rfl, rfl, rfl⟩, rfl, by decide,
    fun _ h => answersAt_replicate (pre := []) (first := 3)
      (rest := wireFrom 2 (List.replicate 512 0x5A) ++ [(false, 0)]) rfl (by decide) h (by simp),
    fun _ h => answersAt_replicate (pre := wireFrom 3 (List.replicate 4 0)) rfl (by decide) h rfl⟩

/-- V4g, of the last page, with the pairs of V7b. -/
theorem witness_writePageRuns :
    let s := begins .active 7 8191
      (wireFrom 4 (List.replicate 4 0) ++ (wireFrom 2 (List.replicate 512 0) ++ wireFrom 4 (0 :: pairs)))
    s.Undisturbed ∧ s.Presents 7 8191 ∧ s.blk.pstate = .active ∧ (8191 : PageNo).toNat < 8192 ∧
      (∀ k < 4, s.AnswersAt (4 + 2 * k) 0) ∧ (∀ k < 512, s.AnswersAt (12 + 2 * k) 0) ∧
      s.AnswersAt 1038 0 ∧ s.PollAnswers 1040 3 busyTwice second := by
  refine ⟨⟨rfl, rfl, List.not_mem_nil⟩, ⟨rfl, ⟨rfl, rfl, rfl, rfl, rfl⟩, rfl, rfl, rfl⟩, rfl, by decide,
    fun _ h => answersAt_replicate (pre := []) (first := 4)
      (rest := wireFrom 2 (List.replicate 512 0) ++ wireFrom 4 (0 :: pairs)) rfl (by decide) h (by simp),
    fun _ h => answersAt_replicate (pre := wireFrom 4 (List.replicate 4 0)) rfl (by decide) h rfl, ?_⟩
  unfold State.PollAnswers State.AnswersAt
  decide +kernel

/-- `UnboundedWaitsHang`: V8i; and a device that stays busy for two pairs. -/
theorem witness_hangs :
    (let s := on (runs 2 2) fun b => { b with sub := .wait }
     s.Undisturbed ∧ s.At s.blk.running .xferStatus ∧ s.blk.byteToSend .xferStatus = some 0xFF ∧
       s.blk.sub = .wait ∧ s.port.txDone = false ∧ (∀ e ∈ s.wire, e.1 = false) ∧
       s.cfg.busTimeoutTicks = 0 ∧ s.blk.txStart = false ∧ s.blk.rdValid = false ∧ s.blk.done = false) ∧
    (let s : State := { runs 1 2 with wire := (wireFrom 3 [0x2D, 0x00, 0x2D, 0x00]).drop 2 }
     s.Undisturbed ∧ s.At s.blk.running .poll ∧ s.blk.sub = .start ∧ s.blk.idx = 0 ∧
       s.PollAnswers 1 2 busyTwice second ∧ s.cfg.pollLimit = 0 ∧ ∀ j < 2, readyBit (busyTwice j) = false) := by
  unfold State.Undisturbed State.PollAnswers State.AnswersAt
  decide +kernel

/-! ### The flash device -/

/-- A device that responds and is ready, the next busy length `k`: behind an idle controller; and behind one
that has just closed the program frame of WRITE_PAGE, write-protect released. -/
def protectedDevice (k : Nat) : State := atDevice (fun d => { d with busyPlan := [k] }) (idleIn .active)
def openDevice (k : Nat) : State :=
  atDevice (fun d => { d with busyPlan := [k] }) (within .active 7 8 true true true)

theorem protectedDevice_inv (k : Nat) : (protectedDevice k).Inv := ⟨(idleIn_inv .active).1, start_inv⟩
theorem openDevice_inv (k : Nat) : (openDevice k).Inv :=
  ⟨(within_inv (q := .active) (o := 7) (k := 8) (cs := true) (wp := true) (rst := true) rfl (by decide)
    (by decide) (p := .csAssert) rfl ⟨rfl, rfl⟩).1, start_inv⟩

/-- `DeviceSleepsAndWakes`: awake and ready; in deep power-down; in ultra-deep power-down with a pulse of
exactly `T_CSLU_NS`, which a frame of no byte ends, or bytes that are no frame. -/
theorem witness_sleeps :
    (protectedDevice 0).dev.lost = false ∧ (protectedDevice 0).dev.awake = true ∧
    (protectedDevice 0).dev.ready = true ∧
    (let s := atDevice (fun d => { d with dps := .dpd }) (idleIn .active)
     s.dev.lost = false ∧ s.dev.dps = .dpd) ∧
    (let s := atDevice (fun d => { d with
       dps := .udpd, tCsLow := 7, now := 27, atEnd := true, frame := [0xC7, 0x94, 0x80] }) (idleIn .active)
     s.dev.lost = false ∧ s.dev.dps = .udpd ∧ s.dev.tCsLow + s.cfg.tCsluNs ≤ s.dev.now ∧
       Instr.frameB6.isFrame = true ∧ s.deviceTurn = true) := by decide

/-- `ReadingFramesChangeNothing`: a ready device, and a busy one under each reading of log 27. -/
theorem witness_reading :
    ((idleIn .active).dev.lost = false ∧ (idleIn .active).dev.dps ≠ .udpd ∧
      (idleIn .active).dev.ready = true) ∧
    ∀ late, (let s := atDevice (fun d => { d with
         lateCommit := late, busyLeft := 1, pending := some (.setPs false) }) (idleIn .active)
       s.dev.lost = false ∧ s.dev.dps ≠ .udpd ∧ s.dev.awake = true ∧ s.dev.lateCommit = late ∧
         s.dev.pending = some (.setPs false)) := by decide

/-- `ProgramFrame`: under write-protect, to be committed at once, and after `k` polls. -/
theorem witness_program (k : Nat) :
    ((protectedDevice k).Inv ∧ (protectedDevice k).dev.lost = false ∧ (protectedDevice k).dev.awake = true ∧
      (protectedDevice k).dev.ready = true ∧ (protectedDevice k).dev.busyPlan = k :: [] ∧
      (protectedDevice k).blk.wpN = false) ∧
    ((openDevice k).Inv ∧ (openDevice k).dev.lost = false ∧ (openDevice k).dev.awake = true ∧
      (openDevice k).dev.ready = true ∧ (openDevice k).dev.busyPlan = k :: [] ∧
      (openDevice k).blk.wpN = true ∧ (openDevice k).dev.pszKnown = true ∧
      (openDevice k).dev.psz = (openDevice k).cfg.pagesizeBit512) :=
  ⟨⟨protectedDevice_inv k, rfl, rfl, rfl, rfl, rfl⟩, openDevice_inv k, rfl, rfl, rfl, rfl, rfl, rfl, rfl⟩

/-- `ProgramFrame`: a byte before the page and one after it. -/
theorem witness_programOutside :
    512 * (1 : BitVec 13).toNat - 1 < 512 * (1 : BitVec 13).toNat ∧
    512 * (1 : BitVec 13).toNat + 512 ≤ 1024 ∧ (0 : BitVec 13) ≠ 1 := by decide

/-- `MagicFrames`: with write-protect released and asserted. -/
theorem witness_magic (k : Nat) :
    ((openDevice k).dev.lost = false ∧ (openDevice k).dev.awake = true ∧ (openDevice k).dev.ready = true ∧
      (openDevice k).dev.busyPlan = k :: [] ∧ (openDevice k).blk.wpN = true) ∧
    ((protectedDevice k).dev.lost = false ∧ (protectedDevice k).dev.awake = true ∧
      (protectedDevice k).dev.ready = true ∧ (protectedDevice k).dev.busyPlan = k :: [] ∧
      (protectedDevice k).blk.wpN = false) :=
  ⟨⟨rfl, rfl, rfl, rfl, rfl⟩, rfl, rfl, rfl, rfl, rfl⟩

/-- `DeafDeviceIgnoresFrames`: asleep, and one nanosecond before it responds, a frame and bytes that are no
frame. -/
theorem witness_deaf :
    (let s := atDevice (fun d => { d with dps := .dpd, atEnd := true, frame := [0xC7, 0x94, 0x80] })
       (idleIn .active)
     s.dev.lost = false ∧ s.dev.dps = .dpd ∧ (Instr.frameB0 .dpd).isFrame = true ∧
       Instr.frameB0 .dpd ≠ .frameB0 .resumeDpd ∧ s.dev.awake = false ∧ s.deviceTurn = true ∧
       heardFrame s.cfg s.dev.frame = .error .notACatalogFrame) ∧
    (let s := atDevice (fun d => { d with now := 34999, deafUntil := 35000, atEnd := true }) (idleIn .active)
     s.dev.lost = false ∧ s.dev.dps = .active ∧ s.dev.now < s.dev.deafUntil ∧ s.dev.awake = false ∧
       s.deviceTurn = true) := by decide

/-- `UndescribedSituations`: a device that responds; a busy one, and a page read; one that has received three
bytes of a chip erase; a wake pulse of 19 ns; a lost device. -/
theorem witness_undescribed :
    ((idleIn .active).dev.lost = false ∧ (idleIn .active).dev.awake = true) ∧
    (let s := atDevice (fun d => { d with busyLeft := 1, pending := some .eraseAll }) (idleIn .active)
     s.dev.lost = false ∧ s.dev.awake = true ∧ s.dev.ready = false ∧ (Instr.frameB4 0 0).isFrame = true ∧
       Instr.frameB4 0 0 ≠ .frameB2 .status) ∧
    (let s := atDevice (fun d => { d with atEnd := true, frame := [0xC7, 0x94, 0x80] }) (idleIn .active)
     s.dev.lost = false ∧ s.dev.awake = true ∧ s.deviceTurn = true ∧
       heardFrame s.cfg s.dev.frame = .error .notACatalogFrame) ∧
    (let s := atDevice (fun d => { d with dps := .udpd, tCsLow := 7, now := 26, atEnd := true }) (idleIn .active)
     s.dev.lost = false ∧ s.dev.dps = .udpd ∧ s.dev.now < s.dev.tCsLow + s.cfg.tCsluNs ∧
       Instr.frameB6.isFrame = true ∧ s.deviceTurn = true) ∧
    (let s := atDevice (fun d => { d with lost := true, atEnd := true }) (idleIn .active)
     s.dev.lost = true ∧ s.deviceTurn = true) := by decide

/-- A device that is programming the last page. -/
def programming : RefDev := { RefDev.start with
  pending := some (.prog 0x1FFF (Payload.replicate 0x5A)), indet := ⟨false, [8191]⟩ }

theorem programming_inv : programming.Inv := by
  refine ⟨rfl, ⟨List.pairwise_singleton _ _, fun p hp => ?_⟩, fun h => (nomatch h), fun p data h => ?_,
    fun h => (nomatch h)⟩
  · rw [List.mem_singleton.1 hp]
    decide
  · injection h with h
    injection h with h1 h2
    subst h1
    rfl

/-- `ProgramFrame`, `Commits`: the 528-byte configuration, and one that is not known; a program frame about to
begin, and a program about to be committed. -/
theorem witness_528 (z k : Bool) (h : z = false ∨ k = false) :
    (let s := atDevice (fun d => { d with psz := z, pszKnown := k }) (openDevice 0)
     s.Inv ∧ s.dev.lost = false ∧ s.dev.awake = true ∧ s.dev.ready = true ∧ s.dev.busyPlan = 0 :: [] ∧
       s.blk.wpN = true ∧ (s.dev.pszKnown = false ∨ s.dev.psz ≠ s.cfg.pagesizeBit512)) ∧
    (let d : RefDev := { programming with psz := z, pszKnown := k }
     d.Inv ∧ d.pending = some (.prog 0x1FFF (Payload.replicate 0x5A)) ∧
       (d.pszKnown = false ∨ d.psz ≠ Cfg.default.pagesizeBit512)) := by
  have hz : k = false ∨ z ≠ true := by rcases h with h | h <;> simp [h]
  exact ⟨⟨⟨(openDevice_inv 0).1, start_inv⟩, rfl, rfl, rfl, rfl, rfl, hz⟩,
    RefDev.inv_congr programming_inv rfl rfl rfl rfl rfl, rfl, hz⟩

/-- `StatusAnswers`: the first and the second byte of a pair; busy and not busy. -/
theorem witness_statusAnswers :
    let d (k : Nat) (l : List Byte) : RefDev :=
      { RefDev.start with busyLeft := k, pending := some .eraseAll, frame := 0xD7 :: l }
    ((d 1 []).lost = false ∧ (d 1 []).awake = true ∧ (d 1 []).frame = Cfg.default.opcStatus :: [] ∧
      ([] : List Byte).length % 2 = 0 ∧ 0 < (d 1 []).busyLeft) ∧
    ((d 0 []).lost = false ∧ (d 0 []).awake = true ∧ (d 0 []).frame = Cfg.default.opcStatus :: [] ∧
      (d 0 []).busyLeft = 0) ∧
    ((d 0 [0xFF]).lost = false ∧ (d 0 [0xFF]).awake = true ∧
      (d 0 [0xFF]).frame = Cfg.default.opcStatus :: [0xFF] ∧ [(0xFF : Byte)].length % 2 = 1) := by decide

/-- `Commits`: each of the cycles, pending on a device that meets its invariant. -/
theorem witness_commits :
    (programming.Inv ∧ programming.pszKnown = true ∧ programming.psz = Cfg.default.pagesizeBit512) ∧
    RefDev.Inv { RefDev.start with pending := some .eraseAll, indet := PageSet.all } ∧
    RefDev.Inv { RefDev.start with pending := some (.setPs false) } ∧
    RefDev.Inv { RefDev.start with pending := some .abandoned } :=
  ⟨⟨programming_inv, rfl, rfl⟩,
    ⟨rfl, ⟨List.Pairwise.nil, fun _ h => (nomatch h)⟩, fun h => (nomatch h), fun _ _ h => (nomatch h),
      fun _ => rfl⟩,
    ⟨rfl, ⟨List.Pairwise.nil, fun _ h => (nomatch h)⟩, fun h => (nomatch h), fun _ _ h => (nomatch h),
      fun h => (nomatch h)⟩,
    rfl, ⟨List.Pairwise.nil, fun _ h => (nomatch h)⟩, fun h => (nomatch h), fun _ _ h => (nomatch h),
    fun h => (nomatch h)⟩

/-- `IdAnswers`: the fifth filler and the sixth, to a ready device and to a busy one. -/
theorem witness_idAnswers : ∀ k ∈ [0, 1], ∀ m ∈ [4, 5],
    let d : RefDev := { RefDev.start with frame := 0x9F :: List.replicate m 0xFF, busyLeft := k }
    d.lost = false ∧ d.awake = true ∧ d.ready = (k == 0) ∧
      d.frame = Cfg.default.opcId :: List.replicate m 0xFF ∧ Cfg.default.opcId ≠ Cfg.default.opcStatus ∧
      ((List.replicate m (0xFF : Byte)).length < 5 ↔ m = 4) := by decide

/-- Rule R78: a busy device answers an identification read from its record. -/
theorem test_busy_id :
    (RefDev.exchanges Cfg.default (fun _ => 0) [0x9F, 0xFF, 0xFF, 0xFF, 0xFF, 0xFF]
      { RefDev.start with busyLeft := 1, pending := some .eraseAll }).1.drop 1 =
      [0x1F, 0x27, 0x01, 0x01, 0x00] := by decide

/-- Rule R150, rule R129: the `FINISH` of INIT clears `err` (log 28). -/
theorem test_finish_clears_err :
    shows (step (on (runs 0 4) fun b => { b with csN := true, err := .wrongPowerState }))
      (fun t => (t.blk.err, t.blk.pstate)) = some (.ok, .active) := by decide

/-- `ReadAnswers`: the first filler and the last, of a page in the array; and an indeterminate page. -/
theorem witness_readAnswers :
    let d (u : PageSet) (m : Nat) : RefDev :=
      { RefDev.start with indet := u, frame := [0x03, 0x3F, 0xFE, 0xFF] ++ List.replicate m 0xFF }
    ∀ m ∈ [0, 511],
      ((d PageSet.none m).lost = false ∧ (d PageSet.none m).awake = true ∧
        (d PageSet.none m).frame = Cfg.default.opcReadLf :: 0x3F :: 0xFE :: 0xFF :: List.replicate m 0xFF ∧
        Cfg.default.opcReadLf ≠ Cfg.default.opcStatus ∧ Cfg.default.opcReadLf ≠ Cfg.default.opcId ∧
        (List.replicate m (0xFF : Byte)).length < 512 ∧ (d PageSet.none m).indet.mem 8191 = false ∧
        (d PageSet.none m).busyLeft = 0 ∧ (d PageSet.none m).pending = none ∧
        (d PageSet.none m).pszKnown = true ∧ (d PageSet.none m).psz = Cfg.default.pagesizeBit512) ∧
      (d ⟨false, [8191]⟩ m).indet.mem 8191 = true := by decide +kernel

/-- `ProgrammedPageReadsBack`: program B's busy length, and the poll of three pairs it takes. -/
theorem witness_readsBack :
    (openDevice 2).Inv ∧ (openDevice 2).cfg.CatalogDistinct ∧ (openDevice 2).dev.lost = false ∧
    (openDevice 2).dev.awake = true ∧ (openDevice 2).dev.ready = true ∧
    (openDevice 2).dev.busyPlan = 2 :: [] ∧ 2 < 3 ∧ (openDevice 2).blk.wpN = true ∧
    (openDevice 2).dev.pszKnown = true ∧ (openDevice 2).dev.psz = (openDevice 2).cfg.pagesizeBit512 :=
  ⟨openDevice_inv 2, by decide, rfl, rfl, rfl, rfl, by decide, rfl, rfl, rfl⟩

/-- `DeviceSeesLines`: chip-select falls and rises; a reset pulse begins, and one of exactly `T_RST_NS` on a
recovered device ends. -/
theorem witness_deviceSees :
    (let s := atDevice id (on (runs 2 0) fun b => { b with csN := true })
     s.link = .refDev ∧ s.deviceTurn = false ∧ s.inFlight = [] ∧ s.blk.csN = true ∧
       ∃ t, step s = .next t ∧ t.blk.csN = false) ∧
    (let s := atDevice id (runs 2 3)
     s.deviceTurn = false ∧ s.blk.csN = false ∧
       ∃ t, step s = .next t ∧ (t.blk.csN, t.dev.lost) = (true, false)) ∧
    (let s := atDevice id (on (runs 0 0) fun b => { b with csN := true })
     s.deviceTurn = false ∧ s.blk.rstN = true ∧ ∃ t, step s = .next t ∧ t.blk.rstN = false) ∧
    (let s := atDevice (fun d => { d with tRstLow := 100, deafUntil := 100, now := 10000 })
       (on (runs 0 2) fun b => { b with csN := true, rstN := false })
     s.deviceTurn = false ∧ s.blk.rstN = false ∧ s.dev.lost = false ∧
       s.dev.dps = .active ∧ s.dev.ready = true ∧ s.dev.deafUntil ≤ s.dev.tRstLow ∧
       ∃ t, step s = .next t ∧ (t.blk.rstN, t.blk.csN == s.blk.csN,
         s.dev.tRstLow + s.cfg.tRstNs == t.dev.now) = (true, true, true)) :=
  ⟨⟨rfl, rfl, rfl, rfl, of_shows (by decide)⟩, ⟨rfl, rfl, of_shows (by decide)⟩,
    ⟨rfl, rfl, of_shows (by decide)⟩, rfl, rfl, rfl, rfl, rfl, by decide, of_shows (by decide)⟩

/-- `DeviceSeesLines`: chip-select rises with a transfer in flight; reset pulses that are too short, that meet
a sleeping or a busy device, or one that had not recovered. -/
theorem witness_deviceLost :
    (let s : State := { atDevice id (runs 2 3) with inFlight := [⟨0xD7, 3⟩] }
     s.deviceTurn = false ∧ s.blk.csN = false ∧ s.inFlight ≠ [] ∧ ∃ t, step s = .next t ∧ t.blk.csN = true) ∧
    ∀ f ∈ [fun d : RefDev => { d with tRstLow := 101, now := 10000 },
        fun d => { d with now := 10000, dps := .udpd }, fun d => { d with now := 10000, busyLeft := 1 },
        fun d => { d with tRstLow := 100, now := 10000, deafUntil := 101 }],
      let s := atDevice f (on (runs 0 2) fun b => { b with csN := true, rstN := false })
      s.deviceTurn = false ∧ s.blk.rstN = false ∧
        ¬(s.dev.dps = .active ∧ s.dev.ready = true ∧ s.dev.deafUntil ≤ s.dev.tRstLow ∧
          s.dev.tRstLow + s.cfg.tRstNs ≤ s.dev.now + s.cfg.tClkNs) ∧
        shows (step s) (fun t => (t.blk.rstN, t.dev.now)) = some (true, s.dev.now + s.cfg.tClkNs) :=
  ⟨⟨rfl, rfl, by decide, of_shows (by decide)⟩, by decide⟩

/-- `TransportKeepsContract`: a tick that starts no transfer; one that starts a transfer answered at the
first `WAIT` tick; and one with a latency of 2. -/
theorem witness_transport :
    (let s := atDevice id (runs 2 3)
     s.link = .refDev ∧ s.deviceTurn = false ∧ s.inFlight = [] ∧
       ∃ t, step s = .next t ∧ t.blk.txStart = false) ∧
    (let s := atDevice id (runs 2 1)
     s.deviceTurn = false ∧ s.inFlight = [] ∧ s.latency.headD 0 = 0 ∧
       ∃ t, step s = .next t ∧ t.blk.txStart = true) ∧
    (let s : State := { atDevice id (runs 2 1) with latency := [2] }
     s.deviceTurn = false ∧ s.inFlight = [] ∧ s.latency.headD 0 = 1 + 1 ∧
       ∃ t, step s = .next t ∧ t.blk.txStart = true) :=
  ⟨⟨rfl, rfl, rfl, of_shows (by decide)⟩, ⟨rfl, rfl, rfl, of_shows (by decide)⟩,
    rfl, rfl, rfl, of_shows (by decide)⟩

/-- `TransportKeepsContract`: a transfer in flight with one wait left, and with none. -/
theorem witness_inFlight : ∀ w ∈ [0, 1],
    let s : State := { atDevice (fun d => { d with frame := [0xD7] })
      (on (runs 2 2) fun b => { b with sub := .wait }) with inFlight := [⟨0xFF, w⟩] }
    s.link = .refDev ∧ s.deviceTurn = false ∧
      shows (step s) (fun t => (t.port.txDone, t.inFlight)) =
        some (if w = 0 then (true, []) else (false, [⟨0xFF, 0⟩])) := by decide

end Sys2Proof.Tests
end

section
/-! The dwell counts of 00_scope.md rule R14, and that a step of the machine never stops: `TickCountIsLeast` and
`StepNeverStops`. -/

namespace Sys2Proof.Machine

/-! ### The tick count (rule R14) -/

/-- `N(T)` is a bound from below for exactly the counts that are positive and cover `T`: the least of them. -/
theorem ticksFor_le_iff {c : Cfg} (hclk : 1 ≤ c.tClkNs) (T m : Nat) :
    ticksFor c T ≤ m ↔ 1 ≤ m ∧ T ≤ m * c.tClkNs := by
  have hdiv : (T + c.tClkNs - 1) / c.tClkNs ≤ m ↔ T ≤ c.tClkNs * m := ceilDiv_le_iff_le_mul hclk
  rw [ticksFor, max_le_iff, hdiv, Nat.mul_comm]

/-- Settles O8: `ticksFor_le_iff` at the count itself says that it covers `T`, at any other count that it is the
least; the example of rule R14 is evaluated. -/
theorem tickCountIsLeast : Obligations.TickCountIsLeast := by
  refine ⟨fun c T hclk => ?_, by decide⟩
  obtain ⟨hpos, hcovers⟩ := (ticksFor_le_iff hclk T (ticksFor c T)).1 le_rfl
  exact ⟨rfl, hcovers, hpos, fun m hm hT => (ticksFor_le_iff hclk T m).2 ⟨hm, hT⟩⟩

/-! ### A step under the invariant -/

/-- A step writes neither the configuration (rule R44) nor what stands behind the transport port, in any
state. -/
theorem step_keeps_cfg_link {s t : State} (h : step s = .next t) : t.cfg = s.cfg ∧ t.link = s.link := by
  cases hd : s.deviceTurn with
  | true =>
    obtain ⟨resume, effect, hstep, -⟩ := step_device hd
    cases hstep.symm.trans h
    exact ⟨rfl, rfl⟩
  | false =>
    have ht := tick_settles hd h
    exact ⟨(congrArg State.cfg ht).trans (State.settle_cfg _ _),
      (congrArg State.link ht).trans (State.settle_link _ _)⟩

/-- The step of an idle controller answers a next state, whatever stands at the command port. -/
theorem step_idle_controller_next {s : State} (hd : s.deviceTurn = false) (hr : s.port.reset = false)
    (hb : s.blk.busy = false) : ∃ t, step s = .next t := by
  cases hv : s.port.cmdValid with
  | false => exact ⟨_, step_idle hd hr hb hv⟩
  | true =>
    cases hn : requiredState (commandOf s.port.cmdOp s.port.cmdPage) with
    | none => exact ⟨_, step_reserved hd hr hb hv hn⟩
    | some need => exact ⟨_, step_presented hd hr hb hv hn⟩

/-- Under the invariant every step answers a next state. Only a busy controller needs it: its `pos` names a
primitive of the operation in progress (rule R28). -/
theorem step_next_of_inv {s : State} (hinv : s.Inv) : ∃ t, step s = .next t := by
  cases hd : s.deviceTurn with
  | true =>
    obtain ⟨resume, effect, hstep, -⟩ := step_device hd
    exact ⟨_, hstep⟩
  | false =>
    cases hr : s.port.reset with
    | true => exact ⟨_, step_reset hd hr⟩
    | false =>
      cases hb : s.blk.busy with
      | false => exact step_idle_controller_next hd hr hb
      | true =>
        obtain ⟨⟨-, hbusy, -⟩, -⟩ := hinv
        obtain ⟨-, -, -, p, hp, -⟩ := hbusy hb
        exact ⟨_, step_busy hd hr hb hp⟩

/-- Settles O12: the invariant gives the next state, and no step writes the configuration or the link. -/
theorem stepNeverStops : Obligations.StepNeverStops := fun _ hinv =>
  let ⟨t, hstep⟩ := step_next_of_inv hinv
  ⟨t, hstep, step_keeps_cfg_link hstep⟩

end Sys2Proof.Machine
end

section
/-! Every step keeps the invariant, and what it gives at once: `StepKeepsInvariant`, `IdleRegisters`,
`ResetMeetsInvariant` and `ResetTick`. -/

namespace Sys2Proof.Machine

/-! ### The reset state (rule R43) -/

/-- The reset registers meet the invariant under every configuration. -/
theorem reset_inv (c : Cfg) : Block.reset.Inv c :=
  inv_of_idle rfl ⟨rfl, rfl, rfl, rfl, rfl⟩ ⟨Nat.pos_of_ne_zero, Nat.pos_of_ne_zero⟩

/-- The start device is erased, ready, and has no indeterminate page. -/
theorem RefDev.inv_start : RefDev.start.Inv :=
  ⟨Memory.wf_nil _, PageSet.wf_none, fun _ => rfl, by simp [start], by simp [start]⟩

/-- Settles O10: controller and device apart. -/
theorem resetMeetsInvariant : Obligations.ResetMeetsInvariant := ⟨reset_inv _, RefDev.inv_start⟩

@[simp] theorem State.resetTick_blk (s : State) : s.resetTick.blk = Block.reset := by
  simp [State.resetTick]

@[simp] theorem State.resetTick_cfg (s : State) : s.resetTick.cfg = s.cfg := by
  simp [State.resetTick]

@[simp] theorem State.idleTick_blk (s : State) : s.idleTick.blk = s.blk.pulsesFall := by
  simp [State.idleTick]

/-- Settles O9: a tick with `reset = 1` is `State.resetTick`, which replaces the registers by `Block.reset`. -/
theorem resetTick : Obligations.ResetTick := by
  refine ⟨rfl, fun s hd hr => ⟨s.resetTick, step_reset hd hr, ?_, s.resetTick_cfg⟩⟩
  rw [State.resetTick_blk]
  rfl

/-! ### The invariant, step by step -/

/-- The fall of the pulses keeps the invariant of an idle controller. -/
theorem pulsesFall_inv {c : Cfg} {b : Block} (hb : b.busy = false) (h : b.Inv c) : b.pulsesFall.Inv c := by
  obtain ⟨hidle, -, hlimit⟩ := h
  obtain ⟨hpos, hsub, hidx, hlines, -⟩ := hidle hb
  exact inv_of_idle hb ⟨hpos, hsub, hidx, hlines, rfl⟩ hlimit

/-- A clock tick keeps the controller's invariant, whichever of its four forms it takes (rule R121). -/
theorem tick_keeps_blk_inv {s t : State} (hd : s.deviceTurn = false) (hstep : step s = .next t)
    (h : s.blk.Inv s.cfg) : t.blk.Inv s.cfg := by
  rcases tick_cases hd hstep with
    ⟨-, rfl⟩ | ⟨-, hb, -, rfl⟩ | ⟨-, hb, -, b, rfl, hpresented⟩ | ⟨-, hb, p, hp, rfl⟩
  · rw [State.resetTick_blk]
    exact reset_inv _
  · rw [State.idleTick_blk]
    exact pulsesFall_inv hb h
  · rw [State.settle_blk]
    rcases hpresented with ⟨-, rfl⟩ | ⟨need, hneed, rfl⟩
    · exact reject_inv hb h
    · exact present_inv hb h hneed
  · rw [State.settle_blk]
    obtain ⟨-, hbusy, hlimit⟩ := h
    exact run_inv hb (hbusy hb) hlimit hp

/-- A clock tick keeps the device's invariant: only the agents around the controller touch the device. -/
theorem tick_keeps_dev_inv {s t : State} (hd : s.deviceTurn = false) (hstep : step s = .next t)
    (h : s.dev.Inv) : t.dev.Inv := by
  rw [tick_settles hd hstep]
  exact State.inv_settle_dev _ h

/-- A step keeps the invariant: a clock tick that of either side, the device's own move that of the device,
the controller standing still. -/
theorem step_keeps_inv {s t : State} (h : s.Inv) (hstep : step s = .next t) : t.Inv := by
  obtain ⟨hblk, hdev⟩ := h
  cases hd : s.deviceTurn with
  | true =>
    obtain ⟨resume, effect, hmove, heffect⟩ := step_device hd
    cases hmove.symm.trans hstep
    exact ⟨hblk, RefDev.inv_endFrame hdev heffect⟩
  | false =>
    refine ⟨?_, tick_keeps_dev_inv hd hstep hdev⟩
    rw [(step_keeps_cfg_link hstep).1]
    exact tick_keeps_blk_inv hd hstep hblk

/-- Settles O11: `step_keeps_inv`, by the controller's invariant and the device's apart. -/
theorem stepKeepsInvariant : Obligations.StepKeepsInvariant := fun _ _ => step_keeps_inv

/-- Settles O13: the invariant after the step holds the idle values of rule R45. -/
theorem idleRegisters : Obligations.IdleRegisters := by
  intro s t hinv hstep hb
  obtain ⟨⟨hidle, -⟩, -⟩ := step_keeps_inv hinv hstep
  obtain ⟨hpos, hsub, hidx, hlines, htx⟩ := hidle hb
  obtain ⟨hcs, hwp, hrst⟩ := Lines.mk.inj hlines
  exact ⟨hpos, hsub, hidx, hcs, hwp, hrst, htx⟩

end Sys2Proof.Machine
end

section
/-! What a clock tick does to the registers and to the agents: `BusyControllerIgnoresCommands`,
`PulsesMeanEvents`, `RegisterWriters` and `TransportKeepsContract`. -/

namespace Sys2Proof.Machine

/-! ### The command port of a busy controller (rule R42) -/

/-- A primitive looks at the transport port alone: nothing else at the ports reaches the registers. -/
theorem Block.run_congr_transport {c : Cfg} {inp inp' : Inputs} (hdone : inp'.txDone = inp.txDone)
    (hdata : inp'.rxData = inp.rxData) (p : Prim) (b : Block) : b.run c inp' p = b.run c inp p := by
  cases p <;> simp only [Block.run, Block.xfer, hdone, hdata]

/-- The clock tick of a busy controller without reset is one tick of the primitive at `pos`. -/
theorem tick_busy {s t : State} (hd : s.deviceTurn = false) (hr : s.port.reset = false)
    (hb : s.blk.busy = true) (hstep : step s = .next t) :
    ∃ p, (sequenceOf s.cfg s.blk.running)[s.blk.pos]? = some p ∧
      t = (s.setBlk (s.blk.pulsesFall.run s.cfg s.port p)).settle s.blk := by
  rcases tick_cases hd hstep with ⟨hr', -⟩ | ⟨-, hb', -⟩ | ⟨-, hb', -⟩ | ⟨-, -, htick⟩
  · exact absurd (hr.symm.trans hr') (by decide)
  · exact absurd (hb.symm.trans hb') (by decide)
  · exact absurd (hb.symm.trans hb') (by decide)
  · exact htick

/-- Whatever else stands at the ports, the agents do the same to the controller, the transport and the device,
and the host collects the same bytes. -/
theorem State.settle_congr_transport (b : Block) (s : State) {p : Inputs} (h : p.rxData = s.port.rxData) :
    let t := s.settle b
    let t' := State.settle b { s with port := p }
    t'.blk = t.blk ∧ t'.dev = t.dev ∧ t'.captured = t.captured ∧ t'.wire = t.wire ∧
      t'.inFlight = t.inFlight ∧ t'.latency = t.latency ∧ t'.freeUsed = t.freeUsed := by
  simp [State.settle, State.busMoves_port b s p h]

/-- A host that holds its command makes no other move. -/
theorem State.hostMoves_held {b : Block} {s : State} (h : s.heldCommand b = true) :
    s.hostMoves b = s.collect.nextReset := by
  simp [State.hostMoves, h]

/-- A command held at the port of a busy controller goes on standing there. -/
theorem State.settle_held {b : Block} {s : State} (hb : b.busy = true) (hv : s.port.cmdValid = true)
    (hh : s.holds = true) : (s.settle b).host = s.host ∧ (s.settle b).holds = true ∧
      (s.settle b).port.cmdValid = true ∧ (s.settle b).port.cmdOp = s.port.cmdOp ∧
      (s.settle b).port.cmdPage = s.port.cmdPage ∧ (s.settle b).port.cmdPayload = s.port.cmdPayload := by
  have hheld : (s.busMoves b).heldCommand b = true := by simp [State.heldCommand, hb, hv, hh]
  simp [State.settle, State.hostMoves_held hheld, State.nextReset_eq, hv, hh]

/-- The levels of `reset` come one a tick. -/
theorem State.settle_reset (b : Block) (s : State) :
    (s.settle b).port.reset = s.resets.headD false ∧ (s.settle b).resets = s.resets.tail := by
  simpa [State.settle] using (s.busMoves b).hostMoves_reset b

/-- Settles O16: the primitive and the agents look at the transport port alone. -/
theorem busyControllerIgnoresCommands : Obligations.BusyControllerIgnoresCommands := by
  intro s t p hd hb hr hpr hdone hdata hstep
  obtain ⟨q, hq, rfl⟩ := tick_busy hd hr hb hstep
  refine ⟨⟨_, step_busy (s := { s with port := p }) hd hpr hb hq, ?_⟩,
    fun hv hh => State.settle_held hb hv hh, State.settle_reset _ _⟩
  dsimp only
  rw [Block.run_congr_transport hdone hdata]
  exact State.settle_congr_transport s.blk (s.setBlk (s.blk.pulsesFall.run s.cfg s.port q)) hdata

/-! ### What the pulses mean (rule R34) -/

/-- A command presented to an idle controller is rejected or accepted (rule R120). -/
theorem Block.present_rejects_or_accepts (c : Cfg) (o : OpCode) (need : PState) (paged : Bool) (n : PageNo)
    (v : Payload) (b : Block) : (∃ e, b.present c o need paged n v = b.reject e) ∨
      b.present c o need paged n v = b.accept o n v := by
  rcases Block.present_cases c o need paged n v b with ⟨-, h⟩ | ⟨-, -, h⟩ | ⟨-, -, h⟩
  · exact .inl ⟨_, h⟩
  · exact .inl ⟨_, h⟩
  · exact .inr h

/-- The registers after a clock tick: at their reset values, with the pulses fallen, after a rejection, after an
acceptance, or after one tick of the current primitive. -/
theorem tick_blk_cases {s t : State} (hd : s.deviceTurn = false) (hstep : step s = .next t) :
    (s.port.reset = true ∧ t.blk = Block.reset) ∨
    (s.port.reset = false ∧ t.blk = s.blk.pulsesFall) ∨
    (s.port.reset = false ∧ s.blk.busy = false ∧ s.port.cmdValid = true ∧
      ∃ e, t.blk = s.blk.pulsesFall.reject e) ∨
    (s.port.reset = false ∧ s.blk.busy = false ∧ s.port.cmdValid = true ∧
      t.blk = s.blk.pulsesFall.accept s.port.cmdOp s.port.cmdPage s.port.cmdPayload) ∨
    (s.port.reset = false ∧ s.blk.busy = true ∧ ∃ p, s.currentPrim = some p ∧
      t.blk = s.blk.pulsesFall.run s.cfg s.port p) := by
  rcases tick_cases hd hstep with
    ⟨hr, rfl⟩ | ⟨hr, -, -, rfl⟩ | ⟨hr, hb, hv, b, rfl, hpresented⟩ | ⟨hr, hb, p, hp, rfl⟩
  · exact .inl ⟨hr, s.resetTick_blk⟩
  · exact .inr (.inl ⟨hr, s.idleTick_blk⟩)
  · rw [State.settle_blk, State.setBlk_blk]
    rcases hpresented with ⟨-, rfl⟩ | ⟨need, -, rfl⟩
    · exact .inr (.inr (.inl ⟨hr, hb, hv, _, rfl⟩))
    · rcases Block.present_rejects_or_accepts s.cfg s.port.cmdOp need
        (s.port.cmdOp == 6 || s.port.cmdOp == 7) s.port.cmdPage s.port.cmdPayload s.blk.pulsesFall with h | h
      · exact .inr (.inr (.inl ⟨hr, hb, hv, h⟩))
      · exact .inr (.inr (.inr (.inl ⟨hr, hb, hv, h⟩)))
  · refine .inr (.inr (.inr (.inr ⟨hr, hb, p, ?_, by rw [State.settle_blk, State.setBlk_blk]⟩)))
    rw [State.currentPrim, if_pos hb, hp]

/-- The byte to send does not depend on the pulses. -/
theorem Block.byteToSend_pulsesFall (b : Block) (p : Prim) : b.pulsesFall.byteToSend p = b.byteToSend p := by
  cases p <;> rfl

/-- Settles O18: a reset and an idle tick leave the pulses low, a rejection and an acceptance raise at most
`done`, and a primitive's pulses mean what `Block.run_pulses` says. -/
theorem pulsesMeanEvents : Obligations.PulsesMeanEvents := by
  intro s t hd hstep
  rcases tick_blk_cases hd hstep with
    ⟨-, h⟩ | ⟨-, h⟩ | ⟨hr, hb, hv, e, h⟩ | ⟨hr, hb, hv, h⟩ | ⟨hr, hb, p, hp, h⟩ <;> rw [h]
  · simp [Block.reset]
  · simp
  · simp [hr, hb, hv]
  · simp
  · obtain ⟨hdone, hstart, hvalid⟩ := Block.run_pulses s.cfg s.port p s.blk.pulsesFall rfl rfl rfl
    refine ⟨fun hx => ⟨hdone hx, hr, .inl hb⟩, fun hx => ?_, fun hx => ?_⟩
    · obtain ⟨hsub, hsend⟩ := hstart hx
      exact ⟨hsub, p, hp, (s.blk.byteToSend_pulsesFall p).symm.trans hsend⟩
    · obtain ⟨hsub, htx, hdata, hidx, m, rfl⟩ := hvalid hx
      exact ⟨hsub, htx, hdata, hidx, m, hp⟩

/-! ### Who writes the result registers and the latches (rules R21 to R23, R33, R35) -/

/-- Only a status read or a poll stands where the status latch changes, in one of the seven operations that
have one. -/
theorem State.op_of_currentPrim_status {s : State} {p : Prim} (h : s.currentPrim = some p)
    (hp : p = .xferStatus ∨ p = .poll) : s.blk.op ∈ ([1, 2, 4, 5, 7, 8, 13] : List OpCode) := by
  unfold State.currentPrim at h
  split at h
  · rw [Block.running_eq] at h
    obtain ⟨-, -, -, -, hstatus⟩ := seq_facts s.cfg s.blk.op s.blk.page s.blk.pos p h
    exact hstatus hp
  · cases h

/-- Settles O21: an idle tick writes none of them, a rejection `err` with `done`, an acceptance the latches, and
a primitive what `Block.run_keeps` leaves it. -/
theorem registerWriters : Obligations.RegisterWriters := by
  intro s t hd hnr hstep
  rcases tick_blk_cases hd hstep with
    ⟨hr, -⟩ | ⟨-, h⟩ | ⟨-, hb, hv, e, h⟩ | ⟨-, hb, hv, h⟩ | ⟨-, hb, p, hp, h⟩
  · exact absurd (hnr.symm.trans hr) (by decide)
  · simp [h]
  · simp [h]
  · simp [h, hb, hv]
  · rw [h]
    obtain ⟨hop, hpage, hpayload, herr, hstatus, -⟩ := Block.run_keeps s.cfg s.port p s.blk.pulsesFall
    refine ⟨fun hne => ?_, fun hne => ?_, fun hne => herr.resolve_left hne⟩
    · have hreads : p = .xferStatus ∨ p = .poll := by
        by_contra hother
        obtain ⟨h0, h1⟩ := hstatus (not_or.1 hother)
        exact hne.elim (absurd h0) (absurd h1)
      exact ⟨s.op_of_currentPrim_status hp hreads,
        hreads.imp (fun h' => hp.trans (congrArg some h')) (fun h' => hp.trans (congrArg some h'))⟩
    · exact absurd hne (by simp [hop, hpage, hpayload])

/-! ### The transport in front of the reference device (rule R41) -/

/-- A tick that starts a transfer moves no line: the device sees only the time pass. -/
theorem RefDev.seeTick_startTransfer (c : Cfg) (b : Block) (x : Byte) (inFlight : Bool) (d : RefDev) :
    d.seeTick c b (b.pulsesFall.startTransfer x) inFlight = { d with now := d.now + c.tClkNs } := by
  simp [RefDev.seeTick, RefDev.seeCs, RefDev.seeRst]

/-- Settles O60: whether a transfer is in flight, whether one starts, and whether the answer waits select the
law of `State.settle`. -/
theorem transportKeepsContract : Obligations.TransportKeepsContract := by
  intro s t hlink hd hstep
  have hstarts := tick_starts hd hstep
  have hsettle := tick_settles hd hstep
  generalize t.blk = b at hstarts hsettle
  subst hsettle
  have hlink' : (s.setBlk b).link = .refDev := hlink
  refine ⟨State.settle_refDev_latency _ hlink', fun hnone hquiet => ?_,
    fun hnone hstart => ⟨fun hw => ?_, fun w hw => ?_⟩, fun f rest hf => ?_⟩
  · obtain ⟨-, hflight, -, hdone⟩ :=
      State.settle_refDev_quiet (s := s.setBlk b) s.blk hlink' hnone hquiet
    exact ⟨hdone, hflight⟩
  · obtain ⟨hanswer, hflight, -, hdone⟩ :=
      State.settle_refDev_answer (s := s.setBlk b) s.blk hlink' hnone hstart hw
    obtain ⟨x, rfl⟩ := hstarts hstart
    refine ⟨hdone, hflight, hanswer.trans ?_⟩
    simp [RefDev.seeTick_startTransfer]
  · obtain ⟨-, hflight, -, hdone⟩ :=
      State.settle_refDev_wait (s := s.setBlk b) s.blk hlink' hnone hstart hw
    exact ⟨hdone, hflight⟩
  · exact State.settle_refDev_flight (s := s.setBlk b) s.blk hlink' hf

end Sys2Proof.Machine
end

section
/-! What no tick of a command changes: `CommandFrame`. -/

namespace Sys2Proof.Machine

/-! ### The rows of the guard table -/

/-- A row of the guard table is a command by its code, with its required state. -/
theorem guardTable_row {n : PageNo} {row : Instr × OpCode × PState} (h : row ∈ guardTable n) :
    row.1 = commandOf row.2.1 n ∧ requiredState row.1 = some row.2.2 := by
  simp only [guardTable, List.mem_cons, List.not_mem_nil, or_false] at h
  rcases h with rfl | rfl | rfl | rfl | rfl | rfl | rfl | rfl | rfl | rfl | rfl | rfl | rfl | rfl <;>
    exact ⟨rfl, rfl⟩

/-- No command is a frame. -/
theorem isFrame_commandOf (o : OpCode) (n : PageNo) : (commandOf o n).isFrame = false := by
  rcases opcode_cases o with h | h | h | h | h | h | h | h | h | h | h | h | h | h | h | h <;> subst h <;> rfl

/-- The primitive may stand in the sequence of the operation `o`: the operations whose rule names under
`Writes` what the primitive writes. -/
def Prim.UsedBy (o : OpCode) : Prim → Prop
  | .csAssert | .csRelease => o ≠ 0
  | .wpRelease | .wpAssert => o ∈ ([7, 8] : List OpCode)
  | .rstAssert | .rstRelease => o = 0
  | .dwell _ => o ∈ ([0, 10, 12] : List OpCode)
  | .xferConst _ => o ∉ ([0, 12] : List OpCode)
  | .xferAddr _ => o ∈ ([6, 7] : List OpCode)
  | .xferPayload => o = 7
  | .xferCapture _ => o ∈ ([3, 6] : List OpCode)
  | .xferStatus => o ∈ ([2, 13] : List OpCode)
  | .poll => o ∈ ([1, 4, 5, 7, 8] : List OpCode)
  | .finish none => True
  | .finish (some _) => o ∈ ([0, 9, 10, 11, 12] : List OpCode)

/-- Every primitive of a command's sequence is one that the command uses. -/
theorem usedBy_of_mem_sequence {c : Cfg} {o : OpCode} {n : PageNo} {p : Prim}
    (h : p ∈ sequenceOf c (commandOf o n)) : p.UsedBy o := by
  revert p
  rcases opcode_cases o with h | h | h | h | h | h | h | h | h | h | h | h | h | h | h | h <;> subst h <;>
    simp [commandOf, sequenceOf, seqInit, seqWaitReady, seqGetStatus, seqGetId, seqSetPagesize512,
      seqSetPagesize528, seqReadPage, seqWritePage, seqEraseChip, seqEnterDpd, seqResumeDpd, seqEnterUdpd,
      seqResumeUdpd, seqGetPagesize, waitReadyFrame, magicTransfers, addressTransfers, Prim.UsedBy]

/-- One tick of a legal command: a rejection, an acceptance, or a primitive that the command uses. -/
theorem exec_command_cases {o : OpCode} {n : PageNo} {need : PState} {s t : State}
    (hneed : requiredState (commandOf o n) = some need) (hexec : exec (commandOf o n) s = .next t) :
    (s.blk.busy = false ∧ ∃ e, t = s.setBlk (s.blk.pulsesFall.reject e)) ∨
    (s.blk.busy = false ∧ t = s.setBlk (s.blk.pulsesFall.accept o n s.port.cmdPayload)) ∨
    (s.blk.busy = true ∧ ∃ p, p.UsedBy o ∧ t = s.setBlk (s.blk.pulsesFall.run s.cfg s.port p)) := by
  cases hb : s.blk.busy with
  | false =>
    cases (exec_idle hb hneed).symm.trans hexec
    rcases Block.present_rejects_or_accepts s.cfg o need (o == 6 || o == 7) n s.port.cmdPayload
      s.blk.pulsesFall with ⟨e, h⟩ | h <;> rw [h]
    · exact .inl ⟨rfl, e, rfl⟩
    · exact .inr (.inl ⟨rfl, rfl⟩)
  | true =>
    cases hp : (sequenceOf s.cfg (commandOf o n))[s.blk.pos]? with
    | none =>
      cases (exec_off_end hb hp (isFrame_commandOf o n)).symm.trans hexec
    | some p =>
      cases (exec_busy hb hp).symm.trans hexec
      exact .inr (.inr ⟨rfl, p, usedBy_of_mem_sequence (List.mem_of_getElem? hp), rfl⟩)

/-! ### The registers that a primitive leaves alone -/

/-- Only a poll counts busy polls when it acts on the received byte. -/
theorem Prim.answer_pollCnt (c : Cfg) {p : Prim} (hp : p ≠ .poll) (r : Byte) (b : Block) :
    (p.answer c r b).pollCnt = b.pollCnt := by
  cases p with
  | xferPayload => rcases Block.afterPayload_cases r b with ⟨-, h⟩ | ⟨-, h⟩ <;> rw [Prim.answer, h]
  | xferCapture m => rcases Block.afterCapture_cases m r b with ⟨-, h⟩ | ⟨-, h⟩ <;> rw [Prim.answer, h]
  | xferStatus => rcases Block.afterStatus_cases r b with ⟨-, h⟩ | ⟨-, h⟩ <;> rw [Prim.answer, h]
  | poll => exact absurd rfl hp
  | _ => rfl

/-- A primitive that is no transfer leaves the registers of the transfer engine alone. -/
theorem Block.run_no_transfer (c : Cfg) (inp : Inputs) {p : Prim} (hp : p.isTransfer = false) (b : Block) :
    (b.run c inp p).txStart = b.txStart ∧ (b.run c inp p).busCnt = b.busCnt ∧
      (b.run c inp p).pollCnt = b.pollCnt ∧ (b.run c inp p).idx = b.idx := by
  cases p with
  | dwell d => rcases Block.dwell_cases c d b with ⟨-, h⟩ | ⟨-, h⟩ <;> simp [Block.run, h]
  | csAssert | csRelease | wpRelease | wpAssert | rstAssert | rstRelease | finish q =>
    exact ⟨rfl, rfl, rfl, rfl⟩
  | _ => cases hp

/-- Every transfer primitive sends a byte. -/
theorem Prim.send_of_isTransfer {p : Prim} (hp : p.isTransfer = true) (b : Block) :
    ∃ x, b.byteToSend p = some x := by
  cases p with
  | xferConst | xferAddr | xferPayload | xferCapture | xferStatus | poll => exact ⟨_, rfl⟩
  | _ => cases hp

/-- Only a poll counts busy polls. -/
theorem Block.run_pollCnt (c : Cfg) (inp : Inputs) {p : Prim} (hp : p ≠ .poll) (b : Block) :
    (b.run c inp p).pollCnt = b.pollCnt := by
  cases htransfer : p.isTransfer with
  | false =>
    obtain ⟨-, -, hpoll, -⟩ := Block.run_no_transfer c inp htransfer b
    exact hpoll
  | true =>
    obtain ⟨x, hx⟩ := Prim.send_of_isTransfer htransfer b
    rw [Block.run_transfer hx]
    rcases Block.xfer_cases c inp x (p.answer c) b with
      ⟨-, h⟩ | ⟨-, -, h⟩ | ⟨-, -, -, h⟩ | ⟨-, -, -, h⟩ <;> rw [h]
    · rfl
    · exact Prim.answer_pollCnt c hp _ _
    · rfl

/-- A transfer whose answer is discarded leaves the byte index alone, unless it is aborted. -/
theorem Block.run_xferConst_idx (c : Cfg) (inp : Inputs) (x : Byte) (b : Block) :
    (b.run c inp (.xferConst x)).idx = b.idx ∨
      (b.run c inp (.xferConst x)).done = true ∧ (b.run c inp (.xferConst x)).idx = 0 := by
  rcases Block.xfer_cases c inp x Block.afterDiscard b with
    ⟨-, h⟩ | ⟨-, -, h⟩ | ⟨-, -, -, h⟩ | ⟨-, -, -, h⟩ <;> rw [Block.run, h]
  · exact .inl rfl
  · exact .inl rfl
  · exact .inr ⟨rfl, rfl⟩
  · exact .inl rfl

/-- INIT and RESUME_UDPD transfer nothing. -/
theorem Prim.UsedBy.no_transfer {p : Prim} {o : OpCode} (h : p.UsedBy o) (ho : o ∈ ([0, 12] : List OpCode)) :
    p.isTransfer = false := by
  simp only [List.mem_cons, List.not_mem_nil, or_false] at ho
  cases p with
  | xferConst | xferAddr | xferPayload | xferCapture | xferStatus | poll =>
    rcases ho with rfl | rfl <;> exact absurd h (by simp [Prim.UsedBy])
  | _ => rfl

/-- The frames of ENTER_DPD, RESUME_DPD and ENTER_UDPD are one opcode: no primitive of theirs has a loop. -/
theorem Prim.UsedBy.no_loop {p : Prim} {o : OpCode} (h : p.UsedBy o) (ho : o ∈ ([9, 10, 11] : List OpCode)) :
    p.isTransfer = false ∨ ∃ x, p = .xferConst x := by
  simp only [List.mem_cons, List.not_mem_nil, or_false] at ho
  cases p with
  | xferConst x => exact .inr ⟨x, rfl⟩
  | xferAddr | xferPayload | xferCapture | xferStatus | poll =>
    rcases ho with rfl | rfl | rfl <;> exact absurd h (by simp [Prim.UsedBy])
  | _ => exact .inl rfl

/-- Settles O35: a rejection and an acceptance write fixed registers; a primitive writes what `Block.run_keeps`
and `Block.run_frame` say, and a primitive that writes a register is used only by the operations that name it. -/
theorem commandFrame : Obligations.CommandFrame := by
  intro s t n row hrow hexec
  obtain ⟨hcommand, hneed⟩ := guardTable_row hrow
  rw [hcommand] at hneed hexec
  generalize row.2.1 = o at hneed hexec
  rcases exec_command_cases hneed hexec with ⟨hb, e, rfl⟩ | ⟨hb, rfl⟩ | ⟨hb, p, hp, rfl⟩
  · simp [hb]
  · simp [hb]
  · obtain ⟨hop, hpage, hpayload, -, hstatus, hpstate⟩ := Block.run_keeps s.cfg s.port p s.blk.pulsesFall
    obtain ⟨hwp, hrst, htimer, htx, hrd, hdone, hcs0, hwp0⟩ :=
      Block.run_frame s.cfg s.port p s.blk.pulsesFall
    have hidle (h : p.isTransfer = false) := Block.run_no_transfer s.cfg s.port h s.blk.pulsesFall
    refine ⟨rfl, fun _ => rfl, fun _ => ⟨hop, hpage, hpayload⟩, hdone, fun ho => ?_, fun ho => ?_,
      fun ho => ?_, fun ho => ?_, htx, fun ho => ?_, fun ho _ => ?_, fun ho _ => ?_, fun h => ?_,
      fun ho => ?_, fun ho => ?_, fun ho => ?_⟩
    · refine hpstate.resolve_right ?_
      rintro ⟨q, rfl, -⟩
      exact ho hp
    · refine hstatus ⟨?_, ?_⟩ <;> rintro rfl <;> exact ho (by simp_all [Prim.UsedBy])
    · refine hrd ?_
      rintro m rfl
      exact ho hp
    · refine htimer ?_
      rintro d rfl
      exact ho hp
    · obtain ⟨hstart, hbus, -, hidx⟩ := hidle (hp.no_transfer ho)
      exact ⟨hstart, fun _ => ⟨hbus, hidx⟩⟩
    · rcases hp.no_loop ho with h | ⟨x, rfl⟩
      · obtain ⟨-, -, -, hidx⟩ := hidle h
        exact .inl hidx
      · exact Block.run_xferConst_idx s.cfg s.port x s.blk.pulsesFall
    · refine Block.run_pollCnt s.cfg s.port ?_ _
      rintro rfl
      exact ho hp
    · exact absurd (hb.symm.trans h) (by decide)
    · refine hwp ?_ ?_ <;> rintro rfl <;> exact ho hp
    · refine hrst ?_ ?_ <;> rintro rfl <;> exact ho hp
    · subst ho
      have h := hp.no_transfer (by decide)
      refine ⟨hcs0 h ?_ ?_, hwp0 h ?_ ?_⟩ <;> rintro rfl
      all_goals simp [Prim.UsedBy] at hp

end Sys2Proof.Machine
end

section
/-! What the end of a frame does to the device's power state, and the frames that change nothing or leave nothing
known: `DeviceSleepsAndWakes`, `ReadingFramesChangeNothing`, `DeafDeviceIgnoresFrames` and
`UndescribedSituations`. -/

namespace Sys2Proof.Machine

/-! ### The end of a frame, situation by situation (rules R76 and R83) -/

/-- A device that does not respond is deep asleep, ultra-deep asleep or still waking. -/
theorem RefDev.awake_eq_false_iff {d : RefDev} :
    d.awake = false ↔ d.dps ≠ .active ∨ d.now < d.deafUntil := by
  simp [awake, imp_iff_not_or]

section
variable {s : State} {resume : Bool} {effect : RefDev → RefDev}

/-- A device that responds takes the effect of the frame. -/
theorem State.endFrame_awake (hl : s.dev.lost = false) (ha : s.dev.awake = true) :
    s.endFrame resume effect = s.setDev (effect { s.dev with atEnd := false }) :=
  congrArg s.setDev (RefDev.endFrame_awake hl ha)

/-- A device in deep power-down takes no notice of a frame other than the resume frame. -/
theorem State.endFrame_dpd (h : s.dev.dps = .dpd) :
    s.endFrame false effect = s.setDev { s.dev with atEnd := false } :=
  congrArg s.setDev (RefDev.endFrame_dpd h)

/-- A device that still wakes takes no notice of a frame. -/
theorem State.endFrame_deaf (h : s.dev.dps = .active) (hd : s.dev.now < s.dev.deafUntil) :
    s.endFrame resume effect = s.setDev { s.dev with atEnd := false } :=
  congrArg s.setDev (RefDev.endFrame_deaf h hd)

/-- No frame but the resume frame changes a device that is deep asleep or still wakes. -/
theorem State.endFrame_notAwake (hu : s.dev.dps ≠ .udpd) (ha : s.dev.awake = false) :
    s.endFrame false effect = s.setDev { s.dev with atEnd := false } := by
  cases hdps : s.dev.dps with
  | udpd => exact absurd hdps hu
  | dpd => exact State.endFrame_dpd hdps
  | active =>
    rcases RefDev.awake_eq_false_iff.1 ha with h | h
    · exact absurd hdps h
    · exact State.endFrame_deaf hdps h

end

/-- What the end of a frame does whatever the frame is, it does at the end of every instruction that is a frame,
and at every step that is the device's turn. -/
theorem exec_step_of_endFrame {s t : State} (h : ∀ resume effect, s.endFrame resume effect = t) :
    (∀ i : Instr, i.isFrame = true → exec i s = .next t) ∧ (s.deviceTurn = true → step s = .next t) := by
  refine ⟨fun i hi => ?_, fun hturn => ?_⟩
  · obtain ⟨effect, hexec, -⟩ := exec_frame hi s
    rw [hexec, h]
  · obtain ⟨resume, effect, hstep, -⟩ := step_device hturn
    rw [hstep, h]

/-- A chip-select pulse that was long enough wakes a device in ultra-deep power-down, whatever bytes it held. -/
theorem exec_step_udpd {s : State} (hl : s.dev.lost = false) (h : s.dev.dps = .udpd)
    (ht : s.dev.tCsLow + s.cfg.tCsluNs ≤ s.dev.now) :
    let woken := s.setDev
      { s.dev with atEnd := false, dps := .active, deafUntil := s.dev.now + s.cfg.tXudpdNs }
    (∀ i : Instr, i.isFrame = true → exec i s = .next woken) ∧
      (s.deviceTurn = true → step s = .next woken) :=
  exec_step_of_endFrame fun _ _ => congrArg s.setDev (RefDev.endFrame_udpd hl h ht)

/-- After a shorter pulse nothing is known of it. -/
theorem exec_step_udpd_short {s : State} (hl : s.dev.lost = false) (h : s.dev.dps = .udpd)
    (ht : s.dev.now < s.dev.tCsLow + s.cfg.tCsluNs) :
    let gone := s.setDev { s.dev with atEnd := false, lost := true }
    (∀ i : Instr, i.isFrame = true → exec i s = .next gone) ∧
      (s.deviceTurn = true → step s = .next gone) :=
  exec_step_of_endFrame fun _ _ => congrArg s.setDev (RefDev.endFrame_udpd_short hl h ht)

/-- A device that still wakes, or of which nothing is known, stays as it is. -/
theorem exec_step_same {s : State}
    (h : s.dev.dps = .active ∧ s.dev.now < s.dev.deafUntil ∨ s.dev.lost = true) :
    let same := s.setDev { s.dev with atEnd := false }
    (∀ i : Instr, i.isFrame = true → exec i s = .next same) ∧
      (s.deviceTurn = true → step s = .next same) := by
  refine exec_step_of_endFrame fun _ _ => ?_
  rcases h with ⟨hdps, hdeaf⟩ | hlost
  · exact State.endFrame_deaf hdps hdeaf
  · exact congrArg s.setDev (RefDev.endFrame_lost hlost)

/-! ### Sleeping and waking -/

/-- Settles O48: in active and in deep power-down by the effect of the frame `B0`, in ultra-deep power-down by
`exec_step_udpd`, which holds for any frame. -/
theorem deviceSleepsAndWakes : Obligations.DeviceSleepsAndWakes := by
  intro s hl d
  have hsleep (k : SleepOpcode) (ha : s.dev.awake = true) :
      exec (.frameB0 k) s = .next (s.setDev (sleepEffect k d)) :=
    congrArg _ (State.endFrame_awake hl ha)
  refine ⟨fun ha hr => ?_, fun hdps => ?_, exec_step_udpd hl⟩
  · have hready : d.ready = true := hr
    rw [hsleep .dpd ha, hsleep .udpd ha, sleepEffect, sleepEffect, RefDev.unlessBusy_ready hready,
      RefDev.unlessBusy_ready hready]
    exact ⟨rfl, rfl⟩
  · have hwake : s.dev.endFrame s.cfg true (sleepEffect .resumeDpd) = d.wake s.cfg.tRdpdNs := by
      simp [RefDev.endFrame, hl, hdps, d]
    exact congrArg (Host.Outcome.next ∘ s.setDev) hwake

/-- Settles O52: a waking device ignores every frame, one in deep power-down every frame but the resume frame;
transfers by `RefDev.exchange_deaf`. -/
theorem deafDeviceIgnoresFrames : Obligations.DeafDeviceIgnoresFrames := by
  intro s i _ hi same
  refine ⟨fun hdps hne => ?_, fun hdps hdeaf => (exec_step_same (.inl ⟨hdps, hdeaf⟩)).1 i hi,
    fun e hdps hturn he => ?_, fun hdps hdeaf => (exec_step_same (.inl ⟨hdps, hdeaf⟩)).2,
    fun ha c x free => RefDev.exchange_deaf (.inr ha)⟩
  · obtain ⟨effect, hexec, -⟩ := exec_frame hi s
    rw [hexec, decide_eq_false hne, State.endFrame_dpd hdps]
  · rw [step_foreign hturn he, State.endForeignFrame, State.endFrame_dpd hdps]

/-! ### Reads -/

/-- Nothing is pending at a ready device. -/
theorem RefDev.pending_of_ready {d : RefDev} (h : d.ready = true) : d.pending = none := by
  simp only [ready, Bool.and_eq_true, beq_iff_eq] at h
  exact h.2

/-- The identification read, the status reads and the page read change nothing at a ready device. -/
theorem exec_reading_frame {i : Instr} (s : State)
    (h : (∃ r, i = .frameB2 r) ∨ (∃ q, i = .frameB3 q) ∨ (∃ a b, i = .frameB4 a b)) :
    ∃ effect, exec i s = .next (s.endFrame false effect) ∧
      ∀ d : RefDev, d.ready = true → effect d = d := by
  have habandon (d : RefDev) (hr : d.ready = true) : d.abandon = d :=
    RefDev.abandon_of_none (RefDev.pending_of_ready hr)
  rcases h with ⟨r, rfl⟩ | ⟨q, rfl⟩ | ⟨a, b, rfl⟩
  · refine ⟨readEffect r, rfl, ?_⟩
    cases r with
    | status => exact habandon
    | id => exact fun d hr => RefDev.unlessBusy_ready hr
  · exact ⟨RefDev.abandon, rfl, habandon⟩
  · exact ⟨RefDev.unlessBusy id, rfl, fun d hr => RefDev.unlessBusy_ready hr⟩

/-- At a device that responds a status read ends by abandoning the wait for a cycle that is still under way. -/
theorem exec_status_frame {s : State} {i : Instr} (hl : s.dev.lost = false) (ha : s.dev.awake = true)
    (h : i = .frameB2 .status ∨ ∃ q, i = .frameB3 q) :
    exec i s = .next (s.setDev (RefDev.abandon { s.dev with atEnd := false })) := by
  rcases h with rfl | ⟨q, rfl⟩ <;> exact congrArg _ (State.endFrame_awake hl ha)

/-- Settles O49: a ready device by `exec_reading_frame`, one that does not respond by `State.endFrame_notAwake`,
a busy one by what abandoning does under either reading of log 27. -/
theorem readingFramesChangeNothing : Obligations.ReadingFramesChangeNothing := by
  intro s i hl hu d
  refine ⟨fun hi hready => ?_, fun hi ha => ⟨fun hlate => ?_, fun q hlate hq => ?_⟩⟩
  · obtain ⟨effect, hexec, hkeeps⟩ := exec_reading_frame s hi
    rw [hexec]
    cases ha : s.dev.awake with
    | false => rw [State.endFrame_notAwake hu ha]
    | true => rw [State.endFrame_awake hl ha, hkeeps d (hready ha)]
  · have hsame : d.abandon = d := if_pos hlate
    rw [exec_status_frame hl ha hi, hsame]
  · have hnext : d.abandon =
        { d with pending := some .abandoned, pszKnown := s.dev.pszKnown && q.keepsPageSize } := by
      simp [RefDev.abandon, d, hlate, hq]
    rw [exec_status_frame hl ha hi, hnext]

/-! ### Where no rule describes the device -/

/-- Settles O53: the frames that lose a device that responds, the short wake pulse, and a device of which nothing
is known, which no frame and no transfer changes. -/
theorem undescribedSituations : Obligations.UndescribedSituations := by
  intro s gone
  refine ⟨fun hl ha => ?_, exec_step_udpd_short, fun hlost => ⟨(exec_step_same (.inr hlost)).1,
    (exec_step_same (.inr hlost)).2, fun c x free => RefDev.exchange_deaf (.inl hlost)⟩⟩
  have hlose (resume : Bool) : .next (s.endFrame resume RefDev.lose) = gone :=
    congrArg _ (State.endFrame_awake hl ha)
  refine ⟨hlose true, hlose false, fun hr i hi hstatus hpoll => ?_, fun e hturn he => ?_⟩
  · obtain ⟨effect, hexec, -, hbusy⟩ := exec_frame hi s
    have hgone : effect { s.dev with atEnd := false } = RefDev.lose { s.dev with atEnd := false } :=
      hbusy hstatus hpoll _ hr
    rw [hexec, State.endFrame_awake hl ha, hgone]
    rfl
  · rw [step_foreign hturn he]
    exact hlose false

end Sys2Proof.Machine
end

section
/-! The cycles of the device, how they begin and what they commit: `Commits`, `ProgramFrame` and `MagicFrames`. -/

namespace Sys2Proof.Machine

/-! ### What each cycle commits (rule R82) -/

namespace RefDev

section
variable {c : Cfg} {d : RefDev} {p : BitVec 13} {data : Payload}

theorem commit_prog (h : d.pending = some (.prog p data)) : d.commit c = d.commitProg c p data := by
  simp [commit, h]

theorem commit_eraseAll (h : d.pending = some .eraseAll) : d.commit c = d.commitErase := by
  simp [commit, h]

theorem commit_setPs {b : Bool} (h : d.pending = some (.setPs b)) : d.commit c = d.commitSetPs b := by
  simp [commit, h]

theorem commit_abandoned (h : d.pending = some .abandoned) : d.commit c = { d with pending := none } := by
  simp [commit, h]

/-- The page holds the data, byte by byte. -/
theorem commitProg_mem_same (hm : Memory.wf d.erasedByte d.mem = true) {i : Nat} (hi : i < 512) :
    Memory.get d.erasedByte (d.commitProg c p data).mem (512 * p.toNat + i) = data.bytes.getD i 0 :=
  Memory.get_writePage_same p data hi (Memory.rising_of_wf hm)

/-- No byte outside the page changes. -/
theorem commitProg_mem_other {x : Nat} (hx : x < 512 * p.toNat ∨ 512 * p.toNat + 512 ≤ x) :
    Memory.get d.erasedByte (d.commitProg c p data).mem x = Memory.get d.erasedByte d.mem x :=
  Memory.get_writePage_other p data hx d.mem

/-- In the known 512-byte configuration the page is indeterminate no more. -/
theorem commitProg_indet_known (hk : d.pszKnown = true) (hp : d.psz = c.pagesizeBit512) :
    (d.commitProg c p data).indet = d.indet.remove p := by
  simp [commitProg, hk, hp]

/-- In any other configuration the page stays indeterminate (rule R81; logs 23 and 27). -/
theorem commitProg_indet_unknown (h : d.pszKnown = false ∨ d.psz ≠ c.pagesizeBit512) :
    (d.commitProg c p data).indet = d.indet := by
  rcases h with h | h <;> simp [commitProg, h]

/-- No other page becomes or ceases to be indeterminate. -/
theorem commitProg_indet_other {p' : BitVec 13} (h : p' ≠ p) :
    (d.commitProg c p data).indet.mem p' = d.indet.mem p' := by
  unfold commitProg
  split
  · simp [PageSet.mem_remove, h]
  · rfl

end

end RefDev

/-- Settles O55: each cycle by what its commit writes. -/
theorem commits : Obligations.Commits := by
  rintro c d ⟨hmem, -, -, hindet, -⟩
  refine ⟨RefDev.commit_pending c d, fun p data h hk hp => ?_, fun p data h hu => ?_, fun h => ?_,
    fun b h => RefDev.commit_setPs h, fun h => RefDev.commit_abandoned h⟩
  · rw [RefDev.commit_prog h]
    refine ⟨fun i hi => RefDev.commitProg_mem_same hmem hi, fun x hx => RefDev.commitProg_mem_other hx, ?_,
      fun p' hne => RefDev.commitProg_indet_other hne⟩
    simp [RefDev.commitProg_indet_known hk hp, PageSet.mem_remove]
  · rw [RefDev.commit_prog h, RefDev.commitProg_indet_unknown hu]
    exact hindet p data h
  · rw [RefDev.commit_eraseAll h]
    exact ⟨fun x => rfl, fun p => rfl⟩

/-! ### The beginning of a cycle (rules R80 and R81) -/

namespace RefDev

/-- The device with a cycle pending for `k` polls. -/
def begun (q : Pending) (k : Nat) (rest : List Nat) (d : RefDev) : RefDev :=
  { d with pending := some q, busyLeft := k, busyPlan := rest }

/-- A cycle that begins is pending for as many polls as the next busy length says, or committed at once. -/
theorem begin_eq {c : Cfg} {q : Pending} {d : RefDev} {k : Nat} {rest : List Nat}
    (hplan : d.busyPlan = k :: rest) :
    d.begin c q = if k = 0 then (d.begun q 0 rest).commit c else d.begun q k rest := by
  by_cases hk : k = 0
  · subst hk
    exact begin_at_once hplan
  · rw [if_neg hk]
    exact begin_later hplan hk

/-- The device whose page is marked for programming and whose buffer holds the data. -/
def markProgram (a : BitVec 13) (data : Payload) (d : RefDev) : RefDev :=
  { d with indet := d.indet.insert a, buffer := some data }

end RefDev

/-! ### The program frame (rule R80) -/

section
variable {c : Cfg} {d : RefDev} {k : Nat} {rest : List Nat}

/-- The program frame at a ready device: nothing under write-protect, else the cycle begins, and is committed at
once where the busy length is 0. -/
theorem programEffect_ready {wpN : Bool} (a : BitVec 13) (data : Payload) (hr : d.ready = true)
    (hplan : d.busyPlan = k :: rest) :
    programEffect c wpN a data d =
      if wpN = false then d
      else if k = 0 then ((d.markProgram a data).begun (.prog a data) 0 rest).commitProg c a data
      else (d.markProgram a data).begun (.prog a data) k rest := by
  cases wpN with
  | false => exact RefDev.beginUnless_protected hr
  | true =>
    calc programEffect c true a data d
        = (d.markProgram a data).begin c (.prog a data) := RefDev.beginUnless_begins hr rfl
      _ = _ := RefDev.begin_eq hplan

/-- What the program frame leaves alone at a ready device, whatever line and busy length are: what is known, the
bytes outside the page and the other pages. -/
theorem programEffect_frame {wpN : Bool} (a : BitVec 13) (data : Payload) (hr : d.ready = true)
    (hplan : d.busyPlan = k :: rest) :
    let e := programEffect c wpN a data d
    e.lost = d.lost ∧
    (∀ x, x < 512 * a.toNat ∨ 512 * a.toNat + 512 ≤ x →
      Memory.get e.erasedByte e.mem x = Memory.get d.erasedByte d.mem x) ∧
    (∀ p, p ≠ a → e.indet.mem p = d.indet.mem p) := by
  have hmark (p : BitVec 13) (hne : p ≠ a) : (d.indet.insert a).mem p = d.indet.mem p := by
    simp [PageSet.mem_insert, hne]
  simp only [programEffect_ready a data hr hplan]
  split
  · exact ⟨rfl, fun _ _ => rfl, fun _ _ => rfl⟩
  · split
    · exact ⟨rfl, fun x => RefDev.commitProg_mem_other (d := (d.markProgram a data).begun _ 0 rest),
        fun p hne => (RefDev.commitProg_indet_other hne).trans (hmark p hne)⟩
    · exact ⟨rfl, fun _ _ => rfl, hmark⟩

/-- A program cycle with a busy length: the page is indeterminate, its programming pending, the array untouched. -/
theorem programEffect_later (a : BitVec 13) (data : Payload) (hr : d.ready = true)
    (hplan : d.busyPlan = k :: rest) (hk : k ≠ 0) :
    let e := programEffect c true a data d
    e.pending = some (.prog a data) ∧ e.busyLeft = k ∧ e.busyPlan = rest ∧ e.mem = d.mem ∧
      e.indet.mem a = true ∧ e.buffer = some data := by
  have he : programEffect c true a data d = (d.markProgram a data).begun (.prog a data) k rest :=
    (programEffect_ready a data hr hplan).trans (if_neg hk)
  rw [he]
  exact ⟨rfl, rfl, rfl, rfl, by simp [RefDev.begun, RefDev.markProgram, PageSet.mem_insert], rfl⟩

/-- A program cycle with the busy length 0 is over: the page holds the data where the configuration is the known
512-byte one, and is indeterminate in any other. -/
theorem programEffect_at_once (a : BitVec 13) (data : Payload) (hr : d.ready = true)
    (hplan : d.busyPlan = 0 :: rest) (hmem : Memory.wf d.erasedByte d.mem = true) :
    let e := programEffect c true a data d
    e.pending = none ∧ e.busyPlan = rest ∧
      (d.pszKnown = true → d.psz = c.pagesizeBit512 → e.indet.mem a = false ∧
        ∀ i < 512, Memory.get e.erasedByte e.mem (512 * a.toNat + i) = data.bytes.getD i 0) ∧
      (d.pszKnown = false ∨ d.psz ≠ c.pagesizeBit512 → e.indet.mem a = true) := by
  let begun := (d.markProgram a data).begun (.prog a data) 0 rest
  have he : programEffect c true a data d = begun.commitProg c a data := programEffect_ready a data hr hplan
  rw [he]
  refine ⟨rfl, rfl, fun hknown hpsz => ⟨?_, fun i => RefDev.commitProg_mem_same (d := begun) hmem⟩,
    fun hunknown => ?_⟩
  · rw [RefDev.commitProg_indet_known (d := begun) hknown hpsz]
    simp [PageSet.mem_remove]
  · rw [RefDev.commitProg_indet_unknown (d := begun) hunknown]
    simp [begun, RefDev.begun, RefDev.markProgram, PageSet.mem_insert]

end

/-- Settles O50: the effect of the frame on the device that responds, by line and busy length. -/
theorem programFrame : Obligations.ProgramFrame := by
  rintro s a b data k rest ⟨-, hmem, -⟩ hl ha hr hplan
  have hready : RefDev.ready { s.dev with atEnd := false } = true := hr
  have hplan' : RefDev.busyPlan { s.dev with atEnd := false } = k :: rest := hplan
  have hexec : exec (.frameB5 a b data) s =
      .next (s.setDev (programEffect s.cfg s.blk.wpN a data { s.dev with atEnd := false })) :=
    congrArg _ (State.endFrame_awake hl ha)
  obtain ⟨hlost, hbytes, hpages⟩ := programEffect_frame (c := s.cfg) (wpN := s.blk.wpN) a data hready hplan'
  refine ⟨_, hexec, rfl, hlost.trans hl, hbytes, hpages, fun hwp => ?_, fun hwp hk => ?_,
    fun hwp hk hknown hpsz => ?_, fun hwp hk hunknown => ?_⟩
  · exact (programEffect_ready a data hready hplan').trans (if_pos hwp)
  all_goals rw [hwp]
  · exact programEffect_later a data hready hplan' hk
  all_goals
    subst hk
    obtain ⟨hdone, hrest, hcommitted, hopen⟩ := programEffect_at_once (c := s.cfg) a data hready hplan' hmem
  · exact ⟨hdone, hrest, hcommitted hknown hpsz⟩
  · exact ⟨hdone, hrest, hopen hunknown⟩

/-! ### The magic frames (rule R81) -/

section
variable {c : Cfg} {d : RefDev} {k : Nat} {rest : List Nat}

/-- Chip erase at a ready device without write-protect. -/
theorem magicEffect_chipErase (hr : d.ready = true) (hplan : d.busyPlan = k :: rest) :
    magicEffect c true .chipErase d =
      if k = 0 then { d with mem := [], indet := PageSet.none, busyLeft := k, busyPlan := rest }
      else { d with indet := PageSet.all, pending := some .eraseAll, busyLeft := k, busyPlan := rest } := by
  have hbegins : magicEffect c true .chipErase d =
      if k = 0 then (RefDev.begun .eraseAll 0 rest { d with indet := PageSet.all }).commit c
      else RefDev.begun .eraseAll k rest { d with indet := PageSet.all } :=
    (RefDev.beginUnless_begins hr rfl).trans (RefDev.begin_eq hplan)
  rw [hbegins]
  split
  · rename_i hk
    rw [RefDev.commit_eraseAll rfl]
    simp [RefDev.commitErase, RefDev.begun, RefDev.pending_of_ready hr, hk]
  · rfl

/-- A page-size frame at a ready device, whatever the line is. -/
theorem beginUnless_setPs {wpN b : Bool} (hr : d.ready = true) (hplan : d.busyPlan = k :: rest) :
    d.beginUnless c false wpN (.setPs b) id =
      if k = 0 then { d with psz := b, pszKnown := true, busyLeft := k, busyPlan := rest }
      else { d with pending := some (.setPs b), busyLeft := k, busyPlan := rest } := by
  rw [RefDev.beginUnless_begins hr rfl, id, RefDev.begin_eq hplan]
  split
  · rename_i hk
    rw [RefDev.commit_setPs rfl]
    simp [RefDev.commitSetPs, RefDev.begun, RefDev.pending_of_ready hr, hk]
  · rfl

end

/-- Settles O51: the effect of each frame on the device that responds. -/
theorem magicFrames : Obligations.MagicFrames := by
  intro s k rest hl ha hr hplan d setPs
  have hexec (q : MagicName) : exec (.frameB1 q) s =
      .next (s.setDev (magicEffect s.cfg s.blk.wpN q { s.dev with atEnd := false })) :=
    congrArg _ (State.endFrame_awake hl ha)
  have hready : RefDev.ready { s.dev with atEnd := false } = true := hr
  have hplan' : RefDev.busyPlan { s.dev with atEnd := false } = k :: rest := hplan
  refine ⟨fun hwp => ?_, fun hwp => ?_, ?_, ?_⟩
  · rw [hexec, hwp, magicEffect_chipErase hready hplan']
  · rw [hexec, hwp, magicEffect, RefDev.beginUnless_protected hready]
  · rw [hexec, magicEffect, beginUnless_setPs hready hplan']
  · rw [hexec, magicEffect, beginUnless_setPs hready hplan']

end Sys2Proof.Machine
end

section
/-! What a device that responds answers while a frame is being sent: `StatusAnswers`, `IdAnswers` and
`ReadAnswers`. -/

namespace Sys2Proof.Machine

/-! ### The status read (rule R77) -/

section
variable {c : Cfg} {d : RefDev} {x free : Byte} {l : List Byte}

/-- The transfer that asks a busy device for status byte 0. -/
theorem RefDev.exchange_status_busy (hl : d.lost = false) (ha : d.awake = true)
    (hf : d.frame = c.opcStatus :: l) (he : l.length % 2 = 0) (hb : 0 < d.busyLeft) :
    d.exchange c false x free = (statusByte0 false d.u0 (d.pszBit free),
      { d with busyLeft := d.busyLeft - 1, frame := d.frame ++ [x] }) := by
  rw [exchange_awake hl ha, answerAwake_status hf, if_pos he, answerStatus0_busy hb]

/-- The transfer that asks for status byte 0 when no busy poll is left. -/
theorem RefDev.exchange_status_ready (hl : d.lost = false) (ha : d.awake = true)
    (hf : d.frame = c.opcStatus :: l) (he : l.length % 2 = 0) (hb : d.busyLeft = 0) :
    d.exchange c false x free = (statusByte0 true d.u0 ((d.commit c).pszBit free),
      { d.commit c with frame := d.frame ++ [x] }) := by
  rw [exchange_awake hl ha, answerAwake_status hf, if_pos he, answerStatus0_ready hb]
  simp only [(commit_keeps c d).1]

/-- The transfer that asks for status byte 1. -/
theorem RefDev.exchange_status_filler (hl : d.lost = false) (ha : d.awake = true)
    (hf : d.frame = c.opcStatus :: l) (ho : l.length % 2 = 1) :
    d.exchange c false x free = (d.u1, { d with frame := d.frame ++ [x] }) := by
  rw [exchange_awake hl ha, answerAwake_status hf, if_neg (by omega)]

end

/-- Settles O54: the three transfers of a status read, and the bits of byte 0. -/
theorem statusAnswers : Obligations.StatusAnswers := by
  intro c d x free l hl ha hf r d'
  have hbusy (he : l.length % 2 = 0) (hb : 0 < d.busyLeft) :=
    RefDev.exchange_status_busy (x := x) (free := free) hl ha hf he hb
  have hready (he : l.length % 2 = 0) (hb : d.busyLeft = 0) :=
    RefDev.exchange_status_ready (x := x) (free := free) hl ha hf he hb
  have hbyte (he : l.length % 2 = 0) :
      ∃ ready, r = statusByte0 ready d.u0 (d'.pszBit free) := by
    rcases Nat.eq_zero_or_pos d.busyLeft with hb | hb
    · exact ⟨true, by simp only [r, d', hready he hb]; rfl⟩
    · exact ⟨false, by simp only [r, d', hbusy he hb]; rfl⟩
  have hbits (ready : Bool) := statusByte0_bits ready (d'.pszBit free) d.u0
  refine ⟨fun he hb => ?_, fun he hb => ?_, fun he => ?_, fun he => ?_, fun ho => ?_⟩
  · simp only [r, d', hbusy he hb, and_true]
    exact (statusByte0_bits _ _ _).1
  · simp only [r, d', hready he hb, and_true]
    exact (statusByte0_bits _ _ _).1
  · obtain ⟨ready, hr⟩ := hbyte he
    obtain ⟨-, hzero, -⟩ := hbits ready
    rw [hr, hzero, RefDev.pszBit]
  · obtain ⟨ready, hr⟩ := hbyte he
    obtain ⟨-, -, hmiddle⟩ := hbits ready
    rwa [hr]
  · simp only [r, d', RefDev.exchange_status_filler hl ha hf ho, and_self]

/-! ### The identification read (rule R78) -/

/-- After the fifth byte of the record any value is answered. -/
theorem RefDev.answerAwake_id_past {c : Cfg} {free : Byte} {d : RefDev} {l : List Byte}
    (hf : d.frame = c.opcId :: l) (hne : c.opcId ≠ c.opcStatus) (hl : 5 ≤ l.length) :
    d.answerAwake c free = (free, d) := by
  have h : ¬ l.length + 1 ≤ 5 := by omega
  simp [answerAwake, hf, hne, idBytes, h]

/-- Settles O56: within the record and past it. -/
theorem idAnswers : Obligations.IdAnswers := by
  intro c d x free l hl ha hf hne
  rw [RefDev.exchange_awake hl ha]
  split
  · rename_i hlen
    rw [RefDev.answerAwake_id hf hne hlen]
    rfl
  · rename_i hlen
    rw [RefDev.answerAwake_id_past hf hne (by omega)]

/-! ### The page read (rule R79) -/

/-- What makes a page readable (rules R79 and R81; log 27). -/
theorem RefDev.readable_iff {c : Cfg} {p : BitVec 13} {d : RefDev} :
    d.readable c p = true ↔ d.indet.mem p = false ∧ d.busyLeft = 0 ∧ d.pending = none ∧
      d.pszKnown = true ∧ d.psz = c.pagesizeBit512 := by
  simp [readable, ready, and_assoc]

/-- Settles O57: the transfer is answered from the array where the page is readable, with any value where it is
not, and is recorded. -/
theorem readAnswers : Obligations.ReadAnswers := by
  intro c d x free a0 a1 a2 l hl ha hf hstatus hid hlen p
  have hk : (a0 :: a1 :: a2 :: l).length + 1 = 4 + l.length := by
    simp only [List.length_cons]
    omega
  have hexchange : d.exchange c false x free =
      (d.answerRead c (4 + l.length) free, { d with frame := d.frame ++ [x] }) := by
    rw [RefDev.exchange_awake hl ha, RefDev.answerAwake_read hf hstatus hid, hk]
  rw [hexchange]
  refine ⟨rfl, fun hindet hbusy hpending hknown hpsz => ?_, fun h => ?_⟩
  · exact RefDev.answerRead_data hf hlen (RefDev.readable_iff.2 ⟨hindet, hbusy, hpending, hknown, hpsz⟩)
  · refine RefDev.answerRead_free hf (.inr (.inr (Bool.eq_false_iff.2 fun hread => ?_)))
    obtain ⟨hindet, hbusy, hpending, hknown, hpsz⟩ := RefDev.readable_iff.1 hread
    rcases h with h | h | h | h | h
    · exact absurd (h.symm.trans hindet) (by decide)
    · omega
    · exact h hpending
    · exact absurd (h.symm.trans hknown) (by decide)
    · exact h hpsz

end Sys2Proof.Machine
end

section
/-! What the reference device sees of a clock tick: `DeviceSeesLines`. -/

namespace Sys2Proof.Machine

/-- After a clock tick the device has seen the lines, and at most one transfer has been delivered to it since. -/
theorem State.settle_refDev_dev {s : State} (b : Block) (h : s.link = .refDev) :
    let seen := s.dev.seeTick s.cfg b s.blk (!s.inFlight.isEmpty)
    (s.settle b).dev = seen ∨ ∃ x free, (s.settle b).dev = (seen.exchange s.cfg s.blk.csN x free).2 := by
  intro seen
  have hbus : (s.settle b).dev = (s.setDev seen).launch.deliver.dev := by
    simp only [State.settle, State.hostMoves_dev, State.busMoves, h, seen]
  have hdeliver := (s.setDev seen).launch.deliver_dev
  rw [State.launch_dev, State.launch_cfg, State.launch_blk] at hdeliver
  rw [hbus]
  exact hdeliver

section
variable {s t : State}

/-- A delivered transfer changes neither the device's times nor its power state, nor what is known of it: they
are as the lines left them. -/
theorem tick_refDev_seen (hlink : s.link = .refDev) (hd : s.deviceTurn = false) (hstep : step s = .next t) :
    let seen := s.dev.seeTick s.cfg s.blk t.blk (!s.inFlight.isEmpty)
    t.dev.now = seen.now ∧ t.dev.dps = seen.dps ∧ t.dev.deafUntil = seen.deafUntil ∧ t.dev.lost = seen.lost ∧
      t.dev.tCsLow = seen.tCsLow ∧ t.dev.tRstLow = seen.tRstLow ∧ t.dev.atEnd = seen.atEnd := by
  intro seen
  have ht : t.dev = ((s.setBlk t.blk).settle s.blk).dev := congrArg State.dev (tick_settles hd hstep)
  rcases State.settle_refDev_dev (s := s.setBlk t.blk) s.blk hlink with h | ⟨x, free, h⟩ <;> rw [ht, h]
  · exact ⟨rfl, rfl, rfl, rfl, rfl, rfl, rfl⟩
  · exact RefDev.exchange_keeps s.cfg t.blk.csN x free seen

/-- A tick that leaves chip-select high leaves the device its frame and its array. -/
theorem tick_csHigh (hd : s.deviceTurn = false) (hstep : step s = .next t) (hcs : t.blk.csN = true) :
    t.dev.frame = s.dev.frame ∧ t.dev.mem = s.dev.mem := by
  rw [tick_settles hd hstep]
  exact State.settle_csHigh (s := s.setBlk t.blk) s.blk hcs

/-- Where the tick starts no transfer and none is in flight, the device sees the lines and nothing else. -/
theorem tick_refDev_quiet (hlink : s.link = .refDev) (hd : s.deviceTurn = false) (hstep : step s = .next t)
    (hflight : s.inFlight = []) (htx : t.blk.txStart = false) :
    t.dev = s.dev.seeTick s.cfg s.blk t.blk false := by
  obtain ⟨hdev, -⟩ := State.settle_refDev_quiet (s := s.setBlk t.blk) s.blk hlink hflight htx
  exact (congrArg State.dev (tick_settles hd hstep)).trans hdev

/-- A tick that moves chip-select starts no transfer. -/
theorem tick_moves_cs_no_start (hd : s.deviceTurn = false) (hstep : step s = .next t)
    (hcs : s.blk.csN ≠ t.blk.csN) : t.blk.txStart = false := by
  refine Bool.eq_false_iff.2 fun htx => hcs ?_
  obtain ⟨x, hx⟩ := tick_starts hd hstep htx
  rw [hx]
  rfl

end

/-- Whether a reset pulse is one that is described. -/
theorem RefDev.resetDescribed_iff {c : Cfg} {d : RefDev} : d.resetDescribed c = true ↔
    d.dps = .active ∧ d.ready = true ∧ d.deafUntil ≤ d.tRstLow ∧ d.tRstLow + c.tRstNs ≤ d.now := by
  simp [resetDescribed, and_assoc]

/-- Settles O59: what the device sees of the lines is `RefDev.seeTick_spec`; the transfer that may be delivered at
the same tick changes nothing of that, and not the frame where chip-select has moved. -/
theorem deviceSeesLines : Obligations.DeviceSeesLines := by
  intro s t hlink hd hstep described
  obtain ⟨hnow, hdps, hdeaf, hlost, htcs, htrst, hend⟩ := tick_refDev_seen hlink hd hstep
  obtain ⟨htime, hcsFall, hcsRise, hrstFall, hrstRise⟩ :=
    RefDev.seeTick_spec s.cfg s.blk t.blk (!s.inFlight.isEmpty) s.dev
  have hdescribed : described ↔
      RefDev.resetDescribed s.cfg { s.dev with now := s.dev.now + s.cfg.tClkNs } = true := by
    rw [RefDev.resetDescribed_iff, ← htime, ← hnow]
    rfl
  refine ⟨hnow.trans htime, fun h1 h0 => ⟨?_, fun hflight => ?_⟩, fun h0 h1 => ?_, fun h1 h0 => ?_,
    fun h0 h1 hl hcs hdesc => ?_, fun h0 h1 hdesc => ?_, fun hcs _ => tick_csHigh hd hstep hcs⟩
  · rw [htcs, hnow, htime, (hcsFall h1 h0).1]
  · have htx := tick_moves_cs_no_start hd hstep (by simp [h0, h1])
    obtain ⟨-, hfall, -⟩ := RefDev.seeTick_spec s.cfg s.blk t.blk false s.dev
    rw [tick_refDev_quiet hlink hd hstep hflight htx]
    exact (hfall h1 h0).2
  · obtain ⟨hatEnd, -, hinFlight⟩ := hcsRise h0 h1
    obtain ⟨hframe, -⟩ := tick_csHigh hd hstep h1
    exact ⟨hend.trans hatEnd, hframe, fun hne => hlost.trans (hinFlight (by simpa using hne))⟩
  · rw [htrst, hnow, htime, hrstFall h1 h0]
  · obtain ⟨hactive, hknown, huntil⟩ := (hrstRise h0 h1).1 hl hcs (hdescribed.1 hdesc)
    exact ⟨hdps.trans hactive, by rw [hdeaf, huntil, hnow, htime], hlost.trans hknown⟩
  · exact hlost.trans ((hrstRise h0 h1).2 (Bool.eq_false_iff.2 (mt hdescribed.2 hdesc)))

end Sys2Proof.Machine
end

section
/-! The two encodings read back: `DecodeOfEncode`, `EncodeOfDecodedFrame` and `EveryCommandWordDecodes`. -/

namespace Sys2Proof

/-! ### Command words (rules R90 to R93) -/

/-- The decoder reads a command word by its code and its page field. -/
theorem decodeCommand_commandWord (o : OpCode) (n : PageNo) :
    decodeCommand (commandWord o n) = commandOf o n := by
  rw [decodeCommand, commandWord_op, commandWord_page]

/-- What is no frame is a command of one of the sixteen codes. -/
theorem exists_commandOf {i : Instr} (h : i.isFrame = false) : ∃ o n, i = commandOf o n := by
  cases i with
  | init n => exact ⟨0, n, rfl⟩
  | waitReady n => exact ⟨1, n, rfl⟩
  | getStatus n => exact ⟨2, n, rfl⟩
  | getId n => exact ⟨3, n, rfl⟩
  | setPagesize512 n => exact ⟨4, n, rfl⟩
  | setPagesize528 n => exact ⟨5, n, rfl⟩
  | readPage n => exact ⟨6, n, rfl⟩
  | writePage n => exact ⟨7, n, rfl⟩
  | eraseChip n => exact ⟨8, n, rfl⟩
  | enterDpd n => exact ⟨9, n, rfl⟩
  | resumeDpd n => exact ⟨10, n, rfl⟩
  | enterUdpd n => exact ⟨11, n, rfl⟩
  | resumeUdpd n => exact ⟨12, n, rfl⟩
  | getPagesize n => exact ⟨13, n, rfl⟩
  | reserved14 n => exact ⟨14, n, rfl⟩
  | reserved15 n => exact ⟨15, n, rfl⟩
  | _ => cases h

/-- Every command is well-formed, whatever its page field (rule R91). -/
theorem wellFormed_commandOf (o : OpCode) (n : PageNo) : (commandOf o n).WellFormed := by
  rcases Machine.opcode_cases o with rfl | rfl | rfl | rfl | rfl | rfl | rfl | rfl | rfl | rfl | rfl | rfl |
    rfl | rfl | rfl | rfl <;> rfl

/-- Settles O2: a word is the command of its two fields, and the encoder gives the word back. -/
theorem everyCommandWordDecodes : Obligations.EveryCommandWordDecodes := by
  intro c w
  refine ⟨decodeCommand w, rfl, rfl, wellFormed_commandOf _ _, fun w' => ?_⟩
  rw [decodeCommand, encode_commandOf, commandWord_split, Code.command.injEq, eq_comm]

/-! ### What a frame decodes to is encoded as its bytes (rules R94 to R96) -/

/-- A status poll is encoded as its pairs, the poll of one pair included. -/
theorem encode_pollFrame (c : Cfg) (k : Nat) :
    encode c (pollFrame k) = .frame (c.opcStatus :: fillers (2 * k)) := by
  unfold pollFrame
  split
  next hk => rw [hk]; rfl
  next => rfl

/-- The buffer made of a list holds that list. -/
theorem bytes_of_ofList {l : List Byte} {p : Payload} (h : Payload.ofList l = some p) : p.bytes = l := by
  unfold Payload.ofList at h
  split at h <;> cases h
  rfl

theorem encode_of_decodeSleep {c : Cfg} {o : Byte} {i : Instr} (h : decodeSleep c o = .ok i) :
    encode c i = .frame [o] := by
  unfold decodeSleep at h
  split_ifs at h with ho ho ho <;> cases h <;> rw [ho] <;> rfl

theorem encode_of_decodeMagic {c : Cfg} {m : Magic} {i : Instr} (h : decodeMagic c m = .ok i) :
    encode c i = .frame m.bytes := by
  unfold decodeMagic at h
  split_ifs at h with hm hm hm <;> cases h <;> rw [hm] <;> rfl

theorem encode_of_decodeAddressed {c : Cfg} {o a0 a1 a2 : Byte} {tail : List Byte} {i : Instr}
    (h : decodeAddressed c o a0 a1 a2 tail = .ok i) : encode c i = .frame (o :: a0 :: a1 :: a2 :: tail) := by
  unfold decodeAddressed at h
  split_ifs at h with hclear hread hprog
  all_goals have hheader := headerBytes_pageBits o a0 a1 a2 (by simpa using hclear)
  · obtain ⟨ho, htail⟩ := hread
    cases h
    rw [encode, ← ho, hheader, htail]
    rfl
  · split at h <;> cases h
    next p hp =>
    rw [encode, ← hprog, hheader, bytes_of_ofList hp]
    rfl

theorem encode_of_decodeLong {c : Cfg} {o : Byte} {rest : List Byte} {i : Instr}
    (h : decodeLong c o rest = .ok i) : encode c i = .frame (o :: rest) := by
  unfold decodeLong at h
  split_ifs at h with hpoll hid
  · obtain ⟨ho, hfill, heven, -⟩ := hpoll
    cases h
    rw [encode_pollFrame, Nat.mul_div_cancel' (Nat.dvd_of_mod_eq_zero heven), ← hfill, ho]
  · obtain ⟨ho, hrest⟩ := hid
    cases h
    rw [ho, hrest]
    rfl
  · split at h
    next => exact encode_of_decodeAddressed h
    next => cases h

/-- Settles O4, format by format of the decoder. -/
theorem encodeOfDecodedFrame : Obligations.EncodeOfDecodedFrame := by
  intro c bytes i h
  unfold decodeFrame at h
  split at h
  next => cases h; rfl
  next => exact encode_of_decodeSleep h
  next => exact encode_of_decodeMagic h
  next => exact encode_of_decodeLong h

/-! ### An encoded frame decodes to itself -/

theorem decodeSleep_byte {c : Cfg} (hc : c.CatalogDistinct) (k : SleepOpcode) :
    decodeSleep c (k.byte c) = .ok (.frameB0 k) := by
  obtain ⟨hop, -⟩ := hc
  simp only [List.nodup_cons, List.mem_cons, not_or] at hop
  cases k <;> simp [decodeSleep, SleepOpcode.byte, hop, Ne.symm]

theorem decodeMagic_sequence {c : Cfg} (hc : c.CatalogDistinct) (q : MagicName) :
    decodeMagic c (q.sequence c) = .ok (.frameB1 q) := by
  obtain ⟨-, hseq⟩ := hc
  simp only [List.nodup_cons, List.mem_cons, not_or] at hseq
  cases q <;> simp [decodeMagic, MagicName.sequence, hseq, Ne.symm]

/-- A status poll is as long as no sleep frame and no magic frame: its length is odd, and more than 1 where
`1 ≤ q`. -/
theorem decodeFrame_poll (c : Cfg) {q : Nat} (hq : 1 ≤ q) :
    decodeFrame c (c.opcStatus :: fillers (2 * q)) = .ok (pollFrame q) := by
  have hlength : (fillers (2 * q)).length = 2 * q := List.length_replicate
  have hne : fillers (2 * q) ≠ [] := List.ne_nil_of_length_pos (by omega)
  rw [decodeFrame_long c (by omega) (by omega)]
  unfold decodeLong
  rw [if_pos ⟨rfl, by rw [hlength], by omega, hne⟩, hlength, Nat.mul_div_cancel_left q two_pos]

theorem decodeFrame_id {c : Cfg} (hid : c.opcId ≠ c.opcStatus) :
    decodeFrame c (c.opcId :: fillers idBytes) = .ok (.frameB2 .id) := by
  rw [decodeFrame_long c (by decide) (by decide)]
  unfold decodeLong
  rw [if_neg fun h => hid h.1, if_pos ⟨rfl, rfl⟩]

/-- The bytes of an addressed frame are taken apart as its opcode, its address and its data. -/
theorem decodeFrame_addressed {c : Cfg} {o : Byte} (hstatus : o ≠ c.opcStatus) (hid : o ≠ c.opcId)
    (a : BitVec 13) (b : Byte) {tail : List Byte} (htail : tail ≠ []) :
    ∃ a0 a1, addressBitsClear a0 a1 = true ∧ pageBits a0 a1 = a ∧
      decodeFrame c (headerBytes (headerWord o a b) ++ tail) = decodeAddressed c o a0 a1 b tail := by
  obtain ⟨a0, a1, hheader, hclear, hpage⟩ := headerBytes_spec o a b
  refine ⟨a0, a1, hclear, hpage, ?_⟩
  rw [hheader]
  show decodeFrame c (o :: a0 :: a1 :: b :: tail) = _
  rw [decodeFrame_long c (by simp) (by simpa using htail)]
  simp [decodeLong, hstatus, hid]

/-- `B4` is told from `B5` by its opcode and its fillers. -/
theorem decodeFrame_read {c : Cfg} (hstatus : c.opcReadLf ≠ c.opcStatus) (hid : c.opcReadLf ≠ c.opcId)
    (a : BitVec 13) (b : Byte) :
    decodeFrame c (headerBytes (headerWord c.opcReadLf a b) ++ fillers pageBytes) = .ok (.frameB4 a b) := by
  have hne : fillers pageBytes ≠ [] := by decide
  obtain ⟨a0, a1, hclear, rfl, h⟩ := decodeFrame_addressed hstatus hid a b hne
  simp [h, decodeAddressed, hclear]

/-- A buffer is the buffer made of the list that it holds. -/
theorem ofList_bytes (p : Payload) : Payload.ofList p.bytes = some p := by
  simp [Payload.ofList, p.size]

/-- `B5` carries every buffer, that of 512 fillers too: its opcode is not that of `B4`. -/
theorem decodeFrame_program {c : Cfg} (hstatus : c.opcProg ≠ c.opcStatus) (hid : c.opcProg ≠ c.opcId)
    (hread : c.opcProg ≠ c.opcReadLf) (a : BitVec 13) (b : Byte) (data : Payload) :
    decodeFrame c (headerBytes (headerWord c.opcProg a b) ++ data.bytes) = .ok (.frameB5 a b data) := by
  have hne : data.bytes ≠ [] := List.ne_nil_of_length_pos (by rw [data.size]; decide)
  obtain ⟨a0, a1, hclear, rfl, h⟩ := decodeFrame_addressed hstatus hid a b hne
  simp [h, decodeAddressed, hclear, hread, ofList_bytes]

/-- The poll of one pair apart, every instruction is its own canonical form. -/
theorem canonical_of_ne {i : Instr} (h : i ≠ .frameB3 1) : i.canonical = i := if_neg h

/-- The canonical form of a poll is what the decoder gives for its pairs. -/
theorem canonical_frameB3 (q : Nat) : (Instr.frameB3 q).canonical = pollFrame q := by
  simp [Instr.canonical, pollFrame]

/-- A frame is read back from its bytes, format by format. -/
theorem decode_encode_frame {c : Cfg} {i : Instr} (hc : c.CatalogDistinct) (hi : i.WellFormed)
    (hf : i.isFrame = true) : decode c (encode c i) = .ok i.canonical := by
  have hop := hc.1
  simp only [List.nodup_cons, List.mem_cons, not_or] at hop
  obtain ⟨⟨hid, hread, hprog, -⟩, ⟨hidread, hidprog, -⟩, ⟨hreadprog, -⟩, -⟩ := hop
  cases i with
  | frameB0 k => exact decodeSleep_byte hc k
  | frameB1 q => exact decodeMagic_sequence hc q
  | frameB2 r =>
    cases r with
    | id => exact decodeFrame_id (Ne.symm hid)
    | status => exact decodeFrame_poll c le_rfl
  | frameB3 q => exact canonical_frameB3 q ▸ decodeFrame_poll c (of_decide_eq_true hi)
  | frameB4 a b => exact decodeFrame_read (Ne.symm hread) (Ne.symm hidread) a b
  | frameB5 a b data =>
    exact decodeFrame_program (Ne.symm hprog) (Ne.symm hidprog) (Ne.symm hreadprog) a b data
  | frameB6 => rfl
  | _ => cases hf

/-- Settles O3: a frame is `decode_encode_frame`; a command word is read by its two fields, and no command is a
poll, so that its canonical form is itself. -/
theorem decodeOfEncode : Obligations.DecodeOfEncode := by
  intro c i hc hi
  cases hf : i.isFrame with
  | true => exact decode_encode_frame hc hi hf
  | false =>
    obtain ⟨o, n, rfl⟩ := exists_commandOf hf
    have hcanonical := canonical_of_ne (i := commandOf o n) fun h => by rw [h] at hf; cases hf
    rw [hcanonical, encode_commandOf, decode, decodeCommand_commandWord]

end Sys2Proof
end

section
/-! The page-address packer, the frames that the operations send, and where an instruction is placed:
`PackedAddressBits`, `PackedAddressAliases`, `OperationsSendCatalogFrames` and `PlacedInstructionIsFetched`. -/

namespace Sys2Proof.Machine

/-! ### The packed address (rules R100 to R102) -/

/-- The layout of the packed address: two zeros, `n[12:0]`, a zero, `n[7:0]` (rule R101). -/
theorem packAddr_append (n : PageNo) :
    packAddr n .a0 ++ packAddr n .a1 ++ packAddr n .a2 =
      0#2 ++ (n.extractLsb' 0 13 ++ (0#1 ++ n.extractLsb' 0 8)) := by
  have hpage : n.extractLsb' 7 6 ++ n.extractLsb' 0 7 = n.extractLsb' 0 13 :=
    BitVec.extractLsb'_append_extractLsb'_eq_extractLsb' rfl
  rw [← hpage]
  simp only [packAddr, address0_eq, address1_eq, address2_eq, BitVec.append_assoc, BitVec.cast_eq]
  exact congrArg (0#2 ++ ·) BitVec.append_assoc.symm

section
variable (a : BitVec 13) (b : Byte)

theorem extractLsb'_packed_top : (0#2 ++ (a ++ (0#1 ++ b))).extractLsb' 22 2 = 0 :=
  BitVec.extractLsb'_append_eq_left

/-- A slice of the page number is where the layout has it, from bit 9 on. -/
theorem extractLsb'_packed_page {start len : Nat} (h : start + len ≤ 13) :
    (0#2 ++ (a ++ (0#1 ++ b))).extractLsb' (9 + start) len = a.extractLsb' start len := by
  rw [BitVec.extractLsb'_append_eq_of_add_le (by omega), BitVec.extractLsb'_append_eq_of_le (by omega),
    Nat.add_sub_cancel_left]

theorem extractLsb'_packed_gap : (0#2 ++ (a ++ (0#1 ++ b))).extractLsb' 8 1 = 0 := by
  rw [BitVec.extractLsb'_append_eq_of_add_le (by decide), BitVec.extractLsb'_append_eq_of_add_le (by decide)]
  exact BitVec.extractLsb'_append_eq_left

theorem extractLsb'_packed_low : (0#2 ++ (a ++ (0#1 ++ b))).extractLsb' 0 8 = b := by
  rw [BitVec.extractLsb'_append_eq_of_add_le (by decide), BitVec.extractLsb'_append_eq_of_add_le (by decide)]
  exact BitVec.extractLsb'_append_eq_right

end

/-- Settles O5: every row of the table is a slice of the layout `packAddr_append`. -/
theorem packedAddressBits : Obligations.PackedAddressBits := by
  intro n A
  have hA : A = 0#2 ++ (n.extractLsb' 0 13 ++ (0#1 ++ n.extractLsb' 0 8)) := packAddr_append n
  rw [hA]
  have hpage {start len : Nat} (h : start + len ≤ 13) :=
    (extractLsb'_packed_page (n.extractLsb' 0 13) (n.extractLsb' 0 8) h).trans
      (BitVec.extractLsb'_extractLsb'_of_le h)
  exact ⟨extractLsb'_packed_top _ _, hpage (start := 7) (by decide), hpage (start := 0) (by decide),
    extractLsb'_packed_gap _ _, extractLsb'_packed_low _ _, hpage (start := 0) (by decide)⟩

/-- A slice of the low 13 bits of a page number does not see the three high bits. -/
theorem extractLsb'_mod_nPages (n : PageNo) {start len : Nat} (h : start + len ≤ 13) :
    (BitVec.ofNat 16 (n.toNat % 8192)).extractLsb' start len = n.extractLsb' start len := by
  refine BitVec.eq_of_getLsbD_eq fun i hi => ?_
  have hbit : start + i < 13 := by omega
  rw [BitVec.getLsbD_extractLsb', BitVec.getLsbD_extractLsb', BitVec.getLsbD_ofNat,
    show 8192 = 2 ^ 13 from rfl, Nat.testBit_mod_two_pow]
  simp only [hi, hbit, show start + i < 16 by omega, decide_true, Bool.true_and, testBit_page]

/-- The packer takes a page number modulo 8192 (rule R102). -/
theorem packAddr_mod_nPages (n : PageNo) (k : AddressByte) :
    packAddr (BitVec.ofNat 16 (n.toNat % 8192)) k = packAddr n k := by
  cases k with
  | a0 => simp only [packAddr, address0_eq, extractLsb'_mod_nPages n (start := 7) (len := 6) (by decide)]
  | a1 => simp only [packAddr, address1_eq, extractLsb'_mod_nPages n (start := 0) (len := 7) (by decide)]
  | a2 => simp only [packAddr, address2_eq, extractLsb'_mod_nPages n (start := 0) (len := 8) (by decide)]

/-- Only the range check keeps a page number of 8192 or more from being accepted (rule R224). -/
theorem pageOutOfRange_eq_rangeCheck (c : Cfg) {n : PageNo} (h : 8192 ≤ n.toNat) :
    pageOutOfRange c n = c.rangeCheck := by
  simp [pageOutOfRange, nPages, h]

/-- READ_PAGE and WRITE_PAGE, presented in `ACTIVE` with a page number of 8192 or more, are accepted without
the range check and rejected with it. -/
theorem exec_paged_outOfRange {s : State} {n : PageNo} {o : OpCode} (ho : o = 6 ∨ o = 7)
    (hb : s.blk.busy = false) (hp : s.blk.pstate = .active) (hn : 8192 ≤ n.toNat) :
    exec (commandOf o n) s = .next (s.setBlk (if s.cfg.rangeCheck
      then s.blk.pulsesFall.reject .addressOutOfRange
      else s.blk.pulsesFall.accept o n s.port.cmdPayload)) := by
  have hneed : requiredState (commandOf o n) = some .active := by rcases ho with rfl | rfl <;> rfl
  have hpaged : (o == 6 || o == 7) = true := by simpa using ho
  rw [exec_idle hb hneed, hpaged]
  simp [Block.present, hp, pageOutOfRange_eq_rangeCheck _ hn]

/-- Settles O6: the packer takes slices of `n[12:0]` alone, and with or without the range check an operation with
an out-of-range page number goes as `exec_paged_outOfRange` says. -/
theorem packedAddressAliases : Obligations.PackedAddressAliases := by
  refine ⟨fun n k => (packAddr_mod_nPages n k).symm, fun n => ⟨address2_eq n, unpack_address n⟩, ?_⟩
  intro s n i hi hb hp hn
  obtain ⟨o, ho, rfl⟩ : ∃ o : OpCode, (o = 6 ∨ o = 7) ∧ i = commandOf o n := by
    rcases hi with rfl | rfl
    · exact ⟨6, .inl rfl, rfl⟩
    · exact ⟨7, .inr rfl, rfl⟩
  rw [exec_paged_outOfRange ho hb hp hn]
  refine ⟨fun hc => ?_, fun hc => ?_⟩ <;> rw [hc]
  · exact ⟨_, rfl, rfl, rfl⟩
  · exact ⟨_, rfl, hb, rfl⟩

/-! ### The frames of the operations (rule R96) -/

/-- The frame of a page read, by the packed address of its page number. -/
theorem encode_frameB4_page (c : Cfg) (n : PageNo) :
    encode c (.frameB4 (n.extractLsb' 0 13) (n.extractLsb' 0 8)) =
      .frame ([c.opcReadLf, packAddr n .a0, packAddr n .a1, packAddr n .a2] ++ fillers pageBytes) := by
  rw [encode, headerBytes_address]
  rfl

/-- The frame of a page program, by the packed address of its page number. -/
theorem encode_frameB5_page (c : Cfg) (n : PageNo) (v : Payload) :
    encode c (.frameB5 (n.extractLsb' 0 13) (n.extractLsb' 0 8) v) =
      .frame ([c.opcProg, packAddr n .a0, packAddr n .a1, packAddr n .a2] ++ v.bytes) := by
  rw [encode, headerBytes_address]
  rfl

/-- Settles O7: the frames of each sequence and the encodings of its row are the same bytes as they are written;
only the packed address has to be recognised in the header of an addressed frame. -/
theorem operationsSendCatalogFrames : Obligations.OperationsSendCatalogFrames := by
  intro c n v a b
  simp only [List.forall_mem_cons, List.map_cons]
  rw [encode_frameB4_page, encode_frameB5_page]
  exact ⟨rfl, rfl, rfl, rfl, rfl, rfl, rfl, rfl, rfl, rfl, rfl, rfl, rfl, rfl, fun _ h => nomatch h⟩

/-! ### Where an instruction is placed (log 8) -/

/-- A placed command word is the command at the port of an idle controller. -/
theorem fetch_placeCommand (s : State) (w : CommandWord) :
    (s.placeCommand w).fetch = some (decodeCommand w) := by
  have hturn : (s.placeCommand w).deviceTurn = false := by simp [State.deviceTurn, State.placeCommand]
  have hpresented : (s.placeCommand w).port.presented = decodeCommand w :=
    congrArg decodeCommand (commandWord_split w)
  rw [← hpresented]
  rw [State.fetch, hturn]
  rfl

/-- A command word is given as 24 bits, in whole bytes (rule R90). -/
theorem tableCode_commandWord (c : Cfg) (w : CommandWord) : tableCode c 24 w.toNat = .ok (.command w) := by
  simp [tableCode, w.isLt]

/-- Settles O15: a placed command is presented to an idle controller, and a placed frame is what the device hears
at its turn. -/
theorem placedInstructionIsFetched : Obligations.PlacedInstructionIsFetched := by
  refine ⟨fun s w => ?_, fun s bytes i h => ?_⟩
  · rw [State.withFetchWord, tableCode_commandWord]
    exact fetch_placeCommand s w
  · have hturn : (s.placeFrame bytes).deviceTurn = true := rfl
    have hheard : heardFrame (s.placeFrame bytes).cfg (s.placeFrame bytes).dev.frame = .ok i :=
      heard_of_decoded h
    rw [State.fetch, if_pos hturn, hheard]
    rfl

end Sys2Proof.Machine
end

section
/-! The line discipline over every step, and how one step finds its instruction: `LineDiscipline`,
`StepRunsDecodedInstruction` and `IdleTick`. -/

namespace Sys2Proof.Machine

/-! ### The lines under the invariant (rules R132, R133, R164) -/

/-- While an operation runs, the place of its current primitive decides what the lines may be. -/
theorem Block.BusyInv.line_discipline {c : Cfg} {b : Block} (h : b.BusyInv c) :
    (b.txStart = true → b.csN = false) ∧ (b.wpN = true → b.op = 7 ∨ b.op = 8) ∧
    (b.rstN = false → b.op = 0) ∧
    (b.txStart = true → b.pstate = .active ∨ b.pstate = .dpd ∧ b.op = 10) := by
  obtain ⟨hneed, -, hlines, p, hp, -, htx⟩ := h
  obtain ⟨-, -, -, hcs⟩ := seqOk_all c b.running b.pos p hp
  rw [← hlines] at hcs
  rw [Block.running_eq] at hneed hlines hp
  obtain ⟨hwp, hrst, hsend, -, -⟩ := seq_facts c b.op b.page b.pos p hp
  rw [← hlines] at hwp hrst
  rw [hneed] at hsend
  refine ⟨fun ht => hcs (htx ht).1, hwp, hrst, fun ht => ?_⟩
  simpa using hsend (htx ht).1

/-- Settles O19: the invariant after the step holds the lines, by the sequence while an operation runs and at
their idle levels else. -/
theorem lineDiscipline : Obligations.LineDiscipline := by
  intro s t hinv hstep
  obtain ⟨⟨hidle, hbusy, -⟩, -⟩ := step_keeps_inv hinv hstep
  cases hb : t.blk.busy with
  | false =>
    obtain ⟨-, -, -, hlines, htx⟩ := hidle hb
    obtain ⟨hcs, hwp, hrst⟩ := Lines.mk.inj hlines
    simp [hcs, hwp, hrst, htx]
  | true =>
    obtain ⟨hcs, hwp, hrst, hsend⟩ := (hbusy hb).line_discipline
    exact ⟨hcs, fun _ => rfl, fun h => ⟨rfl, hwp h⟩, fun h => ⟨rfl, hrst h⟩, hsend⟩

/-! ### The instruction of a step (rule R42, rule R121) -/

/-- At a clock tick without reset the operation in progress is what a busy controller runs. -/
theorem fetch_running {s : State} (hd : s.deviceTurn = false) (hr : s.port.reset = false)
    (hb : s.blk.busy = true) : s.fetch = some s.blk.running := by
  simp [State.fetch, hd, hr, hb]

/-- At a clock tick without reset the command at the port is what an idle controller runs. -/
theorem fetch_presented {s : State} (hd : s.deviceTurn = false) (hr : s.port.reset = false)
    (hb : s.blk.busy = false) (hv : s.port.cmdValid = true) : s.fetch = some s.port.presented := by
  simp [State.fetch, hd, hr, hb, hv]

/-- A clock tick that runs an instruction is its meaning, the agents moving after it. -/
theorem step_of_fetch {s : State} {i : Instr} (hd : s.deviceTurn = false) (hf : s.fetch = some i) :
    (∀ t, exec i s = .next t → step s = .next (t.settle s.blk)) ∧
    ∀ f, exec i s = .fault f → step s = .fault f := by
  refine ⟨fun t h => ?_, fun f h => ?_⟩ <;> simp [step, hf, h, State.around, hd]

/-- Bytes that are no frame as they stand are heard without the fixed address bits (rule R79). -/
theorem heardFrame_of_error {c : Cfg} {bytes : List Byte} {e : DecodeError}
    (h : decodeFrame c bytes = .error e) : heardFrame c bytes = decodeFrame c (clearFixedBits c bytes) := by
  rw [heardFrame, h]

/-- Settles O14: at the device's turn by what it has heard, at a clock tick by what is fetched. -/
theorem stepRunsDecodedInstruction : Obligations.StepRunsDecodedInstruction := by
  intro s i
  refine ⟨fun hd h => step_heard hd (heard_of_decoded h), fun hd e he => ⟨fun h => ?_, fun e' h => ?_⟩,
    fun hd hr hb hi => ?_, fun hd hr hb hv hi => ?_⟩
  · exact step_heard hd ((heardFrame_of_error he).trans h)
  · exact step_foreign hd ((heardFrame_of_error he).trans h)
  · subst hi
    exact step_of_fetch hd (fetch_running hd hr hb)
  · subst hi
    exact step_of_fetch hd (fetch_presented hd hr hb hv)

/-- Settles O17: the step is `State.idleTick`. -/
theorem idleTick : Obligations.IdleTick := fun s hd hr hb hv =>
  ⟨s.idleTick, step_idle hd hr hb hv, State.settle_cfg _ _, s.idleTick_blk⟩

end Sys2Proof.Machine
end

section
/-! Acceptance, and one tick of each primitive: `CommandAccepted`, `LinePrimitives`, `TransferEngine`,
`DiscardedAnswers`, `ByteLoops`, `StatusRead`, `PollLoop` and `OperationFinishes`. -/

namespace Sys2Proof.Machine

/-! ### Acceptance (rule R120) -/

/-- A command in its required power state, its page number not refused, is accepted. -/
theorem Block.present_accepts {c : Cfg} {o : OpCode} {need : PState} {paged : Bool} {n : PageNo} {v : Payload}
    {b : Block} (hneed : b.pstate = need) (hpage : (paged && pageOutOfRange c n) = false) :
    b.present c o need paged n v = b.accept o n v := by
  rw [Block.present, if_neg (not_not.2 hneed), hpage]
  rfl

/-- The range check refuses no page number of the array, and none at all when it is off (rule R224). -/
theorem pageOutOfRange_eq_false {c : Cfg} {n : PageNo} (h : c.rangeCheck = true → n.toNat < 8192) :
    pageOutOfRange c n = false := by
  cases hc : c.rangeCheck with
  | false => simp [pageOutOfRange, hc]
  | true => simp [pageOutOfRange, nPages, h hc]

/-- Settles O22: acceptance takes its last branch. -/
theorem commandAccepted : Obligations.CommandAccepted := by
  intro s n row hrow hb hs hpage
  obtain ⟨hcommand, hneed⟩ := guardTable_row hrow
  have hrange : ((row.2.1 == 6 || row.2.1 == 7) && pageOutOfRange s.cfg n) = false := by
    cases hpaged : row.2.1 == 6 || row.2.1 == 7 with
    | false => rfl
    | true => exact pageOutOfRange_eq_false (hpage (by simpa using hpaged))
  rw [hcommand] at hneed ⊢
  rw [exec_idle hb hneed, Block.present_accepts (b := s.blk.pulsesFall) hs hrange]
  rfl

/-! ### The line primitives (rule R122) -/

/-- The primitive that acts next is what the tick runs. -/
theorem exec_at {s : State} {i : Instr} {p : Prim} (hp : s.At i p) :
    exec i s = .next (s.setBlk (s.blk.pulsesFall.run s.cfg s.port p)) :=
  exec_busy hp.1 hp.2

/-- Settles O26: a line primitive's tick is its assignment. -/
theorem linePrimitives : Obligations.LinePrimitives := fun _ _ =>
  ⟨exec_at, exec_at, exec_at, exec_at, exec_at, exec_at⟩

/-! ### One tick of a transfer (rule R124) -/

/-- The timeout's condition in words (rule R124). -/
theorem busLimitReached_iff (c : Cfg) (k : Nat) :
    busLimitReached c k = true ↔ c.busTimeoutTicks ≠ 0 ∧ c.busTimeoutTicks ≤ k + 1 := by
  simp [busLimitReached]

/-- A `WAIT` tick without `tx_done` aborts at the limit. -/
theorem Block.xfer_timeout {c : Cfg} {inp : Inputs} {x : Byte} {k : Byte → Block → Block} {b : Block}
    (hs : b.sub = .wait) (ht : inp.txDone = false)
    (hl : c.busTimeoutTicks ≠ 0 ∧ c.busTimeoutTicks ≤ b.busCnt + 1) :
    b.xfer c inp x k = b.abort .busTimeout := by
  simp [Block.xfer, Block.waitTransfer, hs, ht, (busLimitReached_iff _ _).2 hl]

/-- A `WAIT` tick without `tx_done` is counted below the limit. -/
theorem Block.xfer_waits {c : Cfg} {inp : Inputs} {x : Byte} {k : Byte → Block → Block} {b : Block}
    (hs : b.sub = .wait) (ht : inp.txDone = false)
    (hl : ¬(c.busTimeoutTicks ≠ 0 ∧ c.busTimeoutTicks ≤ b.busCnt + 1)) :
    b.xfer c inp x k = { b with busCnt := b.busCnt + 1 } := by
  simp [Block.xfer, Block.waitTransfer, hs, ht, mt (busLimitReached_iff _ _).1 hl]

/-- A transfer primitive's tick is the engine with its byte and its `K`, after the fall of the pulses. -/
theorem Block.run_transfer_pulsesFall {c : Cfg} {inp : Inputs} {p : Prim} {x : Byte} {b : Block}
    (hx : b.byteToSend p = some x) : b.pulsesFall.run c inp p = b.pulsesFall.xfer c inp x (p.answer c) :=
  Block.run_transfer ((b.byteToSend_pulsesFall p).trans hx)

section
variable {s : State} {i : Instr} {p : Prim} {x r : Byte}

/-- A running transfer primitive's tick is one of the engine. -/
theorem exec_transfer (hp : s.At i p) (hx : s.blk.byteToSend p = some x) :
    exec i s = .next (s.setBlk (s.blk.pulsesFall.xfer s.cfg s.port x (p.answer s.cfg))) := by
  rw [exec_at hp, Block.run_transfer_pulsesFall hx]

/-- The tick that starts a transfer. -/
theorem exec_transfer_start (hp : s.At i p) (hx : s.blk.byteToSend p = some x) (hs : s.blk.sub = .start) :
    exec i s = .next (s.setBlk (s.blk.pulsesFall.startTransfer x)) := by
  rw [exec_transfer hp hx, Block.xfer_start (b := s.blk.pulsesFall) hs]

/-- The answered tick of a transfer: the registers are what its primitive makes of the byte. -/
theorem exec_transfer_answered (hp : s.At i p) (hx : s.blk.byteToSend p = some x) (hr : s.Answered r)
    {b : Block} (hb : p.answer s.cfg r { s.blk.pulsesFall with sub := .start } = b) :
    exec i s = .next (s.setBlk b) := by
  obtain ⟨hwait, hdone, rfl⟩ := hr
  rw [exec_transfer hp hx, Block.xfer_answered (b := s.blk.pulsesFall) hwait hdone, hb]

end

/-- Settles O27: the engine's three branches without an answer. -/
theorem transferEngine : Obligations.TransferEngine := by
  intro s i p x hp hx
  refine ⟨exec_transfer_start hp hx, fun hs ht hl => ?_, fun hs ht hl => ?_⟩ <;> rw [exec_transfer hp hx]
  · rw [Block.xfer_timeout (b := s.blk.pulsesFall) hs ht hl]
    rfl
  · rw [Block.xfer_waits (b := s.blk.pulsesFall) hs ht hl]
    rfl

/-! ### What the primitives do with the received byte (rules R125 to R128) -/

/-- Settles O29: both primitives are a transfer of their byte, and `Block.afterDiscard` drops the answer. -/
theorem discardedAnswers : Obligations.DiscardedAnswers := fun _ _ =>
  ⟨fun _ hp => ⟨exec_transfer_start hp rfl, fun _ hr => exec_transfer_answered hp rfl hr rfl⟩,
    fun _ hp => ⟨exec_transfer_start hp rfl, fun _ hr => exec_transfer_answered hp rfl hr rfl⟩⟩

/-- Settles O30: `Block.afterPayload` as it stands, and `Block.afterCapture` with `idx + 1 = m` for the last
byte. -/
theorem byteLoops : Obligations.ByteLoops := by
  intro s i r hr
  refine ⟨fun hp => exec_transfer_answered hp rfl hr rfl, fun m hp => exec_transfer_answered hp rfl hr ?_⟩
  have hlast : s.blk.idx.toNat = m - 1 ∧ 0 < m ↔ s.blk.idx.toNat + 1 = m := by omega
  simp only [hlast]
  rfl

/-- Settles O31: the start, and `Block.afterStatus` at the first byte and at the second. -/
theorem statusRead : Obligations.StatusRead := fun _ _ _ hp =>
  ⟨exec_transfer_start hp rfl, fun hr hidx => exec_transfer_answered hp rfl hr (if_pos hidx),
    fun hr hidx => exec_transfer_answered hp rfl hr (if_neg hidx)⟩

/-- The poll limit's condition in words (rule R128). -/
theorem pollLimitReached_iff (c : Cfg) (k : Nat) :
    pollLimitReached c k = true ↔ c.pollLimit ≠ 0 ∧ c.pollLimit ≤ k + 1 := by
  simp [pollLimitReached]

section
variable {c : Cfg} {r : Byte} {b : Block}

/-- The second byte of a pair whose first shows READY leaves the poll, whatever the limit. -/
theorem Block.afterPoll_ready (hidx : b.idx ≠ 0) (hready : readyBit b.st0 = true) :
    b.afterPoll c r = { b with st1 := r, idx := 0, pos := b.pos + 1 } := by
  simp only [Block.afterPoll, if_neg hidx, if_pos hready]

/-- The second byte of a busy pair aborts at the limit. -/
theorem Block.afterPoll_limit (hidx : b.idx ≠ 0) (hready : readyBit b.st0 = false)
    (hl : c.pollLimit ≠ 0 ∧ c.pollLimit ≤ b.pollCnt + 1) :
    b.afterPoll c r = { b with st1 := r, idx := 0 }.abort .deviceNotReady := by
  simp only [Block.afterPoll, if_neg hidx, hready, if_pos ((pollLimitReached_iff _ _).2 hl),
    Bool.false_eq_true, if_false]

/-- The second byte of a busy pair is one busy poll below the limit. -/
theorem Block.afterPoll_again (hidx : b.idx ≠ 0) (hready : readyBit b.st0 = false)
    (hl : ¬(c.pollLimit ≠ 0 ∧ c.pollLimit ≤ b.pollCnt + 1)) :
    b.afterPoll c r = { b with st1 := r, idx := 0, pollCnt := b.pollCnt + 1 } := by
  simp only [Block.afterPoll, if_neg hidx, hready, if_neg (mt (pollLimitReached_iff _ _).1 hl),
    Bool.false_eq_true, if_false]

end

/-- Settles O32: the branches of `Block.afterPoll`. -/
theorem pollLoop : Obligations.PollLoop := by
  intro s i r hp hr
  have hacts := fun b => exec_transfer_answered (b := b) hp rfl hr
  refine ⟨fun hidx => hacts _ (if_pos hidx), fun hidx hready => hacts _ ?_,
    fun hidx hready hl => hacts _ ?_, fun hidx hready hl => hacts _ ?_⟩
  · exact Block.afterPoll_ready (b := { s.blk.pulsesFall with sub := .start }) hidx hready
  · exact Block.afterPoll_limit (b := { s.blk.pulsesFall with sub := .start }) hidx hready hl
  · exact Block.afterPoll_again (b := { s.blk.pulsesFall with sub := .start }) hidx hready hl

/-! ### `FINISH` (rule R129, rule R130) -/

/-- The one `FINISH` of a list that ends in it stands at the last place. -/
theorem getElem?_eq_finish_iff {l : List Prim} (hl : l.any Prim.isFinish = false) (q q' : Option PState)
    (k : Nat) : (l ++ [.finish q])[k]? = some (.finish q') ↔ k = l.length ∧ q' = q := by
  rcases lt_trichotomy k l.length with hk | rfl | hk
  · rw [List.getElem?_append_left hk]
    refine iff_of_false (fun h => ?_) (fun h => hk.ne h.1)
    exact List.any_eq_false.1 hl _ (List.mem_of_getElem? h) rfl
  · simp [eq_comm]
  · rw [List.getElem?_eq_none (by simpa using hk)]
    simp [hk.ne']

/-- The sequence of a row of the finish table is as long as it says, ends in the row's `FINISH`, and has no
other. -/
theorem finishTable_row (c : Cfg) {n : PageNo} {row : Instr × Nat × Option PState}
    (h : row ∈ finishTable n) : ∃ l, sequenceOf c row.1 = l ++ [.finish row.2.2] ∧ l.length = row.2.1 ∧
      l.any Prim.isFinish = false := by
  refine ⟨(sequenceOf c row.1).dropLast, ?_⟩
  simp only [finishTable, List.mem_cons, List.not_mem_nil, or_false] at h
  rcases h with rfl | rfl | rfl | rfl | rfl | rfl | rfl | rfl | rfl | rfl | rfl | rfl | rfl | rfl <;>
    exact ⟨rfl, rfl, rfl⟩

/-- Under the invariant `sub` and `idx` stand at their start values when `FINISH` acts. -/
theorem State.Inv.at_finish {s : State} {q : Option PState} (hinv : s.Inv)
    (hp : s.At s.blk.running (.finish q)) : s.blk.sub = .start ∧ s.blk.idx = 0 := by
  obtain ⟨⟨-, hbusy, -⟩, -⟩ := hinv
  obtain ⟨-, -, -, p, hp', hholds, -⟩ := hbusy hp.1
  cases hp'.symm.trans hp.2
  exact hholds

/-- Settles O33: the place of `FINISH` is `finishTable_row`, its tick the primitive's. -/
theorem operationFinishes : Obligations.OperationFinishes := by
  intro s n row hrow hb
  obtain ⟨l, hseq, hlen, hl⟩ := finishTable_row s.cfg hrow
  have hat : ∀ q, s.At row.1 (.finish q) ↔ s.blk.pos = row.2.1 ∧ q = row.2.2 := fun q => by
    rw [State.At, hseq, getElem?_eq_finish_iff hl, hlen]
    exact and_iff_right hb
  refine ⟨fun hpos => ?_, by simp [hseq, hlen], hat, fun hinv hrun hpos => ?_⟩
  · exact exec_at ((hat _).2 ⟨hpos, rfl⟩)
  · exact hinv.at_finish (hrun ▸ (hat _).2 ⟨hpos, rfl⟩)

end Sys2Proof.Machine
end

section
/-! Dwells and transfers tick by tick, in runs behind an unconstrained transport: `DwellLasts` and
`TransferLength`. -/

namespace Sys2Proof.Machine

/-- Settles O34: a dwell under way, a whole dwell, and its time. -/
theorem dwellLasts : Obligations.DwellLasts := by
  intro s t hu hp hs
  have hstart := Reaches.refl hu
  obtain ⟨u, hu, hreach⟩ := hstart.dwell hp hs
  rw [Nat.zero_add] at hreach
  refine ⟨fun k h1 hk => ?_, ⟨u, hreach.run, hu⟩, hreach.events, fun hclk => Dwell.time_lt hclk t⟩
  obtain ⟨v, hv, hreach'⟩ := hstart.dwellTicks hp hs h1 hk
  rw [Nat.zero_add] at hreach'
  exact ⟨v, hreach'.run, hv⟩

/-- The byte to send is read off the latches and `idx`. -/
theorem Block.byteToSend_congr {b b' : Block} (hpage : b'.page = b.page) (hpayload : b'.payload = b.payload)
    (hidx : b'.idx = b.idx) (p : Prim) : b'.byteToSend p = b.byteToSend p := by
  cases p <;> simp only [Block.byteToSend, hpage, hpayload, hidx]

/-- The registers of a transfer of `x` that waits for its answer, `w` ticks from its start. -/
def Block.waiting (x : Byte) (w : Nat) (b : Block) : Block :=
  { b with done := false, txStart := w == 1, rdValid := false, txData := x, busCnt := w - 1, sub := .wait }

section
variable {s u : State} {p : Prim} {x : Byte} {w : Nat} {ev : List PinEvent} {cap : List (BitVec 9 × Byte)}

/-- While a transfer waits its primitive stays the current one, and its byte the same. -/
theorem Reaches.at_waiting (h : Reaches s w u ev cap) (hu : u.blk = s.blk.waiting x w)
    (hp : s.At s.blk.running p) (hx : s.blk.byteToSend p = some x) :
    u.At u.blk.running p ∧ u.blk.byteToSend p = some x := by
  rw [State.At, h.cfg, hu]
  exact ⟨hp, (Block.byteToSend_congr rfl rfl rfl p).trans hx⟩

/-- The answered tick of a transfer begins with its event. -/
theorem pinEvents_answered (h : Reaches s w u ev cap) {r : Byte} (hp : u.At u.blk.running p)
    (hx : u.blk.byteToSend p = some x) (hr : u.Answered r) (t : State) :
    (pinEvents u t).head? = some (.xfer u.blk.txData r) := by
  obtain ⟨hwait, hdone, rfl⟩ := hr
  have hcompletes : u.completesTransfer = true := by
    simp [State.completesTransfer, State.currentPrim, State.deviceTurn_unconstrained h.undisturbed.1,
      h.undisturbed.2.1, hdone, hwait, hp.1, hp.2, Prim.isTransfer_of_send hx]
  simp [pinEvents, hcompletes]

end

/-- A transfer under way: `w` ticks from its start, without an answer before and the limit not passed, it
waits, and nothing has moved on the pins. -/
theorem Reaches.transferWaits {s : State} {p : Prim} {x : Byte} {w : Nat} (hu : s.Undisturbed)
    (hp : s.At s.blk.running p) (hx : s.blk.byteToSend p = some x) (hs : s.blk.sub = .start) (h1 : 1 ≤ w)
    (hsilent : ∀ j < w, ∀ r, ¬ s.AnswersAt j r)
    (hlimit : s.cfg.busTimeoutTicks = 0 ∨ w ≤ s.cfg.busTimeoutTicks) :
    ∃ u, u.blk = s.blk.waiting x w ∧ Reaches s w u [] [] := by
  obtain ⟨m, hm, hreach⟩ := (Reaches.refl hu).tick hp
  rw [Block.run_transfer_pulsesFall hx, Block.xfer_start (b := s.blk.pulsesFall) hs] at hm
  have hquiet : pinEvents s m = [] :=
    pinEvents_quiet (by simp [State.completesTransfer, hs]) (by rw [hm]; rfl)
  have hstream : m.blk.rdValid = false := by rw [hm]; rfl
  rw [hquiet, hstream] at hreach
  obtain ⟨k, rfl⟩ : ∃ k, w = k + 1 := ⟨w - 1, by omega⟩
  cases k with
  | zero => exact ⟨m, hm, hreach⟩
  | succ k =>
    obtain ⟨hpm, hxm⟩ := hreach.at_waiting (w := 1) hm hp hx
    have hbelow : m.cfg.busTimeoutTicks = 0 ∨ m.blk.busCnt + (k + 1) < m.cfg.busTimeoutTicks := by
      rw [hreach.cfg, hm, Block.startTransfer_busCnt]
      omega
    obtain ⟨u, hu, hreach'⟩ := hreach.waits hpm hxm (by rw [hm]; rfl) (k + 1)
      (hreach.silent le_rfl (hsilent 1 (by omega))) (fun i _ hi => hsilent _ (by omega)) hbelow
    refine ⟨u, ?_, ?_⟩
    · rw [hu, hm]
      simp [Block.waiting, Block.startTransfer, Block.pulsesFall]
    · rw [show k + 1 + 1 = 0 + 1 + (k + 1) by omega]
      exact hreach'

/-- Settles O28: a transfer waits (`Reaches.transferWaits`) until its answer comes or, at the limit, the next
tick without one aborts it. -/
theorem transferLength : Obligations.TransferLength := by
  intro s p x hu hp hx hs
  refine ⟨fun w r hanswer hsilent hlimit => ?_, fun hL hsilent => ?_⟩
  · obtain ⟨u, hblk, hreach⟩ := Reaches.transferWaits hu hp hx hs hanswer.1 hsilent hlimit
    obtain ⟨hpu, hxu⟩ := hreach.at_waiting hblk hp hx
    have hr : u.Answered r := ⟨by rw [hblk]; rfl, hreach.answered r hanswer⟩
    have hstep := step_busy (State.deviceTurn_unconstrained hreach.undisturbed.1) hreach.undisturbed.2.1
      hpu.1 hpu.2
    have hevent := pinEvents_answered hreach hpu hxu hr
    rw [hblk] at hevent
    exact ⟨u, _, hreach.run, hreach.events, hr, hblk, hstep, hevent _⟩
  · obtain ⟨u, hblk, hreach⟩ := Reaches.transferWaits (w := s.cfg.busTimeoutTicks) hu hp hx hs
      (Nat.pos_of_ne_zero hL) (fun j hj => hsilent j hj.le) (.inr le_rfl)
    obtain ⟨hpu, hxu⟩ := hreach.at_waiting hblk hp hx
    obtain ⟨t, ht, hreach'⟩ := hreach.tick hpu
    refine ⟨t, hreach'.run, ?_⟩
    have hwait : u.blk.sub = .wait := by rw [hblk]; rfl
    have hdone : u.port.txDone = false := hreach.silent (Nat.pos_of_ne_zero hL) (hsilent _ le_rfl)
    have hcnt : u.blk.busCnt = s.cfg.busTimeoutTicks - 1 := by rw [hblk]; rfl
    have hlimit : u.cfg.busTimeoutTicks ≠ 0 ∧ u.cfg.busTimeoutTicks ≤ u.blk.busCnt + 1 := by
      rw [hreach.cfg, hcnt]
      omega
    rw [ht, Block.run_transfer_pulsesFall hxu,
      Block.xfer_timeout (b := u.blk.pulsesFall) hwait hdone hlimit, hblk]
    rfl

end Sys2Proof.Machine
end


section
/-! The power-state machine: where the power state changes, and the five power operations from acceptance to
`FINISH`: `PowerStateTransitions`, `EnterSleepRuns`, `ResumeDpdRuns`, `ResumeUdpdRuns` and `InitRuns`. -/

namespace Sys2Proof.Machine

/-! ### Where the power state changes (rule R163) -/

/-- Under the invariant a `FINISH` that writes the power state completes one of the five transitions. -/
theorem Block.BusyInv.finish_transition {c : Cfg} {b : Block} {q : PState} (h : b.BusyInv c)
    (hp : (sequenceOf c b.running)[b.pos]? = some (.finish (some q))) :
    (b.pstate, b.op, q) ∈ powerTransitions := by
  obtain ⟨hneed, -⟩ := h
  rw [Block.running_eq] at hneed hp
  obtain ⟨-, -, -, hfinish, -⟩ := seq_facts c b.op b.page b.pos _ hp
  obtain ⟨q0, hneed', hmem⟩ := hfinish q rfl
  cases hneed.symm.trans hneed'
  exact hmem

/-- Settles O20: the device's move, a fall of the pulses, a rejection and an acceptance leave the power state
alone; of the primitives only `FINISH` writes it (`Block.run_keeps`). -/
theorem powerStateTransitions : Obligations.PowerStateTransitions := by
  intro s t hinv hstep hne
  obtain ⟨⟨-, hbusy, -⟩, -⟩ := hinv
  cases hd : s.deviceTurn with
  | true =>
    obtain ⟨resume, effect, hmove, -⟩ := step_device hd
    cases hmove.symm.trans hstep
    exact absurd rfl hne
  | false =>
    rcases tick_blk_cases hd hstep with
      ⟨hr, h⟩ | ⟨-, h⟩ | ⟨-, -, -, e, h⟩ | ⟨-, -, -, h⟩ | ⟨-, hb, p, hp, h⟩
    · exact .inl ⟨rfl, hr, by rw [h]; rfl⟩
    · exact absurd (congrArg Block.pstate h) hne
    · exact absurd (congrArg Block.pstate h) hne
    · exact absurd (congrArg Block.pstate h) hne
    · obtain ⟨-, -, -, -, -, hpstate⟩ := Block.run_keeps s.cfg s.port p s.blk.pulsesFall
      rw [← h] at hpstate
      obtain ⟨q, rfl, rfl, herr, hdone⟩ := hpstate.resolve_left hne
      refine .inr ⟨hp, herr, hdone, (hbusy hb).finish_transition ?_⟩
      rwa [State.currentPrim, if_pos hb] at hp

/-! ### Parts of a run -/

section
variable {s u : State} {k : Nat} {ev : List PinEvent} {cap : List (BitVec 9 × Byte)}

/-- The primitive that acts next, by the registers' known value and the operation's sequence. -/
theorem Reaches.at_of_blk (h : Reaches s k u ev cap) {B : Block} (hB : u.blk = B) {o : OpCode}
    {n : PageNo} {seq : List Prim} {p : Prim} (hseq : sequenceOf s.cfg (commandOf o n) = seq)
    (hb : B.busy = true) (ho : B.op = o) (hn : B.page = n) (hp : seq[B.pos]? = some p) :
    u.At u.blk.running p := by
  subst hB hseq
  exact h.atPrim hb ho hn hp

/-- The tick that starts a transfer. -/
theorem Reaches.transferStart (h : Reaches s k u ev cap) {p : Prim} {x : Byte}
    (hp : u.At u.blk.running p) (hx : u.blk.byteToSend p = some x) (hs : u.blk.sub = .start) :
    ∃ v, v.blk = u.blk.pulsesFall.startTransfer x ∧ Reaches s (k + 1) v ev cap := by
  obtain ⟨v, hv, hreach⟩ := h.tick hp
  rw [Block.run_transfer_pulsesFall hx, Block.xfer_start (b := u.blk.pulsesFall) hs] at hv
  have hquiet : pinEvents u v = [] :=
    pinEvents_quiet (by simp [State.completesTransfer, hs]) (by rw [hv]; rfl)
  have hstream : v.blk.rdValid = false := by rw [hv]; rfl
  exact ⟨v, hv, by simpa [hquiet, hstream] using hreach⟩

/-- The operation is running in the power state `q`, and the last tick started no transfer. -/
def Block.Quiet (q : PState) (b : Block) : Prop := b.busy = true ∧ b.txStart = false ∧ b.pstate = q

/-- At every tick `i` of a dwell, from before its first to after its last, the operation runs on, and nothing has
moved on the pins. -/
theorem Reaches.dwellQuiet (h : Reaches s k u ev cap) {t : Dwell} {q : PState}
    (hp : u.At u.blk.running (.dwell t)) (hs : u.blk.sub = .start) (hq : u.blk.Quiet q) {i : Nat}
    (hki : k ≤ i) (hi : i ≤ k + t.ticks s.cfg) : ∃ v, v.blk.Quiet q ∧ Reaches s i v ev cap := by
  obtain ⟨hb, -, hpstate⟩ := id hq
  obtain ⟨j, rfl⟩ := Nat.exists_eq_add_of_le hki
  rw [← h.cfg] at hi
  obtain rfl | ⟨hfirst, hlast⟩ | rfl : j = 0 ∨ (1 ≤ j ∧ j < t.ticks u.cfg) ∨ j = t.ticks u.cfg := by omega
  · exact ⟨u, hq, h⟩
  · obtain ⟨v, hv, hreach⟩ := h.dwellTicks hp hs hfirst hlast
    exact ⟨v, by rw [hv]; exact ⟨hb, rfl, hpstate⟩, hreach⟩
  · obtain ⟨v, hv, hreach⟩ := h.dwell hp hs
    exact ⟨v, by rw [hv]; exact ⟨hb, rfl, hpstate⟩, hreach⟩

end

/-- Chip-select and the reset line are high in the idle controller (rule R45). -/
theorem Block.IdleInv.lines_high {b : Block} (h : b.IdleInv) : b.csN = true ∧ b.rstN = true := by
  obtain ⟨-, -, -, hlines, -⟩ := h
  obtain ⟨hcs, -, hrst⟩ := Lines.mk.inj hlines
  exact ⟨hcs, hrst⟩

/-- The registers that an operation counts with stand at their idle values when it ends (rule R45). -/
theorem Block.IdleInv.restored {b : Block} (h : b.IdleInv) :
    { b with pos := 0, sub := .start, idx := 0 } = b := by
  obtain ⟨hpos, hsub, hidx, -⟩ := h
  rw [← hpos, ← hsub, ← hidx]

/-! ### The opcode frame (rules R153, R155 and R158) -/

section
variable {s : State} {o : OpCode} {n : PageNo} {x r : Byte} {post : List Prim}

/-- The registers of the operation `(o, n)` as they stand at `pos` after its opcode frame `[x]`. -/
def State.afterOpcode (o : OpCode) (n : PageNo) (x : Byte) (s : State) : Block :=
  { (s.blk.pulsesFall.accept o n s.port.cmdPayload).sent x with pos := 3 }

/-- An operation that begins with the frame of one opcode is accepted at tick 0 and has sent its frame at tick 4. -/
theorem Reaches.opcodeFrame (hu : s.Undisturbed) (hpresents : s.Presents o n)
    (hneed : requiredState (commandOf o n) = some s.blk.pstate) (hpaged : (o == 6 || o == 7) = false)
    (hseq : sequenceOf s.cfg (commandOf o n) = .csAssert :: .xferConst x :: .csRelease :: post)
    (hr : s.AnswersAt 3 r) :
    (∀ k, 1 ≤ k → k ≤ 4 → ∃ u, Sys2Proof.core.run k s = .next u ∧ u.blk.busy = true ∧
      u.blk.pstate = s.blk.pstate) ∧
    ∃ v, v.blk = s.afterOpcode o n x ∧ Reaches s 5 v [.csFall, .xfer x r, .csRise] [] := by
  obtain ⟨-, hidle, -⟩ := id hpresents
  obtain ⟨hcs, -⟩ := hidle.lines_high
  obtain ⟨u1, h1, r1⟩ := Reaches.accept hu hpresents hneed rfl (by rw [hpaged]; rfl)
  obtain ⟨u2, h2, r2⟩ := r1.csAssert (r1.at_of_blk h1 hseq rfl rfl rfl rfl) (by rw [h1]; exact hcs)
  rw [h1] at h2
  have hp2 : u2.At u2.blk.running (.xferConst x) := r2.at_of_blk h2 hseq rfl rfl rfl rfl
  have hs2 : u2.blk.sub = .start := by rw [h2]; rfl
  obtain ⟨u3, h3, r3⟩ := r2.transferStart hp2 rfl hs2
  obtain ⟨u4, h4, r4⟩ := r2.discard hp2 (.inl rfl) hs2 hr
  rw [h2] at h3 h4
  obtain ⟨u5, h5, r5⟩ := r4.csRelease (r4.at_of_blk h4 hseq rfl rfl rfl rfl) (by rw [h4]; rfl)
  have h5' : u5.blk = s.afterOpcode o n x := by
    rw [h5, h4]
    simp [State.afterOpcode, Block.sent, Block.pulsesFall, hcs]
  refine ⟨fun k hk hk' => ?_, u5, h5', r5⟩
  obtain rfl | rfl | rfl | rfl : k = 1 ∨ k = 2 ∨ k = 3 ∨ k = 4 := by omega
  · exact ⟨u1, r1.run, by rw [h1]; exact ⟨rfl, rfl⟩⟩
  · exact ⟨u2, r2.run, by rw [h2]; exact ⟨rfl, rfl⟩⟩
  · exact ⟨u3, r3.run, by rw [h3]; exact ⟨rfl, rfl⟩⟩
  · exact ⟨u4, r4.run, by rw [h4]; exact ⟨rfl, rfl⟩⟩

/-- An operation that is its opcode frame alone: `FINISH` acts at tick 5. -/
theorem Reaches.opcodeFrame_finish (hu : s.Undisturbed) (hpresents : s.Presents o n)
    (hneed : requiredState (commandOf o n) = some s.blk.pstate) (hpaged : (o == 6 || o == 7) = false)
    {q : PState}
    (hseq : sequenceOf s.cfg (commandOf o n) =
      [.csAssert, .xferConst x, .csRelease, .finish (some q)])
    (hr : s.AnswersAt 3 r) :
    ∃ t, t.blk = { s.blk.finished o n s.port.cmdPayload with pstate := q, txData := x } ∧
      Reaches s 6 t [.csFall, .xfer x r, .csRise] [] := by
  obtain ⟨-, u, h, hreach⟩ := Reaches.opcodeFrame hu hpresents hneed hpaged hseq hr
  obtain ⟨t, ht, hreach'⟩ := hreach.finish (hreach.at_of_blk h hseq rfl rfl rfl rfl)
  refine ⟨t, ?_, hreach'⟩
  obtain ⟨-, hidle, -⟩ := hpresents
  rw [ht, h]
  exact congrArg (fun b : Block =>
    { b.finished o n s.port.cmdPayload with pstate := q, txData := x }) hidle.restored

end

/-- A run that captures nothing leaves the host's buffer as it was. -/
theorem Reaches.captured_nil {s u : State} {k : Nat} {ev : List PinEvent} (h : Reaches s k u ev []) :
    u.captured = s.captured := h.captured.trans (List.append_nil _)

/-- Settles O36: both operations are their opcode frame alone. -/
theorem enterSleepRuns : Obligations.EnterSleepRuns := by
  intro s n r hu hactive hr row hrow hpresents
  have hshape : requiredState (commandOf row.1 n) = some .active ∧ (row.1 == 6 || row.1 == 7) = false ∧
      sequenceOf s.cfg (commandOf row.1 n) =
        [.csAssert, .xferConst row.2.1, .csRelease, .finish (some row.2.2)] := by
    simp only [List.mem_cons, List.not_mem_nil, or_false] at hrow
    rcases hrow with rfl | rfl <;> exact ⟨rfl, rfl, rfl⟩
  obtain ⟨hneed, hpaged, hseq⟩ := hshape
  rw [← hactive] at hneed
  obtain ⟨t, ht, hreach⟩ := Reaches.opcodeFrame_finish hu hpresents hneed hpaged hseq hr
  exact ⟨hreach.events, t, hreach.run, hreach.dev, hreach.captured_nil, ht⟩

/-- Settles O37: the opcode frame, then the dwell, then `FINISH`. -/
theorem resumeDpdRuns : Obligations.ResumeDpdRuns := by
  intro s n r hu hpresents hdpd hr N events
  have hseq : sequenceOf s.cfg (commandOf 10 n) = .csAssert :: .xferConst s.cfg.opcResumeDpd ::
      .csRelease :: [.dwell .rdpd, .finish (some .active)] := rfl
  obtain ⟨hsending, u, h, hsent⟩ :=
    Reaches.opcodeFrame hu hpresents (congrArg some hdpd.symm) rfl hseq hr
  have hdwell : u.At u.blk.running (.dwell .rdpd) := hsent.at_of_blk h hseq rfl rfl rfl rfl
  have hstart : u.blk.sub = .start := by rw [h]; rfl
  have hquiet : u.blk.Quiet .dpd := by rw [h]; exact ⟨rfl, rfl, hdpd⟩
  obtain ⟨v, h', hrested⟩ := hsent.dwell hdwell hstart
  rw [h] at h'
  obtain ⟨t, ht, hdone⟩ := hrested.finish (hrested.at_of_blk h' hseq rfl rfl rfl rfl)
  rw [hsent.cfg, show 5 + Dwell.rdpd.ticks s.cfg + 1 = N + 6 by omega] at hdone
  refine ⟨hsent.events, hdone.events, fun hclk => Dwell.time_lt hclk .rdpd, fun k h1 hk => ?_,
    t, hdone.run, hdone.dev, hdone.captured_nil, ?_⟩
  · by_cases h4 : k ≤ 4
    · rw [← hdpd]
      exact hsending k h1 h4
    · obtain ⟨w, ⟨hb, -, hpstate⟩, hreach⟩ :=
        hsent.dwellQuiet hdwell hstart hquiet (i := k) (by omega) (by omega)
      exact ⟨w, hreach.run, hb, hpstate⟩
  · obtain ⟨-, hidle, -⟩ := hpresents
    rw [ht, h']
    exact congrArg (fun b : Block => { b.finished 10 n s.port.cmdPayload with
      pstate := .active, txData := s.cfg.opcResumeDpd, timer := 0 }) hidle.restored

/-! ### The line pulse (rules R150 and R160) -/

/-- The two lines that a power operation pulses without a transfer. -/
inductive PulseLine
  | cs
  | rst

namespace PulseLine

/-- The primitive that pulls the line low. -/
def lower : PulseLine → Prim
  | cs => .csAssert
  | rst => .rstAssert

/-- The primitive that lets it go. -/
def raise : PulseLine → Prim
  | cs => .csRelease
  | rst => .rstRelease

/-- The event of its fall. -/
def fall : PulseLine → PinEvent
  | cs => .csFall
  | rst => .rstFall

/-- The event of its rise. -/
def rise : PulseLine → PinEvent
  | cs => .csRise
  | rst => .rstRise

/-- Its level. -/
def level (b : Block) : PulseLine → Bool
  | cs => b.csN
  | rst => b.rstN

/-- The registers with the line at the level `x`. -/
def drive (l : PulseLine) (x : Bool) (b : Block) : Block :=
  { b with
    csN := match l with | cs => x | rst => b.csN
    rstN := match l with | cs => b.rstN | rst => x }

/-- A pulse leaves the line of an idle controller as it was. -/
theorem drive_drive_of_idle (l : PulseLine) {b : Block} (h : b.IdleInv) :
    l.drive true (l.drive false b) = b := by
  obtain ⟨hcs, hrst⟩ := h.lines_high
  cases l with
  | cs => simp [drive, ← hcs]
  | rst => simp [drive, ← hrst]

end PulseLine

section
variable {s u : State} {k : Nat} {ev : List PinEvent} {cap : List (BitVec 9 × Byte)} {l : PulseLine}

/-- The tick at which the line falls. -/
theorem Reaches.lineFalls (h : Reaches s k u ev cap) (hp : u.At u.blk.running l.lower)
    (hl : l.level u.blk = true) :
    ∃ v, v.blk = l.drive false { u.blk.pulsesFall with pos := u.blk.pos + 1 } ∧
      Reaches s (k + 1) v (ev ++ [l.fall]) cap := by
  cases l with
  | cs => exact h.csAssert hp hl
  | rst => exact h.rstAssert hp hl

/-- The tick at which the line rises. -/
theorem Reaches.lineRises (h : Reaches s k u ev cap) (hp : u.At u.blk.running l.raise)
    (hl : l.level u.blk = false) :
    ∃ v, v.blk = l.drive true { u.blk.pulsesFall with pos := u.blk.pos + 1 } ∧
      Reaches s (k + 1) v (ev ++ [l.rise]) cap := by
  cases l with
  | cs => exact h.csRelease hp hl
  | rst => exact h.rstRelease hp hl

end

section
variable {s : State} {o : OpCode} {n : PageNo} {l : PulseLine} {t t' : Dwell}

/-- An operation that is a line pulse of the dwell `t`, then the dwell `t'`, tick by tick. -/
theorem Reaches.linePulse (hu : s.Undisturbed) (hpresents : s.Presents o n)
    (hneed : requiredState (commandOf o n) = some s.blk.pstate) (hpaged : (o == 6 || o == 7) = false)
    (hseq : sequenceOf s.cfg (commandOf o n) =
      [l.lower, .dwell t, l.raise, .dwell t', .finish (some .active)]) :
    let N := t.ticks s.cfg
    let M := t'.ticks s.cfg
    (∃ u, u.blk.Quiet s.blk.pstate ∧ Reaches s 1 u [] []) ∧
    (∀ k, 2 ≤ k → k ≤ N + 2 → ∃ u, u.blk.Quiet s.blk.pstate ∧ Reaches s k u [l.fall] []) ∧
    (∀ k, N + 3 ≤ k → k ≤ N + M + 3 → ∃ u, u.blk.Quiet s.blk.pstate ∧
      Reaches s k u [l.fall, l.rise] []) ∧
    ∃ w, w.blk = { s.blk.finished o n s.port.cmdPayload with pstate := .active, timer := 0 } ∧
      Reaches s (N + M + 4) w [l.fall, l.rise] [] := by
  intro N M
  obtain ⟨-, hidle, -⟩ := id hpresents
  obtain ⟨hcs, hrst⟩ := hidle.lines_high
  obtain ⟨u1, h1, r1⟩ := Reaches.accept hu hpresents hneed rfl (by rw [hpaged]; rfl)
  obtain ⟨u2, h2, r2⟩ := r1.lineFalls (l := l) (r1.at_of_blk h1 hseq rfl rfl rfl rfl)
    (by rw [h1]; cases l with | cs => exact hcs | rst => exact hrst)
  rw [h1] at h2
  have hdwell2 : u2.At u2.blk.running (.dwell t) := r2.at_of_blk h2 hseq rfl rfl rfl rfl
  have hstart2 : u2.blk.sub = .start := by rw [h2]; rfl
  obtain ⟨u3, h3, r3⟩ := r2.dwell hdwell2 hstart2
  rw [h2] at h3
  obtain ⟨u4, h4, r4⟩ := r3.lineRises (l := l) (r3.at_of_blk h3 hseq rfl rfl rfl rfl)
    (by rw [h3]; cases l <;> rfl)
  rw [h3] at h4
  rw [r2.cfg, show 2 + t.ticks s.cfg + 1 = N + 3 by omega] at r4
  have hdwell4 : u4.At u4.blk.running (.dwell t') := r4.at_of_blk h4 hseq rfl rfl rfl rfl
  have hstart4 : u4.blk.sub = .start := by rw [h4]; rfl
  obtain ⟨u5, h5, r5⟩ := r4.dwell hdwell4 hstart4
  rw [h4] at h5
  obtain ⟨u6, h6, r6⟩ := r5.finish (r5.at_of_blk h5 hseq rfl rfl rfl rfl)
  rw [r4.cfg, show N + 3 + t'.ticks s.cfg + 1 = N + M + 4 by omega] at r6
  refine ⟨⟨u1, by rw [h1]; exact ⟨rfl, rfl, rfl⟩, r1⟩, fun k hk hk' => ?_, fun k hk hk' => ?_, u6, ?_, r6⟩
  · exact r2.dwellQuiet hdwell2 hstart2 (by rw [h2]; exact ⟨rfl, rfl, rfl⟩) hk (by omega)
  · exact r4.dwellQuiet hdwell4 hstart4 (by rw [h4]; exact ⟨rfl, rfl, rfl⟩) hk (by omega)
  · have hrestored : { l.drive true (l.drive false s.blk) with pos := 0, sub := .start, idx := 0 } = s.blk := by
      rw [l.drive_drive_of_idle hidle, hidle.restored]
    rw [h6, h5]
    exact congrArg (fun b : Block =>
      { b.finished o n s.port.cmdPayload with pstate := .active, timer := 0 }) hrestored

/-- The same, in the words of the claims: the events up to every tick, the operation running until `FINISH`, and
the registers at its end. -/
theorem linePulse_runs (hu : s.Undisturbed) (hpresents : s.Presents o n)
    (hneed : requiredState (commandOf o n) = some s.blk.pstate) (hpaged : (o == 6 || o == 7) = false)
    (hseq : sequenceOf s.cfg (commandOf o n) =
      [l.lower, .dwell t, l.raise, .dwell t', .finish (some .active)]) :
    let N := t.ticks s.cfg
    let M := t'.ticks s.cfg
    (∀ k, 2 ≤ k → k ≤ N + 2 → trace k s = [l.fall]) ∧
    (∀ k, N + 3 ≤ k → k ≤ N + M + 4 → trace k s = [l.fall, l.rise]) ∧
    (∀ k, 1 ≤ k → k ≤ N + M + 3 → ∃ u, Sys2Proof.core.run k s = .next u ∧ u.blk.Quiet s.blk.pstate) ∧
    ∃ w, Sys2Proof.core.run (N + M + 4) s = .next w ∧ w.dev = s.dev ∧ w.captured = s.captured ∧
      w.blk = { s.blk.finished o n s.port.cmdPayload with pstate := .active, timer := 0 } := by
  intro N M
  obtain ⟨⟨u, hq, hreach⟩, hlow, hhigh, w, hw, hend⟩ := Reaches.linePulse hu hpresents hneed hpaged hseq
  refine ⟨fun k h2 hk => ?_, fun k h3 hk => ?_, fun k h1 hk => ?_,
    w, hend.run, hend.dev, hend.captured_nil, hw⟩
  · obtain ⟨v, -, h⟩ := hlow k h2 hk
    exact h.events
  · rcases hk.lt_or_eq with hlt | rfl
    · obtain ⟨v, -, h⟩ := hhigh k h3 (by omega)
      exact h.events
    · exact hend.events
  · obtain rfl | ⟨h2, hk'⟩ | h3 : k = 1 ∨ (2 ≤ k ∧ k ≤ N + 2) ∨ N + 3 ≤ k := by omega
    · exact ⟨u, hreach.run, hq⟩
    · obtain ⟨v, hv, h⟩ := hlow k h2 hk'
      exact ⟨v, h.run, hv⟩
    · obtain ⟨v, hv, h⟩ := hhigh k h3 hk
      exact ⟨v, h.run, hv⟩

end

/-- Settles O38: a pulse on chip-select. -/
theorem resumeUdpdRuns : Obligations.ResumeUdpdRuns := by
  intro s n hu hpresents hudpd N M
  obtain ⟨hlow, hhigh, hbusy, hend⟩ := linePulse_runs (l := .cs) (t := .cslu) (t' := .xudpd) hu hpresents
    (congrArg some hudpd.symm) rfl rfl
  rw [hudpd] at hbusy
  exact ⟨hlow, hhigh, fun hclk => ⟨Dwell.time_lt hclk .cslu, Dwell.time_lt hclk .xudpd⟩, hbusy, hend⟩

/-- Settles O39: a pulse on the reset line. -/
theorem initRuns : Obligations.InitRuns := by
  intro s n hu hpresents huninit N M
  obtain ⟨hlow, hhigh, hbusy, hend⟩ := linePulse_runs (l := .rst) (t := .rst) (t' := .settle) hu hpresents
    (congrArg some huninit.symm) rfl rfl
  refine ⟨hlow, hhigh, fun hclk => ⟨Dwell.time_lt hclk .rst, Dwell.time_lt hclk .settle⟩,
    fun k h1 hk => ?_, hend⟩
  obtain ⟨u, hrun, hb, -, hpstate⟩ := hbusy k h1 hk
  exact ⟨u, hrun, hb, hpstate.trans huninit⟩

end Sys2Proof.Machine
end


section
/-! The status operations from acceptance to `FINISH`: `StatusReadRuns` and `WaitReadyRuns`. -/

namespace Sys2Proof.Machine

/-! ### The status word in a run (rule R127) -/

section
variable {s u : State} {k : Nat} {ev : List PinEvent} {cap : List (BitVec 9 × Byte)}

/-- A transfer whose byte does not go onto the capture stream: its primitive makes the registers `b` of it. -/
theorem Reaches.uncaptured (h : Reaches s k u ev cap) {p : Prim} {x r : Byte} {b : Block}
    (hp : u.At u.blk.running p) (hx : u.blk.byteToSend p = some x) (hs : u.blk.sub = .start)
    (hr : s.AnswersAt (k + 1) r) (hb : p.answer u.cfg r (u.blk.sent x) = b)
    (hl : b.lines = u.blk.lines) (hrd : b.rdValid = false) :
    ∃ v, v.blk = b ∧ Reaches s (k + 2) v (ev ++ [.xfer x r]) cap := by
  subst hb
  obtain ⟨v, hv, hreach⟩ := h.transfer hp hx hs hr hl
  exact ⟨v, hv, by simpa [hv, hrd] using hreach⟩

/-- The whole of `XFER_STATUS`, its two bytes answered at their first `WAIT` ticks. -/
theorem Reaches.statusWord (h : Reaches s k u ev cap) {x y : Byte} (hp : u.At u.blk.running .xferStatus)
    (hs : u.blk.sub = .start) (hi : u.blk.idx = 0) (hx : s.AnswersAt (k + 1) x)
    (hy : s.AnswersAt (k + 3) y) :
    ∃ v, v.blk = { u.blk.sent filler with st0 := x, st1 := y, idx := 0, pos := u.blk.pos + 1 } ∧
      Reaches s (k + 4) v (ev ++ [.xfer filler x, .xfer filler y]) cap := by
  obtain ⟨w, hw, hfirst⟩ := h.uncaptured (b := { u.blk.sent filler with st0 := x, idx := 1 })
    hp rfl hs hx (if_pos hi) rfl rfl
  have hpw : w.At w.blk.running .xferStatus := by
    rw [State.At, hfirst.cfg, ← h.cfg, hw]
    exact hp
  obtain ⟨v, hv, hsecond⟩ := hfirst.uncaptured (r := y)
    (b := { u.blk.sent filler with st0 := x, st1 := y, idx := 0, pos := u.blk.pos + 1 })
    hpw rfl (by rw [hw]; rfl) hy (by rw [hw]; rfl) (by rw [hw]; rfl) rfl
  exact ⟨v, hv, by simpa using hsecond⟩

end

/-! ### Operations of one frame (rule R130) -/

section
variable {s : State} {o : OpCode} {n : PageNo} {x r : Byte} {p : Prim}

/-- The registers of the operation `(o, n)` at the primitive after its opcode `x`, chip-select low. -/
def State.opcodeSent (o : OpCode) (n : PageNo) (x : Byte) (s : State) : Block :=
  { (s.blk.pulsesFall.accept o n s.port.cmdPayload).sent x with csN := false, pos := 2 }

/-- An operation that begins with the opcode `x` is accepted at tick 0 and has sent it after tick 3. -/
theorem Reaches.opcode {post : List Prim} (hu : s.Undisturbed) (hpresents : s.Presents o n)
    (hneed : requiredState (commandOf o n) = some s.blk.pstate) (hpaged : (o == 6 || o == 7) = false)
    (hseq : sequenceOf s.cfg (commandOf o n) = .csAssert :: .xferConst x :: post)
    (hr : s.AnswersAt 3 r) :
    ∃ v, v.blk = s.opcodeSent o n x ∧ Reaches s 4 v [.csFall, .xfer x r] [] := by
  obtain ⟨-, hidle, -⟩ := id hpresents
  obtain ⟨hcs, -⟩ := hidle.lines_high
  obtain ⟨u1, h1, r1⟩ := Reaches.accept hu hpresents hneed rfl (by rw [hpaged]; rfl)
  obtain ⟨u2, h2, r2⟩ := r1.csAssert (r1.at_of_blk h1 hseq rfl rfl rfl rfl) (by rw [h1]; exact hcs)
  rw [h1] at h2
  obtain ⟨v, hv, hreach⟩ := r2.discard (r2.at_of_blk h2 hseq rfl rfl rfl rfl) (.inl rfl)
    (by rw [h2]; rfl) hr
  exact ⟨v, by rw [hv, h2]; rfl, hreach⟩

/-- The end of the operation's frame: chip-select rises, and `FINISH` acts at the next tick. -/
theorem Reaches.closeFrame {u : State} {k : Nat} {ev : List PinEvent} {cap : List (BitVec 9 × Byte)}
    (h : Reaches s k u ev cap) {B : Block} (hB : u.blk = B)
    (hseq : sequenceOf s.cfg (commandOf o n) = [.csAssert, .xferConst x, p, .csRelease, .finish none])
    (hb : B.busy = true) (ho : B.op = o) (hn : B.page = n) (hpos : B.pos = 3) (hcs : B.csN = false) :
    ∃ t, t.blk = { B.pulsesFall with csN := true }.finish none ∧
      Reaches s (k + 2) t (ev ++ [.csRise]) cap := by
  obtain ⟨w, hw, hraised⟩ := h.csRelease
    (h.at_of_blk hB hseq hb ho hn (by rw [hpos]; rfl)) (by rw [hB]; exact hcs)
  rw [hB] at hw
  obtain ⟨t, ht, hdone⟩ := hraised.finish (q := none)
    (hraised.at_of_blk hw hseq hb ho hn (by simp [hpos]))
  exact ⟨t, by rw [ht, hw]; rfl, hdone⟩

end

/-- What a frame moves besides its results stands as before when an operation from the idle controller ends. -/
theorem Block.IdleInv.frame_restored {b : Block} (h : b.IdleInv) :
    { b with csN := true, pos := 0, sub := .start, idx := 0 } = b := by
  obtain ⟨hcs, -⟩ := h.lines_high
  rw [← hcs]
  exact h.restored

/-- Settles O40: the opcode, the status word, and the end of the frame. -/
theorem statusReadRuns : Obligations.StatusReadRuns := by
  intro s o n r s0 s1 ho hu hpresents hactive hr h0 h1
  have hshape : requiredState (commandOf o n) = some .active ∧ (o == 6 || o == 7) = false ∧
      sequenceOf s.cfg (commandOf o n) =
        [.csAssert, .xferConst s.cfg.opcStatus, .xferStatus, .csRelease, .finish none] := by
    rcases ho with rfl | rfl <;> exact ⟨rfl, rfl, rfl⟩
  obtain ⟨hneed, hpaged, hseq⟩ := hshape
  obtain ⟨-, hidle, -⟩ := id hpresents
  rw [← hactive] at hneed
  obtain ⟨u, h, hsent⟩ := Reaches.opcode hu hpresents hneed hpaged hseq hr
  obtain ⟨v, h', hread⟩ := hsent.statusWord (hsent.at_of_blk h hseq rfl rfl rfl rfl)
    (by rw [h]; rfl) (by rw [h]; rfl) h0 h1
  rw [h] at h'
  obtain ⟨t, ht, hdone⟩ := hread.closeFrame h' hseq rfl rfl rfl rfl rfl
  refine ⟨hdone.events, beq_iff_eq, t, hdone.run, hdone.dev, hdone.captured_nil, ?_⟩
  rw [ht]
  exact congrArg (fun b : Block => { b.finished o n s.port.cmdPayload with
    st0 := s0, st1 := s1, txData := 0xFF }) hidle.frame_restored

/-- Settles O42: acceptance, the wait-ready (`Reaches.waitReady`), and `FINISH`. -/
theorem waitReadyRuns : Obligations.WaitReadyRuns := by
  intro s n q r a b hu hpresents hactive hr hpairs hready
  have hseq : sequenceOf s.cfg (commandOf 1 n) = waitReadyFrame s.cfg ++ [.finish none] := rfl
  obtain ⟨-, hidle, -⟩ := id hpresents
  obtain ⟨hcs, -⟩ := hidle.lines_high
  obtain ⟨u, h, haccepted⟩ := Reaches.accept hu hpresents rfl hactive rfl
  obtain ⟨v, h', hpolled⟩ := haccepted.waitReady (pre := []) h rfl rfl rfl hseq rfl rfl rfl hcs rfl
    hr hpairs hready
  obtain ⟨t, ht, hdone⟩ := hpolled.finish (hpolled.at_of_blk h' hseq rfl rfl rfl rfl)
  rw [show 1 + 4 + 4 * q + 1 = 6 + 4 * q by omega] at hdone
  refine ⟨hdone.events, t, hdone.run, hdone.dev, hdone.captured_nil, ?_⟩
  rw [ht, h']
  exact congrArg (fun c : Block => { c.finished 1 n s.port.cmdPayload with
    st0 := a (q - 1), st1 := b (q - 1), txData := 0xFF, pollCnt := q - 1 }) hidle.restored

end Sys2Proof.Machine
end

section
/-! The page operations from acceptance to `FINISH`, and a programmed page read back: `ReadPageRuns`,
`WritePageRuns` and `ProgrammedPageReadsBack`. -/

namespace Sys2Proof.Machine

/-! ### The page operations in a run (rules R185 and R190) -/

/-- A page operation presented in `ACTIVE` with a page number that the range check admits is accepted. -/
theorem Reaches.acceptPaged {s : State} {o : OpCode} {n : PageNo} (ho : o = 6 ∨ o = 7)
    (hu : s.Undisturbed) (hpresents : s.Presents o n) (hactive : s.blk.pstate = .active)
    (hrange : s.cfg.rangeCheck = true → n.toNat < 8192) :
    ∃ v, v.blk = s.blk.pulsesFall.accept o n s.port.cmdPayload ∧ Reaches s 1 v [] [] := by
  have hneed : requiredState (commandOf o n) = some .active := by rcases ho with rfl | rfl <;> rfl
  exact Reaches.accept hu hpresents hneed hactive
    (by rw [pageOutOfRange_eq_false hrange, Bool.and_false])

/-- Write-protect is asserted in the idle controller (rule R45). -/
theorem Block.IdleInv.wpN_low {b : Block} (h : b.IdleInv) : b.wpN = false := by
  obtain ⟨-, -, -, hlines, -⟩ := h
  obtain ⟨-, hwp, -⟩ := Lines.mk.inj hlines
  exact hwp

/-- What a frame with write-protect released around it moves besides its results stands as before when an
operation from the idle controller ends. -/
theorem Block.IdleInv.protectedFrame_restored {b : Block} (h : b.IdleInv) :
    { b with csN := true, wpN := false, pos := 0, sub := .start, idx := 0 } = b := by
  rw [← h.wpN_low]
  exact h.frame_restored

/-- Settles O45: the head of the frame (`Reaches.header`), the 512 captures (`Reaches.capture`), and the end of
the frame. -/
theorem readPageRuns : Obligations.ReadPageRuns := by
  intro s n x d hu hpresents hactive hrange hx hd
  have hseq : sequenceOf s.cfg (commandOf 6 n) = [.csAssert, .xferConst s.cfg.opcReadLf] ++
      addressTransfers ++ [.xferCapture pageBytes, .csRelease, .finish none] := rfl
  obtain ⟨-, hidle, -⟩ := id hpresents
  obtain ⟨hcs, -⟩ := hidle.lines_high
  obtain ⟨u1, h1, haccepted⟩ := Reaches.acceptPaged (.inl rfl) hu hpresents hactive hrange
  obtain ⟨u2, h2, hsent⟩ := haccepted.header (pre := []) h1 rfl rfl rfl hseq rfl rfl hcs hx
  obtain ⟨u3, h3, hread⟩ := hsent.capture (m := 511) (hsent.at_of_blk h2 hseq rfl rfl rfl rfl)
    (by rw [h2]; rfl) (by rw [h2]; rfl) (by decide) hd
  rw [h2] at h3
  obtain ⟨u4, h4, hraised⟩ := hread.csRelease (hread.at_of_blk h3 hseq rfl rfl rfl rfl) (by rw [h3]; rfl)
  rw [h3] at h4
  obtain ⟨t, ht, hdone⟩ := hraised.finish (hraised.at_of_blk h4 hseq rfl rfl rfl rfl)
  refine ⟨hdone.events, t, hdone.run, hdone.dev, by rw [hdone.captured, List.nil_append], ?_⟩
  rw [ht, h4]
  exact congrArg (fun b : Block => { b.finished 6 n s.port.cmdPayload with
    txData := 0xFF, rdIdx := 511, rdData := d 511 }) hidle.frame_restored

/-- Settles O46: the head of the frame, the payload (`Reaches.payload`) and the wait-ready
(`Reaches.waitReady`), between the two edges of write-protect. -/
theorem writePageRuns : Obligations.WritePageRuns := by
  intro s n q x d a b y hu hpresents hactive hrange hx hd hy hpairs hready
  have hseq : sequenceOf s.cfg (commandOf 7 n) = [.wpRelease] ++
      ([.csAssert, .xferConst s.cfg.opcProg] ++ addressTransfers ++
        ([.xferPayload, .csRelease] ++ waitReadyFrame s.cfg ++ [.wpAssert, .finish none])) := rfl
  obtain ⟨-, hidle, -⟩ := id hpresents
  obtain ⟨hcs, -⟩ := hidle.lines_high
  obtain ⟨u1, h1, haccepted⟩ := Reaches.acceptPaged (.inr rfl) hu hpresents hactive hrange
  obtain ⟨u2, h2, hreleased⟩ := haccepted.wpRelease (haccepted.at_of_blk h1 hseq rfl rfl rfl rfl)
    (by rw [h1]; exact hidle.wpN_low)
  rw [h1] at h2
  obtain ⟨u3, h3, hsent⟩ := hreleased.header h2 rfl rfl rfl hseq rfl rfl hcs hx
  obtain ⟨u4, h4, hwritten⟩ := hsent.payload (hsent.at_of_blk h3 hseq rfl rfl rfl rfl)
    (by rw [h3]; rfl) (by rw [h3]; rfl) hd
  rw [h3] at h4 hwritten
  obtain ⟨u5, h5, hraised⟩ := hwritten.csRelease (hwritten.at_of_blk h4 hseq rfl rfl rfl rfl)
    (by rw [h4]; rfl)
  rw [h4] at h5
  obtain ⟨u6, h6, hpolled⟩ := hraised.waitReady (o := 7) (n := n) (post := [.wpAssert, .finish none])
    (pre := [.wpRelease, .csAssert, .xferConst s.cfg.opcProg] ++ addressTransfers ++ [.xferPayload, .csRelease])
    h5 rfl rfl rfl hseq rfl rfl rfl rfl rfl hy hpairs hready
  obtain ⟨u7, h7, hprotected⟩ := hpolled.wpAssert (hpolled.at_of_blk h6 hseq rfl rfl rfl rfl)
    (by rw [h6]; rfl)
  rw [h6] at h7
  obtain ⟨t, ht, hdone⟩ := hprotected.finish (hprotected.at_of_blk h7 hseq rfl rfl rfl rfl)
  rw [show 1 + 1 + 9 + 1024 + 1 + 4 + 4 * q + 1 + 1 = 1042 + 4 * q by omega] at hdone
  refine ⟨hdone.events, t, hdone.run, hdone.dev, hdone.captured_nil, ?_⟩
  rw [ht, h7]
  exact congrArg (fun c : Block => { c.finished 7 n s.port.cmdPayload with
    st0 := a (q - 1), st1 := b (q - 1), txData := 0xFF, pollCnt := q - 1 }) hidle.protectedFrame_restored

/-! ### A programmed page read back (rule R191) -/

namespace RefDev

section
variable {c : Cfg} {d : RefDev} {p : BitVec 13} {data : Payload}

/-- The device responds, and a read of page `p` is answered with `data`. -/
structure ReadsAs (c : Cfg) (p : BitVec 13) (data : Payload) (d : RefDev) : Prop where
  lost : d.lost = false
  awake : d.awake = true
  readable : d.readable c p = true
  bytes : ∀ i < 512, Memory.get d.erasedByte d.mem (cellAddress p i) = data.bytes.getD i 0

/-- In the known 512-byte configuration a program cycle that is committed leaves its page reading as its data. -/
theorem readsAs_commitProg (hl : d.lost = false) (ha : d.awake = true) (hk : d.pszKnown = true)
    (hp : d.psz = c.pagesizeBit512) (hb : d.busyLeft = 0) (hm : Memory.wf d.erasedByte d.mem = true) :
    (d.commitProg c p data).ReadsAs c p data where
  lost := hl
  awake := ha
  readable := by
    refine readable_iff.2 ⟨?_, hb, rfl, hk, hp⟩
    simp [commitProg_indet_known hk hp, PageSet.mem_remove]
  bytes _ hi := commitProg_mem_same hm hi

/-- The device has its busy length still to count, and once it is counted page `p` reads as `data`. -/
structure WillRead (c : Cfg) (p : BitVec 13) (data : Payload) (k : Nat) (d : RefDev) : Prop where
  lost : d.lost = false
  awake : d.awake = true
  busyLeft : d.busyLeft = k
  settled : (commit c { d with busyLeft := 0 }).ReadsAs c p data

/-- A program frame that takes effect, whether its cycle is committed at once or after `k` polls. -/
theorem willRead_programEffect {k : Nat} {rest : List Nat} (hl : d.lost = false) (ha : d.awake = true)
    (hr : d.ready = true) (hplan : d.busyPlan = k :: rest) (hk : d.pszKnown = true)
    (hp : d.psz = c.pagesizeBit512) (hm : Memory.wf d.erasedByte d.mem = true) :
    (programEffect c true p data d).WillRead c p data k := by
  have hread : (((d.markProgram p data).begun (.prog p data) 0 rest).commitProg c p data).ReadsAs c p data :=
    readsAs_commitProg hl ha hk hp rfl hm
  rw [programEffect_ready p data hr hplan, if_neg (by decide)]
  split
  · rename_i hzero
    exact ⟨hl, ha, hzero.symm, hread⟩
  · exact ⟨hl, ha, rfl, hread⟩

/-- A commit looks neither at the frame nor at the time of its beginning. -/
theorem commit_frame_tCsLow (l : List Byte) (time : Nat) :
    commit c { d with frame := l, tCsLow := time } = { d.commit c with frame := l, tCsLow := time } := by
  obtain ⟨-, -, -, -, -, pending, -⟩ := d
  cases pending with
  | none => rfl
  | some q => cases q <;> rfl

/-- A status poll of more pairs than the busy length, from the fall of chip-select, makes page `p` read as `data`. -/
theorem WillRead.poll {k q : Nat} (h : d.WillRead c p data k) (hq : k < q) (free : Nat → Byte) :
    (exchanges c free (c.opcStatus :: fillers (2 * q)) d.csFall).2.ReadsAs c p data := by
  have hmore : ¬ q ≤ d.busyLeft := by
    rw [h.busyLeft]
    omega
  have hpolls : (exchanges c free (c.opcStatus :: fillers (2 * q)) d.csFall).2 =
      { commit c { d with busyLeft := 0, frame := [c.opcStatus], tCsLow := d.now } with
        frame := [c.opcStatus] ++ fillers (2 * q) } := by
    simp only [exchanges]
    rw [exchange_first rfl]
    exact (exchanges_polls (d := { d.csFall with frame := [c.opcStatus] }) free q (l := []) h.lost h.awake
      rfl rfl).trans (if_neg hmore)
  rw [hpolls, commit_frame_tCsLow (d := { d with busyLeft := 0 })]
  exact ⟨h.settled.lost, h.settled.awake, h.settled.readable, h.settled.bytes⟩

/-- That a frame has ended and been acted on changes nothing in how a page reads. -/
theorem ReadsAs.ended (h : d.ReadsAs c p data) : ReadsAs c p data { d with atEnd := false } :=
  ⟨h.lost, h.awake, h.readable, h.bytes⟩

/-- The page read of a page number, from the fall of chip-select. -/
theorem ReadsAs.pageRead {n : PageNo} (h : d.ReadsAs c (n.extractLsb' 0 13) data)
    (hstatus : c.opcReadLf ≠ c.opcStatus) (hid : c.opcReadLf ≠ c.opcId) (free : Nat → Byte) :
    (exchanges c free ([c.opcReadLf, packAddr n .a0, packAddr n .a1, packAddr n .a2] ++ fillers 512)
      d.csFall).1.drop 4 = data.bytes := by
  have hpage : BitVec.ofNat 13 (unpackAddr (packAddr n .a0) (packAddr n .a1)) = n.extractLsb' 0 13 := by
    rw [packAddr, packAddr, unpack_eq, pageBits_address, BitVec.ofNat_toNat, BitVec.setWidth_eq]
  calc _ = (exchanges c free (fillers 512)
        { d.csFall with frame := [c.opcReadLf, packAddr n .a0, packAddr n .a1, packAddr n .a2] }).1 := by
        simp only [List.cons_append, List.nil_append]
        exact exchanges_readHeader free _ h.lost h.awake rfl hstatus hid
    _ = (List.range 512).map fun i =>
        Memory.get d.erasedByte d.mem (cellAddress (n.extractLsb' 0 13) (0 + i)) := by
        rw [← hpage]
        exact exchanges_read free 512 (l := []) h.lost h.awake rfl hstatus hid
          (hpage ▸ h.readable) le_rfl
    _ = data.bytes := by
        refine List.ext_getElem (by simp [data.size]) fun i hi hi' => ?_
        simp [h.bytes i (data.size ▸ hi'), hi']

end

end RefDev

section
variable {s : State} {c : Cfg} {p : BitVec 13} {data : Payload}

/-- After a program frame to a device that responds and is ready, write-protect released, in the known 512-byte
configuration, the page will read as its data. -/
theorem exec_frameB5_willRead {k : Nat} {rest : List Nat} (hm : Memory.wf s.dev.erasedByte s.dev.mem = true)
    (hl : s.dev.lost = false) (ha : s.dev.awake = true) (hr : s.dev.ready = true)
    (hplan : s.dev.busyPlan = k :: rest) (hwp : s.blk.wpN = true) (hk : s.dev.pszKnown = true)
    (hp : s.dev.psz = s.cfg.pagesizeBit512) (b : Byte) :
    ∃ d, exec (.frameB5 p b data) s = .next (s.setDev d) ∧ d.WillRead s.cfg p data k := by
  refine ⟨programEffect s.cfg true p data { s.dev with atEnd := false }, ?_,
    RefDev.willRead_programEffect hl ha hr hplan hk hp hm⟩
  rw [← hwp]
  exact congrArg _ (State.endFrame_awake hl ha)

/-- The end of a status poll changes nothing at a device that reads so: no cycle is under way whose wait it could
abandon. -/
theorem exec_frameB3_of_readsAs (h : s.dev.ReadsAs c p data) (q : Nat) :
    exec (.frameB3 q) s = .next (s.setDev { s.dev with atEnd := false }) := by
  obtain ⟨-, -, hpending, -⟩ := RefDev.readable_iff.1 h.readable
  rw [exec_status_frame h.lost h.awake (.inr ⟨q, rfl⟩),
    RefDev.abandon_of_none (d := { s.dev with atEnd := false }) hpending]

end

/-- Settles O58: the program frame (`exec_frameB5_willRead`), the poll (`RefDev.WillRead.poll`) with its end
(`exec_frameB3_of_readsAs`), and the page read (`RefDev.ReadsAs.pageRead`). -/
theorem programmedPageReadsBack : Obligations.ProgrammedPageReadsBack := by
  rintro s n data k q rest free ⟨-, hmem, -⟩ ⟨hop, -⟩ hl ha hr hplan hkq hwp hknown hpsz
  simp only [List.nodup_cons, List.mem_cons, not_or] at hop
  obtain ⟨⟨-, hstatus, -⟩, ⟨hid, -⟩, -⟩ := hop
  obtain ⟨d, hprogram, hwill⟩ := exec_frameB5_willRead (p := n.extractLsb' 0 13) (data := data) hmem hl ha hr
    hplan hwp hknown hpsz (n.extractLsb' 0 8)
  have hreads := hwill.poll hkq free
  exact ⟨s.setDev d, _, hprogram, exec_frameB3_of_readsAs (s := State.setDev _ _) hreads q,
    hreads.ended.pageRead (Ne.symm hstatus) (Ne.symm hid) free⟩

end Sys2Proof.Machine
end


section
/-! The identification read and the magic commands from acceptance to `FINISH`: `GetIdRuns`,
`SetPagesizeRuns` and `EraseChipRuns`. -/

namespace Sys2Proof.Machine

/-- Settles O41: the opcode (`Reaches.opcode`), the five captures (`Reaches.capture`), and the end of the
frame. -/
theorem getIdRuns : Obligations.GetIdRuns := by
  intro s n r d hu hpresents hactive hr hd
  have hseq : sequenceOf s.cfg (commandOf 3 n) =
      [.csAssert, .xferConst s.cfg.opcId, .xferCapture idBytes, .csRelease, .finish none] := rfl
  obtain ⟨-, hidle, -⟩ := id hpresents
  obtain ⟨u, h, hsent⟩ := Reaches.opcode hu hpresents (congrArg some hactive.symm) rfl hseq hr
  obtain ⟨v, h', hread⟩ := hsent.capture (m := 4) (hsent.at_of_blk h hseq rfl rfl rfl rfl)
    (by rw [h]; rfl) (by rw [h]; rfl) (by decide) hd
  rw [h] at h'
  obtain ⟨t, ht, hdone⟩ := hread.closeFrame h' hseq rfl rfl rfl rfl rfl
  refine ⟨hdone.events, t, hdone.run, hdone.dev, hdone.captured, ?_⟩
  rw [ht]
  exact congrArg (fun b : Block => { b.finished 3 n s.port.cmdPayload with
    txData := 0xFF, rdIdx := 4, rdData := d 4 }) hidle.frame_restored

/-! ### The magic commands in a run (rules R200, R207 and R208) -/

/-- A magic frame and the wait-ready after it, wherever they stand in a sequence. -/
theorem Reaches.magicWaitReady {s u : State} {k : Nat} {ev : List PinEvent} {cap : List (BitVec 9 × Byte)}
    (h : Reaches s k u ev cap) {o : OpCode} {n : PageNo} {B : Block} {pre post : List Prim} {m : Magic}
    {q : Nat} {x a b : Nat → Byte} {y : Byte} (hB : u.blk = B) (hb : B.busy = true) (ho : B.op = o)
    (hn : B.page = n) (hseq : sequenceOf s.cfg (commandOf o n) =
      pre ++ ([.csAssert] ++ magicTransfers m ++ [.csRelease] ++ (waitReadyFrame s.cfg ++ post)))
    (hpos : B.pos = pre.length) (hs : B.sub = .start) (hi : B.idx = 0) (hcs : B.csN = true)
    (hpc : B.pollCnt = 0) (hx : ∀ i < 4, s.AnswersAt (k + 2 + 2 * i) (x i)) (hy : s.AnswersAt (k + 12) y)
    (hpairs : s.PollAnswers (k + 14) q a b) (hready : ReadyAtLast s.cfg q a) :
    ∃ v, v.blk = { B.sent filler with
        csN := true, st0 := a (q - 1), st1 := b (q - 1), pollCnt := q - 1, pos := pre.length + 10 } ∧
      Reaches s (k + 14 + 4 * q) v (ev ++ magicEvents m x ++ pollEvents s.cfg q y a b) cap := by
  obtain ⟨w, hw, hframe⟩ := h.magicFrame hB hb ho hn hseq hpos hs hcs hx
  have hrest : sequenceOf s.cfg (commandOf o n) =
      (pre ++ ([.csAssert] ++ magicTransfers m ++ [.csRelease])) ++ (waitReadyFrame s.cfg ++ post) := by
    rw [hseq, List.append_assoc pre]
  obtain ⟨v, hv, hpolled⟩ := hframe.waitReady hw hb ho hn hrest
    (by simp [magicTransfers]) rfl hi hcs hpc hy hpairs hready
  exact ⟨v, by rw [hv]; simp [magicTransfers, Block.sent, hcs], hpolled⟩

/-- Settles O43: acceptance, the magic frame with its wait-ready (`Reaches.magicWaitReady`), and `FINISH`. -/
theorem setPagesizeRuns : Obligations.SetPagesizeRuns := by
  intro s n q x a b y hu hactive hx hy hpairs hready row hrow hpresents
  have hshape : requiredState (commandOf row.1 n) = some .active ∧ (row.1 == 6 || row.1 == 7) = false ∧
      sequenceOf s.cfg (commandOf row.1 n) = [.csAssert] ++ magicTransfers row.2 ++ [.csRelease] ++
        (waitReadyFrame s.cfg ++ [.finish none]) := by
    simp only [List.mem_cons, List.not_mem_nil, or_false] at hrow
    rcases hrow with rfl | rfl <;> exact ⟨rfl, rfl, rfl⟩
  obtain ⟨hneed, hpaged, hseq⟩ := hshape
  obtain ⟨-, hidle, -⟩ := id hpresents
  obtain ⟨hcs, -⟩ := hidle.lines_high
  obtain ⟨u, h, haccepted⟩ := Reaches.accept hu hpresents hneed hactive (by rw [hpaged]; rfl)
  obtain ⟨v, h', hpolled⟩ := haccepted.magicWaitReady (pre := []) h rfl rfl rfl hseq rfl rfl rfl hcs rfl
    hx hy hpairs hready
  obtain ⟨t, ht, hdone⟩ := hpolled.finish (hpolled.at_of_blk h' hseq rfl rfl rfl rfl)
  rw [show 1 + 14 + 4 * q + 1 = 16 + 4 * q by omega] at hdone
  refine ⟨hdone.events, t, hdone.run, hdone.dev, hdone.captured_nil, ?_⟩
  rw [ht, h']
  exact congrArg (fun c : Block => { c.finished row.1 n s.port.cmdPayload with
    st0 := a (q - 1), st1 := b (q - 1), txData := 0xFF, pollCnt := q - 1 }) hidle.frame_restored

/-- Settles O44: the magic frame with its wait-ready (`Reaches.magicWaitReady`), between the two edges of
write-protect. -/
theorem eraseChipRuns : Obligations.EraseChipRuns := by
  intro s n q x a b y hu hpresents hactive hx hy hpairs hready
  have hseq : sequenceOf s.cfg (commandOf 8 n) = [.wpRelease] ++
      ([.csAssert] ++ magicTransfers s.cfg.seqChipErase ++ [.csRelease] ++
        (waitReadyFrame s.cfg ++ [.wpAssert, .finish none])) := rfl
  obtain ⟨-, hidle, -⟩ := id hpresents
  obtain ⟨hcs, -⟩ := hidle.lines_high
  obtain ⟨u1, h1, haccepted⟩ := Reaches.accept hu hpresents rfl hactive rfl
  obtain ⟨u2, h2, hreleased⟩ := haccepted.wpRelease (haccepted.at_of_blk h1 hseq rfl rfl rfl rfl)
    (by rw [h1]; exact hidle.wpN_low)
  rw [h1] at h2
  obtain ⟨u3, h3, hpolled⟩ := hreleased.magicWaitReady h2 rfl rfl rfl hseq rfl rfl rfl hcs rfl
    hx hy hpairs hready
  obtain ⟨u4, h4, hprotected⟩ := hpolled.wpAssert (hpolled.at_of_blk h3 hseq rfl rfl rfl rfl)
    (by rw [h3]; rfl)
  rw [h3] at h4
  obtain ⟨t, ht, hdone⟩ := hprotected.finish (hprotected.at_of_blk h4 hseq rfl rfl rfl rfl)
  rw [show 1 + 1 + 14 + 4 * q + 1 + 1 = 18 + 4 * q by omega] at hdone
  refine ⟨hdone.events, t, hdone.run, hdone.dev, hdone.captured_nil, ?_⟩
  rw [ht, h4]
  exact congrArg (fun c : Block => { c.finished 8 n s.port.cmdPayload with
    st0 := a (q - 1), st1 := b (q - 1), txData := 0xFF, pollCnt := q - 1 }) hidle.protectedFrame_restored

end Sys2Proof.Machine
end


section
/-! The errors raised at acceptance: `WrongPowerStateRejected`, `AddressOutOfRangeRejected` and
`ReservedCodesRejected`. -/

namespace Sys2Proof.Machine

/-- The power state is tested before the page number: outside the required one, no command gets past it
(rule R223). -/
theorem Block.present_wrongPowerState {c : Cfg} {o : OpCode} {need : PState} {paged : Bool} {n : PageNo}
    {v : Payload} {b : Block} (h : b.pstate ≠ need) :
    b.present c o need paged n v = b.reject .wrongPowerState :=
  if_pos h

/-- Settles O23: outside its power state a row of the guard table is rejected, in its own it is accepted
(`commandAccepted`). -/
theorem wrongPowerStateRejected : Obligations.WrongPowerStateRejected := by
  intro s n row hrow hb hs
  refine ⟨?_, rfl, fun s' hb' hs' hn => ⟨_, commandAccepted s' n row hrow hb' hs' fun _ _ => hn, rfl, rfl⟩⟩
  obtain ⟨hcommand, hneed⟩ := guardTable_row hrow
  rw [hcommand] at hneed ⊢
  rw [exec_idle hb hneed, Block.present_wrongPowerState (b := s.blk.pulsesFall) hs]
  rfl

/-- The instructions that take a page number are the commands of codes 6 and 7 (rule R92). -/
theorem exists_paged_commandOf {i : Instr} {n : PageNo} (h : i = .readPage n ∨ i = .writePage n) :
    ∃ o : OpCode, (o = 6 ∨ o = 7) ∧ i = commandOf o n :=
  h.elim (⟨6, .inl rfl, ·⟩) (⟨7, .inr rfl, ·⟩)

/-- Settles O24: the operations with a page number go as `exec_paged_outOfRange` says, the others are accepted
whatever the field (`commandAccepted`). -/
theorem addressOutOfRangeRejected : Obligations.AddressOutOfRangeRejected := by
  intro s n hb hn
  refine ⟨fun i hi hp => ?_, fun row hrow h6 h7 hs => ?_, rfl⟩
  · obtain ⟨o, ho, rfl⟩ := exists_paged_commandOf hi
    rw [exec_paged_outOfRange ho hb hp hn]
    refine ⟨fun hc => ?_, fun hc => ?_⟩ <;> rw [hc]
    · rfl
    · exact ⟨_, rfl, rfl, rfl, fun k => (packAddr_mod_nPages n k).symm⟩
  · exact ⟨_, commandAccepted s n row hrow hb hs fun hpaged => (hpaged.elim h6 h7).elim, rfl, rfl⟩

/-- Settles O25: no power state is required of the codes 14 and 15 that the decoder gives. -/
theorem reservedCodesRejected : Obligations.ReservedCodesRejected := fun _ n hb =>
  ⟨decodeCommand_commandWord 14 n, decodeCommand_commandWord 15 n,
    exec_reserved (o := 14) (n := n) hb rfl, exec_reserved (o := 15) (n := n) hb rfl, rfl⟩

end Sys2Proof.Machine
end


section
/-! Waits without a limit (rule R286): `UnboundedWaitsHang`. -/

namespace Sys2Proof.Machine

/-- A wire on which `tx_done` never rises answers at no tick. -/
theorem State.not_answersAt_of_silent {s : State} (h : ∀ e ∈ s.wire, e.1 = false) (k : Nat) (r : Byte) :
    ¬ s.AnswersAt k r := fun ⟨_, hr⟩ => Bool.noConfusion (h _ (List.mem_of_getElem? hr))

/-- Where no pulse is up, none falls. -/
theorem Block.pulsesFall_eq_self {b : Block} (hdone : b.done = false) (hstart : b.txStart = false)
    (hread : b.rdValid = false) : b.pulsesFall = b := by
  cases b
  cases hdone
  cases hstart
  cases hread
  rfl

/-- A byte loop does not change which instruction runs. -/
theorem Block.running_of_loopBase {b b' : Block} (h : b'.loopBase = b.loopBase) : b'.running = b.running :=
  (congrArg Block.running h :)

/-- Settles O47: with no limit, ticks without an answer only count (`Reaches.waits`), and busy pairs only count
(`Reaches.polls`). -/
theorem unboundedWaitsHang : Obligations.UnboundedWaitsHang := by
  refine ⟨fun s p x hu hp hx hwait hnow hsilent hlimit hstart hread hdone k => ?_,
    fun s q a b hu hp hs hi hpairs hlimit hbusy k hk => ?_⟩
  · obtain ⟨t, ht, hreach⟩ := (Reaches.refl hu).waits hp hx hwait k hnow
      (fun _ _ _ => State.not_answersAt_of_silent hsilent _) (.inl hlimit)
    rw [Nat.zero_add] at hreach
    refine ⟨t, hreach.run, ?_⟩
    rw [ht, Block.pulsesFall_eq_self hdone hstart hread]
    split
    next h => rw [h]; rfl
    next => rfl
  · obtain ⟨t, -, -, -, -, hcount, hbase, hreach⟩ := (Reaches.refl hu).polls hp hs hi (j := k)
      (fun i h => by simpa using hpairs i (h.trans_le hk)) (fun i h => hbusy i (h.trans_le hk)) (.inl hlimit)
    rw [Nat.zero_add] at hreach
    obtain ⟨hcs, -⟩ := Lines.mk.inj (Block.lines_of_loopBase hbase)
    refine ⟨t, hreach.run, ?_, hcs, hcount⟩
    rw [← Block.running_of_loopBase hbase]
    exact Block.at_of_loopBase hbase hreach.cfg hp

end Sys2Proof.Machine
end


section
/-! The words and frames of the test vectors, read back from their encodings: `WrittenWordsDecode`. -/

namespace Sys2Proof

/-- A code decodes to the instruction in canonical form that it encodes, where the catalog tells frames apart. -/
theorem decode_eq_of_encode_eq {c : Cfg} {i : Instr} {code : Code} (hc : c.CatalogDistinct)
    (hencode : encode c i = code) (hwf : i.WellFormed) (hcanonical : i.canonical = i) : decode c code = .ok i := by
  rw [← hencode, decodeOfEncode c i hc hwf, hcanonical]

/-- Settles O1: each written code is what the encoder gives for its instruction, and so decodes to it. -/
theorem writtenWordsDecode : Obligations.WrittenWordsDecode := by
  have hdefault : Cfg.default.CatalogDistinct := by decide
  unfold Obligations.WrittenWordsDecode
  and_intros <;> exact decode_eq_of_encode_eq hdefault rfl rfl rfl

end Sys2Proof
end
